-- ==== Sys2Proof/Word.lean ====
section
/-! DEFINITION. The widths of the block's values (00 R5, R7, R8; 20 R42). -/

namespace Sys2Proof

/-- A byte of a stream; bit 7 is its most significant bit (00 R7). -/
abbrev Byte := BitVec 8

/-- A word of the register bus, and every 32-bit register and counter (00 R5). -/
abbrev Word := BitVec 32

/-- A 64-bit result (BITLEN, OUT_COUNT; 00 R5). -/
abbrev DWord := BitVec 64

/-- A byte address of the 14-bit register space (20 R42). -/
abbrev Addr := BitVec 14

/-- A symbol, 0..127 (00 R5). -/
abbrev Sym := BitVec 7

/-- A node index as LEFT, RIGHT, ROOT and the walker hold it (10 R33). -/
abbrev NodeIx := BitVec 8

/-- A bit string in transmission order, leftmost bit first (00 R8). -/
abbrev BitString := List Bool

end Sys2Proof
end

