-- ==== Sys2Proof/Machine/Bits.lean ====
section
/-! DEFINITION. Bit strings and the bytes of the encoded stream (00 R8, 30 R71, 44 R109, 45 R117). -/

namespace Sys2Proof.Machine

/-- The low `n` bits of `v` as a bit string, bit `n - 1` first: `bits8` of 00 R8 for `n = 8`, and the bit string
of a CODE entry for `n = LEN` (30 R70). -/
def bitsOf {w : Nat} : Nat → BitVec w → BitString
  | 0, _ => []
  | n + 1, v => v.getLsbD n :: bitsOf n v

/-- `val` of 00 R8, with the value `acc` of the bits already read. -/
def valFrom : Nat → BitString → Nat
  | acc, [] => acc
  | acc, b :: bs => valFrom (2 * acc + b.toNat) bs

/-- `val(s)`, the number a bit string writes, first bit most significant (00 R8). -/
def val (s : BitString) : Nat := valFrom 0 s

/-- `byte(s)` of an 8-bit string (00 R8). -/
def byteOf (s : BitString) : Byte := BitVec.ofNat 8 (val s)

/-- The emission loop of 44 R109 and R110: while at least 8 bits are held, the first 8 leave as a byte. Answers
the bytes in order and the bits that stay. -/
def packBytes : BitString → List Byte × BitString
  | b7 :: b6 :: b5 :: b4 :: b3 :: b2 :: b1 :: b0 :: rest =>
    (byteOf [b7, b6, b5, b4, b3, b2, b1, b0] :: (packBytes rest).1, (packBytes rest).2)
  | held => ([], held)

/-- The prefix of 30 R71 for a padding: `pad - 1` zero bits, then the sentinel. -/
def prefixFor (pad : Nat) : BitString := List.replicate (pad - 1) false ++ [true]

/-- The padding of a payload of `n` bits, 1..8 (30 R71). -/
def padFor (n : Nat) : Nat := 8 - n % 8

/-- Drops everything through the first 1; drops all where there is none (45 R117, the source's 4.5). -/
def dropSentinel : BitString → BitString
  | [] => []
  | true :: rest => rest
  | false :: rest => dropSentinel rest

/-- `PayloadBits` of 45 R117: the payload bits of a frame byte, `first` telling whether it is the frame's first. -/
def payloadBits (first : Bool) (b : Byte) : BitString :=
  if first then dropSentinel (bitsOf 8 b) else bitsOf 8 b

end Sys2Proof.Machine
end

