-- ==== Sys2Proof/Syntax.lean ====
section
/-! DEFINITION. The six commands, one constructor per row of the opcode table (30 R64). No command word
carries an operand (30 R66), so no constructor has an argument. -/

namespace Sys2Proof

/-- A command of the block (30 R64). -/
inductive Instr where
  /-- CLEAR, OP 0x1: return the data path to its start (40 R80). -/
  | clear
  /-- COUNT, OP 0x2: one frequency pass over a frame (41 R83). -/
  | count
  /-- BUILD_TREE, OP 0x3: the sorted list and the Huffman tree (42 R89). -/
  | buildTree
  /-- BUILD_TABLE, OP 0x4: the code table (43 R101). -/
  | buildTable
  /-- ENCODE, OP 0x5: pack the codes of a frame (44 R107). -/
  | encode
  /-- DECODE, OP 0x6: unpack a frame and walk a tree (45 R113). -/
  | decode
deriving DecidableEq, Repr

end Sys2Proof
end

