-- ==== Sys2Proof/WellFormed.lean ====
section
/-! DEFINITION. Which command words are well formed (30 R63, R65). -/

namespace Sys2Proof

/-- Every command is well formed: it has no operand that could be out of range (30 R66). -/
def Instr.wellFormed : Instr → Bool
  | .clear | .count | .buildTree | .buildTable | .encode | .decode => true

/-- RSV, bits [31:4], is 0 (30 R63). -/
def rsvClear (w : Word) : Bool := w.extractLsb' 4 28 == 0#28

/-- OP, bits [3:0], names a command, 0x1..0x6 (30 R64). -/
def opNamed (w : Word) : Bool := 1 ≤ (w.extractLsb' 0 4).toNat && (w.extractLsb' 0 4).toNat ≤ 6

/-- A command word is well formed exactly when neither reason of 30 R63 makes it illegal. -/
def wellFormedWord (w : Word) : Bool := rsvClear w && opNamed w

end Sys2Proof
end

