-- ==== Sys2Proof/Decode.lean ====
section
/-! DEFINITION. Command words to commands and back (30 R63 to R67). -/

namespace Sys2Proof

/-- Why a word is no command; both are ILLEGAL_CMD to the block (30 R63). -/
inductive DecodeError where
  /-- RSV is not 0. -/
  | reservedBits
  /-- OP is 0x0 or 0x7..0xF. -/
  | unnamedOpcode
deriving DecidableEq, Repr

/-- The field OP of a command word (30 R63). -/
def opField (w : Word) : BitVec 4 := w.extractLsb' 0 4

/-- The field RSV of a command word (30 R63). -/
def rsvField (w : Word) : BitVec 28 := w.extractLsb' 4 28

/-- The opcode map from OP to a command (30 R64). -/
def commandOfOp (op : BitVec 4) : Option Instr :=
  match op.toNat with
  | 1 => some .clear
  | 2 => some .count
  | 3 => some .buildTree
  | 4 => some .buildTable
  | 5 => some .encode
  | 6 => some .decode
  | _ => none

/-- The total decoder of command words: one of the six commands, or illegal by name (30 R65). -/
def decode (w : Word) : Except DecodeError Instr :=
  if rsvField w = 0#28 then
    match commandOfOp (opField w) with
    | some i => .ok i
    | none => .error .unnamedOpcode
  else .error .reservedBits

/-- The opcode map from a command to OP (30 R64). -/
def opcode : Instr → BitVec 4
  | .clear => 0x1#4
  | .count => 0x2#4
  | .buildTree => 0x3#4
  | .buildTable => 0x4#4
  | .encode => 0x5#4
  | .decode => 0x6#4

/-- The command word of a command: OP in bits [3:0], RSV 0 (30 R63). -/
def encode (i : Instr) : Word := 0#28 ++ opcode i

/-- The command that the decoder reads from the table's numbering: one 32-bit word, so bit 0 of the table is
bit 0 of the command word; the bits from `nbits` up are 0. -/
def decodeTableWord (nbits w : Nat) : Option Instr :=
  match decode (BitVec.ofNat 32 (w % 2 ^ nbits)) with
  | .ok i => some i
  | .error _ => none

end Sys2Proof
end

