-- ==== Sys2Proof/Machine/Tree.lean ====
section
/-! DEFINITION. Node records, the synthesized tree, and WF_ROM (10 R33, R35, 30 R69, 45 R114). -/

namespace Sys2Proof.Machine

/-- A node record of NODE or ROM (10 R33, 30 R69). The reserved bits [29:23] of its word 0 are 0 by construction. -/
structure NodeRec where
  /-- VALID -/
  valid : Bool
  /-- LEAF -/
  leaf : Bool
  /-- SYM, the symbol of a leaf -/
  sym : Sym
  /-- LEFT, the child of edge 0 -/
  left : NodeIx
  /-- RIGHT, the child of edge 1 -/
  right : NodeIx
  /-- WEIGHT -/
  weight : Word
deriving DecidableEq, Repr

/-- The record with every field 0. -/
def zeroNode : NodeRec :=
  { valid := false, leaf := false, sym := 0#7, left := 0#8, right := 0#8, weight := 0#32 }

/-- The 255 node records of NODE or ROM (10 R33, R35). -/
abbrev Nodes := Vector NodeRec 255

/-- The record at an index; none for 255, which is no entry (10 R33). -/
def nodeAt (t : Nodes) (n : NodeIx) : Option NodeRec := t[n.toNat]?

/-- One walk over the part of `t` that the stacked indices reach, refusing a node met twice (45 R114 conditions 3
and 4); `fuel` bounds the nodes met. -/
def reachOk (t : Nodes) (nn : Nat) : Nat → List NodeIx → List NodeIx → Bool
  | _, [], _ => true
  | 0, _ :: _, _ => false
  | fuel + 1, n :: stack, seen =>
    decide (n.toNat < nn) && !seen.contains n &&
      match nodeAt t n with
      | none => false
      | some r =>
        r.valid &&
          if r.leaf then r.left == 0#8 && r.right == 0#8 && reachOk t nn fuel stack (n :: seen)
          else reachOk t nn fuel (r.left :: r.right :: stack) (n :: seen)

/-- The root is a valid internal node (45 R114 condition 2). -/
def rootInternal (t : Nodes) (root : NodeIx) : Bool :=
  match nodeAt t root with
  | none => false
  | some r => r.valid && !r.leaf

/-- Conditions 1 to 4 of 45 R114: a strict binary tree of `nn` records with root `root`. -/
def wfTree (t : Nodes) (nn root : NodeIx) : Bool :=
  decide (3 ≤ nn.toNat) && decide (root.toNat < nn.toNat) && rootInternal t root &&
    reachOk t nn.toNat 255 [root] []

/-- The entries from `nn` up are all zero (45 R114 condition 5). -/
def zeroFrom (t : Nodes) (nn : NodeIx) : Bool := (t.toList.drop nn.toNat).all (· == zeroNode)

/-- The data of the parameter TREE_ROM (00 R6). -/
structure RomData where
  /-- ROM_NNODES -/
  nnodes : NodeIx
  /-- ROM_ROOT -/
  root : NodeIx
  /-- ROM[0..254] -/
  nodes : Nodes
deriving DecidableEq, Repr

/-- WF_ROM (45 R114). -/
def wfRom (r : RomData) : Bool := wfTree r.nodes r.nnodes r.root && zeroFrom r.nodes r.nnodes

/-- The parameter TREE_ROM with the proof that it is a configuration of this hardware (00 R6, 45 R114). -/
abbrev TreeRom := { r : RomData // wfRom r = true }

/-- `v` with the elements of `l` written at the indices `k`, `k + 1`, ... -/
def writeFrom {α : Type} {n : Nat} (v : Vector α n) : Nat → List α → Vector α n
  | _, [] => v
  | k, a :: l => writeFrom (v.setIfInBounds k a) (k + 1) l

/-- The smallest tree that WF_ROM allows: an internal root over two leaves. It only shows that a configuration
exists; no step and no reset value reads it. -/
def smallestRom : RomData where
  nnodes := 3#8
  root := 2#8
  nodes := writeFrom (Vector.replicate 255 zeroNode) 0
    [{ zeroNode with valid := true, leaf := true },
     { zeroNode with valid := true, leaf := true, sym := 1#7 },
     { zeroNode with valid := true, left := 0#8, right := 1#8 }]

/-- The smallest tree is a configuration. -/
theorem smallestRom_wf : wfRom smallestRom = true := by decide +kernel

end Sys2Proof.Machine
end

