-- ==== Sys2Proof/Config.lean ====
section
/-! DEFINITION. What the spec leaves open (00 R6, 20 R50): constants without a value that a proof could see. -/

namespace Sys2Proof

/-- The value a read of a result register answers while a command is in progress: the `k`-th such value drawn
(20 R50, I1; log 6). -/
opaque Config.freeWord : Nat → Word

/-- The parameter TREE_ROM of the machine that `State.reset` is a state of (00 R6, D19; log 4). Its type carries
WF_ROM; nothing else about it is known. -/
opaque Config.treeRom [Inhabited Machine.TreeRom] : Machine.TreeRom

/-- `Config.treeRom`, given that a configuration exists. -/
def Config.rom : Machine.TreeRom := @Config.treeRom ⟨⟨Machine.smallestRom, Machine.smallestRom_wf⟩⟩

end Sys2Proof
end

