-- ==== Sys2Proof/Machine/State.lean ====
section
/-! DEFINITION. The state of the block as plain data (10 R13 to R40), its reset value, and the ways a step stops. -/

namespace Sys2Proof.Machine

/-- PHASE, the orchestration state (10 R36). -/
inductive Phase where
  /-- 0, IDLE -/
  | idle
  /-- 1, FREQ_DONE -/
  | freqDone
  /-- 2, TREE_BUILT -/
  | treeBuilt
  /-- 3, TABLE_READY -/
  | tableReady
deriving DecidableEq, Repr

/-- The command error codes (60 R122); codes 8..15 are never produced (I10; log 18). -/
inductive ErrCode where
  /-- 0, NONE -/
  | none
  /-- 1, ILLEGAL_CMD -/
  | illegalCmd
  /-- 2, PHASE_ERR -/
  | phaseErr
  /-- 3, EMPTY -/
  | empty
  /-- 4, RANGE -/
  | range
  /-- 5, NOCODE -/
  | noCode
  /-- 6, LENGTH -/
  | length
  /-- 7, TRAILING -/
  | trailing
deriving DecidableEq, Repr

/-- An entry of LIST (10 R32). -/
structure ListEntry where
  /-- VALID -/
  valid : Bool
  /-- SYM -/
  sym : Sym
  /-- COUNT -/
  count : Word
deriving DecidableEq, Repr

/-- The entry of LIST with every field 0. -/
def zeroEntry : ListEntry := { valid := false, sym := 0#7, count := 0#32 }

/-- An entry of CODE (10 R34). -/
structure CodeEntry where
  /-- VALID -/
  valid : Bool
  /-- LEN, 0..127 -/
  len : BitVec 7
  /-- VAL, the code right-aligned (30 R70) -/
  val : BitVec 127
deriving DecidableEq, Repr

/-- The absent slot of CODE. -/
def zeroCode : CodeEntry := { valid := false, len := 0#7, val := 0#127 }

/-- The hidden record of the command in progress (10 R37). -/
structure Cur where
  /-- the command (10 R37 op; log 18) -/
  op : Instr
  /-- input bytes still to consume -/
  rem : Word
  /-- the first error found -/
  err : ErrCode
  /-- the latched CTRL.TSRC -/
  tsrc : Bool
  /-- ENCODE: the bits not yet emitted -/
  acc : BitString
  /-- DECODE: no frame byte taken yet -/
  first : Bool
  /-- DECODE: the walker's node -/
  wnode : NodeIx
  /-- DECODE: payload bits since the last symbol -/
  pend : BitVec 8
deriving DecidableEq, Repr

/-- The size of a bus transaction (20 R42). -/
inductive AccessSize where
  /-- n = 1 -/
  | byte
  /-- n = 2 -/
  | half
  /-- n = 4 -/
  | word
deriving DecidableEq, Repr

/-- The response of a bus transaction (20 R42). -/
inductive Resp where
  /-- OKAY -/
  | okay
  /-- SLVERR -/
  | slverr
deriving DecidableEq, Repr

/-- What the bus answers: a read with a response and data, a write with a response (20 R42). -/
inductive Answer where
  /-- the answer to a read -/
  | read (resp : Resp) (rdata : Word)
  /-- the answer to a write -/
  | wrote (resp : Resp)
deriving DecidableEq, Repr

/-- One entry of the schedule: a move of the host (20 R56), or a turn left to the core sequencer (40 R76; log 1). -/
inductive HostMove where
  /-- `MemRead(a, n)` -/
  | read (a : Addr) (n : AccessSize)
  /-- `MemWrite(a, n, v)` -/
  | write (a : Addr) (n : AccessSize) (v : Word)
  /-- the host offers a byte on the input stream -/
  | offer (b : Byte)
  /-- the host takes a byte from the output stream -/
  | take
  /-- the host withdraws the oldest byte it has offered, as one of the rest of a frame that a reset abandoned (70 R143, R146
  item 9). 20 R56 lists no such liberty: that the host has it, for those bytes alone, is the model's choice (DESIGN CHOICE,
  safe; log 21) -/
  | withdraw
  /-- rst_n falls -/
  | rstFall
  /-- rst_n rises -/
  | rstRise
  /-- the host makes no move: the core sequencer's turn -/
  | core
deriving DecidableEq, Repr

/-- Why a step stops with a fault. Each one is raised only in states that no run reaches, and is safe: the model stops
where the rules give the pseudocode no meaning (log 8). -/
inductive Fault where
  /-- Raised by the walk of DECODE (45 R118) and the traversal of BUILD_TABLE (43 R102) at the index 255, which is no
  entry of NODE or ROM (10 R33). Safe. -/
  | noSuchNode
  /-- Raised by BUILD_TABLE when the traversal meets more than 255 nodes, so that the tree has a cycle or a shared node and
  the loop of 43 R102 need not end. Safe. -/
  | traversalDoesNotEnd
  /-- Raised by BUILD_TABLE at a leaf deeper than 127, whose code has no place in CODE (10 R34). Safe. -/
  | codeTooLong
  /-- Raised by BUILD_TREE when the merge leaves no single node, which happens only when no symbol was counted: step 5 of
  42 R96 takes the head of an empty queue. Safe. -/
  | noRoot
deriving DecidableEq, Repr

/-- Why a step is refused. -/
inductive Refusal where
  /-- Raised by exec's arm of an instruction that has no meaning yet. Safe. -/
  | notModelled (mnemonic : String)
  /-- Raised by the host's move in a bus transaction while rst_n is low: a move the model does not give the host
  (70 R142; log 12). Safe. -/
  | transactionInReset
  /-- Raised by the host's withdrawal of an offered byte where no byte of a frame abandoned by a reset is left to withdraw: a
  move the model does not give the host (20 R56, 70 R143; log 21). Safe. -/
  | withdrawOutsideFrame
deriving DecidableEq, Repr

/-- The state: the spec's own (10 R13), the parameter TREE_ROM, the level of rst_n, and the model's own record of the
host (logs 1, 4, 6, 12, 13, 21). -/
structure State where
  /-- CTRL.TSRC (10 R17): true selects NODE, false the ROM -/
  tsrc : Bool
  /-- CTRL.IRQ_EN (10 R17) -/
  irqEn : Bool
  /-- STATUS.DONE (10 R19) -/
  done : Bool
  /-- STATUS.ERRCODE (10 R19) -/
  errcode : ErrCode
  /-- STATUS.LASTCMD (10 R19) -/
  lastcmd : BitVec 4
  /-- STATUS.PHASE (10 R36) -/
  phase : Phase
  /-- IN_LEN (10 R20) -/
  inLen : Word
  /-- IN_CONSUMED (10 R21) -/
  inConsumed : Word
  /-- OUT_COUNT (10 R22) -/
  outCount : DWord
  /-- TOTAL (10 R23) -/
  total : Word
  /-- NSYM (10 R24) -/
  nsym : BitVec 8
  /-- NNODES (10 R25) -/
  nnodes : NodeIx
  /-- ROOT (10 R26) -/
  root : NodeIx
  /-- BITLEN (10 R27) -/
  bitlen : DWord
  /-- PAD (10 R28) -/
  pad : BitVec 4
  /-- TRAIL (10 R29) -/
  trail : BitVec 8
  /-- FREQ[0..127] (10 R31) -/
  freq : Vector Word 128
  /-- LIST[0..127] (10 R32) -/
  list : Vector ListEntry 128
  /-- NODE[0..254] (10 R33) -/
  node : Nodes
  /-- CODE[0..127] (10 R34) -/
  code : Vector CodeEntry 128
  /-- CUR (10 R37) -/
  cur : Option Cur
  /-- INQ, oldest first (10 R39) -/
  inq : List Byte
  /-- OUTQ, oldest first (10 R39) -/
  outq : List Byte
  /-- the parameter TREE_ROM (00 R6), which no step writes -/
  rom : TreeRom
  /-- the level of rst_n, true for high (20 R41) -/
  rstN : Bool
  /-- the model's own: the schedule still to come -/
  host : List HostMove
  /-- the model's own: the answer to the latest bus transaction -/
  answer : Option Answer
  /-- the model's own: the output bytes the host has taken, oldest first -/
  taken : List Byte
  /-- the model's own: how many free values have been drawn -/
  nFree : Nat
  /-- the model's own: how many bytes of a frame that a reset abandoned the host may still withdraw (70 R143; log 21) -/
  abandoned : Nat
deriving DecidableEq, Repr

/-- The machine right after reset (10 R40, 70 R141), rst_n high again, nothing offered and no move to come (log 13). -/
def State.reset : State where
  tsrc := false
  irqEn := false
  done := false
  errcode := .none
  lastcmd := 0#4
  phase := .idle
  inLen := 0#32
  inConsumed := 0#32
  outCount := 0#64
  total := 0#32
  nsym := 0#8
  nnodes := 0#8
  root := 0#8
  bitlen := 0#64
  pad := 0#4
  trail := 0#8
  freq := Vector.replicate 128 0#32
  list := Vector.replicate 128 zeroEntry
  node := Vector.replicate 255 zeroNode
  code := Vector.replicate 128 zeroCode
  cur := none
  inq := []
  outq := []
  rom := Config.rom
  rstN := true
  host := []
  answer := none
  taken := []
  nFree := 0
  abandoned := 0

end Sys2Proof.Machine
end

