-- ==== Sys2Proof/Machine/Flags.lean ====
section
/-! DEFINITION. The flags of STATUS, the word they make, CTRL's word, and the irq output (10 R17, R19, R36; 60 R122, R130). -/

namespace Sys2Proof.Machine

/-- The two bits of PHASE (10 R36). -/
def phaseBits : Phase → BitVec 2
  | .idle => 0#2
  | .freqDone => 1#2
  | .treeBuilt => 2#2
  | .tableReady => 3#2

/-- The four bits of ERRCODE (60 R122). -/
def errBits : ErrCode → BitVec 4
  | .none => 0#4
  | .illegalCmd => 1#4
  | .phaseErr => 2#4
  | .empty => 3#4
  | .range => 4#4
  | .noCode => 5#4
  | .length => 6#4
  | .trailing => 7#4

/-- `PHASE < TREE_BUILT` does not hold: a tree is built (10 R36, 40 R75). -/
def treeReady (p : Phase) : Bool := decide (2 ≤ (phaseBits p).toNat)

/-- STATUS.BUSY: 1 exactly when CUR is not none (10 R19). -/
def busy (s : State) : Bool := s.cur.isSome

/-- STATUS.ERR: 1 exactly when ERRCODE is not 0 (10 R19). -/
def errFlag (s : State) : Bool := decide (errBits s.errcode ≠ 0#4)

/-- The word STATUS reads as (10 R19). -/
def statusWord (s : State) : Word :=
  0#16 ++ s.lastcmd ++ errBits s.errcode ++ 0#2 ++ phaseBits s.phase ++ 0#1 ++ BitVec.ofBool (errFlag s) ++
    BitVec.ofBool s.done ++ BitVec.ofBool (busy s)

/-- The word CTRL reads as (10 R17). -/
def ctrlWord (s : State) : Word := 0#30 ++ BitVec.ofBool s.irqEn ++ BitVec.ofBool s.tsrc

/-- The irq output, a level (60 R130). -/
def irq (s : State) : Bool := s.irqEn && s.done

end Sys2Proof.Machine
end

