-- ==== Sys2Proof/Machine/Operands.lean ====
section
/-! DEFINITION. The words of the register space: their names, their addresses, their access and their layout
(20 R43 to R47; 30 R68 to R70), and the operands a command latches (30 R66). -/

namespace Sys2Proof.Machine

/-- A mapped word of the register space (20 R44). -/
inductive Reg where
  /-- ID -/
  | id
  /-- CTRL -/
  | ctrl
  /-- CMD -/
  | cmd
  /-- STATUS -/
  | status
  /-- IN_LEN -/
  | inLen
  /-- IN_CONSUMED -/
  | inConsumed
  /-- OUT_COUNT_LO -/
  | outCountLo
  /-- OUT_COUNT_HI -/
  | outCountHi
  /-- TOTAL -/
  | total
  /-- NSYM -/
  | nsym
  /-- NNODES -/
  | nnodes
  /-- ROOT -/
  | root
  /-- BITLEN_LO -/
  | bitlenLo
  /-- BITLEN_HI -/
  | bitlenHi
  /-- PAD -/
  | pad
  /-- TRAIL -/
  | trail
  /-- ROM_NNODES -/
  | romNnodes
  /-- ROM_ROOT -/
  | romRoot
  /-- FREQ[s] -/
  | freq (s : Fin 128)
  /-- LIST[i] word 0 -/
  | listW0 (i : Fin 128)
  /-- LIST[i] word 1 -/
  | listW1 (i : Fin 128)
  /-- NODE[n] word 0 -/
  | nodeW0 (n : Fin 255)
  /-- NODE[n] word 1 -/
  | nodeW1 (n : Fin 255)
  /-- CODE[s] word k -/
  | code (s : Fin 128) (k : Fin 5)
  /-- ROM[n] word 0 -/
  | romW0 (n : Fin 255)
  /-- ROM[n] word 1 -/
  | romW1 (n : Fin 255)
deriving DecidableEq, Repr

/-- The offset of a mapped word as a number (20 R44). -/
def regOffset : Reg → Nat
  | .id => 0x0000
  | .ctrl => 0x0004
  | .cmd => 0x0008
  | .status => 0x000C
  | .inLen => 0x0010
  | .inConsumed => 0x0014
  | .outCountLo => 0x0018
  | .outCountHi => 0x001C
  | .total => 0x0020
  | .nsym => 0x0024
  | .nnodes => 0x0028
  | .root => 0x002C
  | .bitlenLo => 0x0030
  | .bitlenHi => 0x0034
  | .pad => 0x0038
  | .trail => 0x003C
  | .romNnodes => 0x0040
  | .romRoot => 0x0044
  | .freq s => 0x0200 + 4 * s.val
  | .listW0 i => 0x0400 + 8 * i.val
  | .listW1 i => 0x0404 + 8 * i.val
  | .nodeW0 n => 0x0800 + 8 * n.val
  | .nodeW1 n => 0x0804 + 8 * n.val
  | .code s k => 0x1000 + 32 * s.val + 4 * k.val
  | .romW0 n => 0x2000 + 8 * n.val
  | .romW1 n => 0x2004 + 8 * n.val

/-- The address of a mapped word (20 R44). -/
def regAddr (r : Reg) : Addr := BitVec.ofNat 14 (regOffset r)

/-- The named registers, by word index (20 R44). -/
def controlReg : Nat → Option Reg
  | 0 => some .id
  | 1 => some .ctrl
  | 2 => some .cmd
  | 3 => some .status
  | 4 => some .inLen
  | 5 => some .inConsumed
  | 6 => some .outCountLo
  | 7 => some .outCountHi
  | 8 => some .total
  | 9 => some .nsym
  | 10 => some .nnodes
  | 11 => some .root
  | 12 => some .bitlenLo
  | 13 => some .bitlenHi
  | 14 => some .pad
  | 15 => some .trail
  | 16 => some .romNnodes
  | 17 => some .romRoot
  | _ => none

/-- The mapped word at a word-aligned offset; none where the map of 20 R44 has a reserved word. -/
def regAt (a : Nat) : Option Reg :=
  if a < 0x200 then controlReg (a / 4)
  else if h : a < 0x400 then some (.freq ⟨(a - 0x200) / 4, by omega⟩)
  else if h : a < 0x800 then
    if a % 8 = 0 then some (.listW0 ⟨(a - 0x400) / 8, by omega⟩) else some (.listW1 ⟨(a - 0x400) / 8, by omega⟩)
  else if h : a < 0xFF8 then
    if a % 8 = 0 then some (.nodeW0 ⟨(a - 0x800) / 8, by omega⟩) else some (.nodeW1 ⟨(a - 0x800) / 8, by omega⟩)
  else if a < 0x1000 then none
  else if h : a < 0x2000 then
    if hk : a % 32 / 4 < 5 then some (.code ⟨(a - 0x1000) / 32, by omega⟩ ⟨a % 32 / 4, hk⟩) else none
  else if h : a < 0x27F8 then
    if a % 8 = 0 then some (.romW0 ⟨(a - 0x2000) / 8, by omega⟩) else some (.romW1 ⟨(a - 0x2000) / 8, by omega⟩)
  else none

/-- The access letters of the map, as what a write may do (20 R44). -/
def writable : Reg → Bool
  | .ctrl | .cmd | .status | .inLen => true
  | _ => false

/-- The words whose reads are exact at all times (20 R50). -/
def exactWhileBusy : Reg → Bool
  | .id | .ctrl | .cmd | .status | .inLen | .romNnodes | .romRoot | .romW0 _ | .romW1 _ => true
  | _ => false

/-- A bus error's reason (20 R45). -/
inductive BusError where
  /-- SIZE_ALIGN -/
  | sizeAlign
  /-- RESERVED -/
  | reserved
  /-- READ_ONLY -/
  | readOnly
  /-- BUSY -/
  | busy
deriving DecidableEq, Repr

/-- The mapped word of a transaction, or the first of SIZE_ALIGN and RESERVED that applies (20 R43, R45). -/
def access (a : Addr) (n : AccessSize) : Except BusError Reg :=
  if n = .word ∧ a.toNat % 4 = 0 then
    match regAt a.toNat with
    | some r => .ok r
    | none => .error .reserved
  else .error .sizeAlign

/-- The mapped word of a write, or the first reason of 20 R45 that applies, in its order. -/
def writeAccess (a : Addr) (n : AccessSize) (s : State) : Except BusError Reg :=
  match access a n with
  | .error e => .error e
  | .ok r =>
    if writable r = false then .error .readOnly
    else if r = .cmd ∧ busy s = true then .error .busy
    else .ok r

/-- The constant of the ID register (10 R16). -/
def idValue : Word := 0x48554637#32

/-- Word 0 of a LIST entry (30 R68). -/
def listWord0 (e : ListEntry) : Word := BitVec.ofBool e.valid ++ 0#24 ++ e.sym

/-- Word 0 of a node record (30 R69). -/
def nodeWord0 (r : NodeRec) : Word :=
  BitVec.ofBool r.valid ++ BitVec.ofBool r.leaf ++ 0#7 ++ r.sym ++ r.right ++ r.left

/-- Word `k` of a CODE entry (30 R70). -/
def codeWord (e : CodeEntry) (k : Fin 5) : Word :=
  if k.val = 0 then BitVec.ofBool e.valid ++ 0#24 ++ e.len
  else (e.val.setWidth 128).extractLsb' (32 * (k.val - 1)) 32

/-- The current value of a mapped word, which a legal read answers (20 R47). -/
def readReg (r : Reg) (s : State) : Word :=
  match r with
  | .id => idValue
  | .ctrl => ctrlWord s
  | .cmd => 0#32
  | .status => statusWord s
  | .inLen => s.inLen
  | .inConsumed => s.inConsumed
  | .outCountLo => s.outCount.extractLsb' 0 32
  | .outCountHi => s.outCount.extractLsb' 32 32
  | .total => s.total
  | .nsym => s.nsym.setWidth 32
  | .nnodes => s.nnodes.setWidth 32
  | .root => s.root.setWidth 32
  | .bitlenLo => s.bitlen.extractLsb' 0 32
  | .bitlenHi => s.bitlen.extractLsb' 32 32
  | .pad => s.pad.setWidth 32
  | .trail => s.trail.setWidth 32
  | .romNnodes => s.rom.val.nnodes.setWidth 32
  | .romRoot => s.rom.val.root.setWidth 32
  | .freq i => s.freq[i.val]
  | .listW0 i => listWord0 s.list[i.val]
  | .listW1 i => s.list[i.val].count
  | .nodeW0 n => nodeWord0 s.node[n.val]
  | .nodeW1 n => s.node[n.val].weight
  | .code i k => codeWord s.code[i.val] k
  | .romW0 n => nodeWord0 s.rom.val.nodes[n.val]
  | .romW1 n => s.rom.val.nodes[n.val].weight

/-- Whether a command takes a frame (30 R66). -/
def takesFrame : Instr → Bool
  | .count | .encode | .decode => true
  | .clear | .buildTree | .buildTable => false

/-- The number of bytes a command latches as its frame at issue (30 R66, 40 R74). -/
def frameLength (i : Instr) (s : State) : Word := if takesFrame i then s.inLen else 0#32

/-- FREQ at a symbol (10 R31). -/
def freqAt (v : Vector Word 128) (x : Sym) : Word := v[x.toNat]

/-- CODE at a symbol (10 R34). -/
def codeAt (v : Vector CodeEntry 128) (x : Sym) : CodeEntry := v[x.toNat]

/-- The 128 symbols in ascending order (00 R10). -/
def symbols : List Sym := (List.range 128).map (BitVec.ofNat 7)

/-- The code of an entry as a bit string: bit `k` from the left is VAL[LEN-1-k] (30 R70, 44 R109). -/
def entryBits (e : CodeEntry) : BitString := bitsOf e.len.toNat e.val

/-- The entry that holds a code: LEN its length, VAL its value (10 R34). -/
def entryOf (c : BitString) : CodeEntry :=
  { valid := true, len := BitVec.ofNat 7 c.length, val := BitVec.ofNat 127 (val c) }

end Sys2Proof.Machine
end

