-- ==== Sys2Proof/Machine/Ops.lean ====
section
/-! DEFINITION. The operations every command shares: issue, core step, emission, errors, completion (the block's
stand-in for trap entry, 60 R131), the data-path clear and reset (40 R74 to R79, 60 R123, 70 R141). -/

namespace Sys2Proof.Machine

/-- `DatapathClear` (40 R79). -/
def datapathClear (s : State) : State :=
  { s with
    phase := .idle
    freq := Vector.replicate 128 0#32
    code := Vector.replicate 128 zeroCode
    list := Vector.replicate 128 zeroEntry
    node := Vector.replicate 255 zeroNode
    total := 0#32
    nsym := 0#8
    nnodes := 0#8
    root := 0#8
    bitlen := 0#64
    pad := 0#4 }

/-- `emit(b)` (40 R77). -/
def emit (s : State) (b : Byte) : State :=
  { s with outq := s.outq ++ [b], outCount := s.outCount + 1#64 }

/-- `emit` of each byte in order. -/
def emitAll (s : State) (bs : List Byte) : State := bs.foldl emit s

/-- `raise CmdError(e)`: the first error of the command wins (60 R123). -/
def cmdError (e : ErrCode) (c : Cur) : Cur := if c.err = .none then { c with err := e } else c

/-- The writes of an issue before its checks: LASTCMD, DONE, ERRCODE and the three issue counters (40 R74). -/
def beginIssue (op : BitVec 4) (s : State) : State :=
  { s with
    lastcmd := op
    done := false
    errcode := .none
    inConsumed := 0#32
    outCount := 0#64
    trail := 0#8 }

/-- A rejection at issue: the code and DONE, CUR stays none (40 R74, 60 R124). -/
def reject (e : ErrCode) (s : State) : State := { s with errcode := e, done := true }

/-- `IssueCheck` for a word that names a command: the first error in the order of 40 R75. -/
def issueCheck (i : Instr) (s : State) : ErrCode :=
  match i with
  | .clear => .none
  | .count => .none
  | .buildTree => if s.phase = .idle then .phaseErr else if s.total = 0#32 then .empty else .none
  | .buildTable => if treeReady s.phase then .none else .phaseErr
  | .encode => if s.phase = .tableReady then .none else .phaseErr
  | .decode => if s.tsrc && !treeReady s.phase then .phaseErr else .none

/-- The command record at issue, before Start (40 R74). -/
def newCur (i : Instr) (s : State) : Cur :=
  { op := i, rem := frameLength i s, err := .none, tsrc := s.tsrc, acc := [], first := true, wnode := 0#8, pend := 0#8 }

/-- `Issue(w)` for a word that names the command `i`, with its `Start` (40 R74). A stream command ends the time in which the
host may withdraw an abandoned frame (70 R143; log 21). -/
def issue (i : Instr) (start : Cur → State → Cur × State) (s : State) : State :=
  let s1 := beginIssue (opcode i) s
  match issueCheck i s1 with
  | .none =>
    let p := start (newCur i s1) s1
    { p.2 with cur := some p.1, abandoned := if takesFrame i then 0 else p.2.abandoned }
  | e => reject e s1

/-- `Issue(w)` for a word that names no command (40 R74, R75; 30 R65). -/
def issueIllegal (w : Word) (s : State) : State := reject .illegalCmd (beginIssue (opField w) s)

/-- `Complete()`: ERRCODE, DONE, and CUR becomes none (40 R78). -/
def complete (c : Cur) (s : State) : State := { s with errcode := c.err, done := true, cur := none }

/-- The outcome of a step whose pseudocode may have no meaning. -/
def settle (r : Except Fault State) : Host.Outcome State Fault Refusal :=
  match r with
  | .ok s => .next s
  | .error f => .fault f

/-- `take()` with the bookkeeping that every beat does first: the byte leaves INQ, CUR.rem and IN_CONSUMED count it (40 R76). -/
def takeBeat (c : Cur) (rest : List Byte) (s : State) : Cur × State :=
  ({ c with rem := c.rem - 1#32 }, { s with inq := rest, inConsumed := s.inConsumed + 1#32 })

/-- `CoreStep` of a command in progress, with its Beat and its Body (40 R76). With bytes to take and none offered no core
step is enabled, and the state stays as it is (60 R127; log 7). -/
def coreStep (beat : Byte → Cur → State → Except Fault (Cur × State)) (finish : Cur → State → Except Fault (Cur × State))
    (c : Cur) (s : State) : Host.Outcome State Fault Refusal :=
  if c.rem = 0#32 then
    settle ((finish c s).map fun p => complete p.1 p.2)
  else
    match s.inq with
    | [] => .next s
    | b :: rest =>
      let p := takeBeat c rest s
      settle ((beat b p.1 p.2).map fun q => { q.2 with cur := some q.1 })

/-- A command, from its parts: with no command in progress it is issued, with itself in progress it makes one core step
(40 R74, R76; log 2). With another command in progress nothing happens: the bus has refused the write (20 R49). -/
def command (i : Instr) (start : Cur → State → Cur × State) (beat : Byte → Cur → State → Except Fault (Cur × State))
    (finish : Cur → State → Except Fault (Cur × State)) (s : State) : Host.Outcome State Fault Refusal :=
  match s.cur with
  | none => .next (issue i start s)
  | some c => if c.op = i then coreStep beat finish c s else .next s

/-- A Start that does nothing beyond the issue (40 R74). -/
def noStart (c : Cur) (s : State) : Cur × State := (c, s)

/-- The Beat of a command that takes no frame: there is no beat (40 R76), and the record and the state stay. -/
def noBeat (_ : Byte) (c : Cur) (s : State) : Except Fault (Cur × State) := .ok (c, s)

/-- The bytes of a frame that the host may withdraw once rst_n has fallen: those a stream command in progress had still to take,
else those left from before (70 R143, R146 item 9; log 21). -/
def frameLeft (s : State) : Nat :=
  match s.cur with
  | none => s.abandoned
  | some c => if takesFrame c.op then c.rem.toNat else s.abandoned

/-- `Reset()`, as rst_n falls: every element at its reset value, the command in progress abandoned, OUTQ emptied; INQ is the
host's, the ROM a parameter (10 R40, 70 R141). The schedule, the bytes taken and the count of free values are the model's own
and stay, and an abandoned
frame is noted (logs 12, 13, 21). -/
def resetBlock (s : State) : State :=
  { State.reset with
    inq := s.inq, rom := s.rom, rstN := false, host := s.host, taken := s.taken, nFree := s.nFree,
    abandoned := frameLeft s }

end Sys2Proof.Machine
end

