-- ==== Sys2Proof/Machine/CodeTable.lean ====
section
/-! DEFINITION. BUILD_TABLE (43 R101 to R105). -/

namespace Sys2Proof.Machine

/-- The loop of `Traverse` on its explicit stack of (node index, path from the root) (43 R102). A strict binary tree in NODE has
at most 255 nodes, so `fuel` 255 suffices for it; a stack still full then is a loop that need not end (log 8). -/
def traverseLoop (t : Nodes) : Nat → List (NodeIx × BitString) → Vector CodeEntry 128 → Except Fault (Vector CodeEntry 128)
  | _, [], code => .ok code
  | 0, _ :: _, _ => .error .traversalDoesNotEnd
  | fuel + 1, (n, p) :: stack, code =>
    match nodeAt t n with
    | none => .error .noSuchNode
    | some r =>
      if r.leaf then
        if p.length ≤ 127 then traverseLoop t fuel stack (code.set r.sym.toNat (entryOf p))
        else .error .codeTooLong
      else traverseLoop t fuel ((r.left, p ++ [false]) :: (r.right, p ++ [true]) :: stack) code

/-- `Traverse(r)` into an empty table (43 R101, R102). -/
def traverse (t : Nodes) (r : NodeIx) : Except Fault (Vector CodeEntry 128) :=
  traverseLoop t 255 [(r, [])] (Vector.replicate 128 zeroCode)

/-- The sum over the symbols of FREQ[s] * CODE[s].LEN (43 R105). -/
def payloadLength (freq : Vector Word 128) (code : Vector CodeEntry 128) : Nat :=
  (symbols.map fun x => (freqAt freq x).toNat * (codeAt code x).len.toNat).sum

/-- The one core step of BUILD_TABLE (43 R101). -/
def buildTableBody (c : Cur) (s : State) : Except Fault (Cur × State) :=
  match traverse s.node s.root with
  | .error f => .error f
  | .ok code =>
    .ok (c, { s with
      code := code
      bitlen := BitVec.ofNat 64 (payloadLength s.freq code)
      pad := BitVec.ofNat 4 (padFor (payloadLength s.freq code))
      phase := .tableReady })

/-- BUILD_TABLE: the code table from the tree (43 R101). -/
def execBuildTable (s : State) : Host.Outcome State Fault Refusal :=
  command .buildTable noStart noBeat buildTableBody s

end Sys2Proof.Machine
end

