-- ==== Sys2Proof/Machine/Control.lean ====
section
/-! DEFINITION. CLEAR (40 R80). -/

namespace Sys2Proof.Machine

/-- The one core step of CLEAR (40 R80). -/
def clearBody (c : Cur) (s : State) : Except Fault (Cur × State) := .ok (c, datapathClear s)

/-- CLEAR: return the data path to its start (40 R80). -/
def execClear (s : State) : Host.Outcome State Fault Refusal := command .clear noStart noBeat clearBody s

end Sys2Proof.Machine
end

