-- ==== Sys2Proof/Machine/Frequency.lean ====
section
/-! DEFINITION. COUNT (41 R83 to R87). -/

namespace Sys2Proof.Machine

/-- The Start of COUNT (41 R84). -/
def countStart (c : Cur) (s : State) : Cur × State := (c, datapathClear s)

/-- `FREQ[b] <- FREQ[b] + 1; TOTAL <- TOTAL + 1` for the symbol `b` (41 R85). -/
def countSymbol (x : Sym) (s : State) : State :=
  { s with freq := s.freq.set x.toNat (freqAt s.freq x + 1#32), total := s.total + 1#32 }

/-- `CountBeat` (41 R85). -/
def countBeat (b : Byte) (c : Cur) (s : State) : Except Fault (Cur × State) :=
  if c.err ≠ .none then .ok (c, s)
  else if 128 ≤ b.toNat then .ok (cmdError .range c, s)
  else .ok (c, countSymbol (b.setWidth 7) s)

/-- `CountFinish` (41 R86). -/
def countFinish (c : Cur) (s : State) : Except Fault (Cur × State) :=
  if c.err = .none then .ok (c, { s with phase := .freqDone }) else .ok (c, s)

/-- COUNT: one frequency pass over a frame (41 R83). -/
def execCount (s : State) : Host.Outcome State Fault Refusal := command .count countStart countBeat countFinish s

end Sys2Proof.Machine
end

