-- ==== Sys2Proof/Machine/Pack.lean ====
section
/-! DEFINITION. ENCODE (44 R107 to R110). -/

namespace Sys2Proof.Machine

/-- `EncStart`: the prefix for PAD (44 R108; log 15 for PAD = 0). -/
def encodeStart (c : Cur) (s : State) : Cur × State := ({ c with acc := prefixFor s.pad.toNat }, s)

/-- The emission loop of 44 R109 and R110. -/
def packOut (c : Cur) (s : State) : Cur × State :=
  ({ c with acc := (packBytes c.acc).2 }, emitAll s (packBytes c.acc).1)

/-- An error of ENCODE drops the bits not yet emitted, the 8 bits of the prefix for PAD = 8 among them (44 R107, R109, R110;
log 19). -/
def encodeError (e : ErrCode) (c : Cur) : Cur := { cmdError e c with acc := [] }

/-- `EncBeat` (44 R109). -/
def encodeBeat (b : Byte) (c : Cur) (s : State) : Except Fault (Cur × State) :=
  if c.err ≠ .none then .ok (c, s)
  else if 128 ≤ b.toNat then .ok (encodeError .range c, s)
  else
    let e := codeAt s.code (b.setWidth 7)
    if e.valid then .ok (packOut { c with acc := c.acc ++ entryBits e } s)
    else .ok (encodeError .noCode c, s)

/-- `EncFinish` (44 R110). -/
def encodeFinish (c : Cur) (s : State) : Except Fault (Cur × State) :=
  if c.err = .none then
    let p := packOut c s
    if p.1.acc = [] then .ok p else .ok (encodeError .length p.1, p.2)
  else .ok (c, s)

/-- ENCODE: pack the codes of a frame into the encoded stream (44 R107). -/
def execEncode (s : State) : Host.Outcome State Fault Refusal := command .encode encodeStart encodeBeat encodeFinish s

end Sys2Proof.Machine
end

