-- ==== Sys2Proof/Machine/TreeBuilder.lean ====
section
/-! DEFINITION. BUILD_TREE (42 R89 to R97). -/

namespace Sys2Proof.Machine

/-- One entry for each symbol with a nonzero count, in symbol order (42 R90). -/
def countedEntries (freq : Vector Word 128) : List (Sym × Word) :=
  symbols.filterMap fun x => if freqAt freq x = 0#32 then none else some (x, freqAt freq x)

/-- The single-symbol injection: a second entry `((s0 + 1) mod 128, 0)` (42 R90). -/
def inject : List (Sym × Word) → List (Sym × Word)
  | [e] => [e, (e.1 + 1#7, 0#32)]
  | l => l

/-- Entry `e` comes before entry `e'`: by count, then by symbol (42 R91). -/
def entryBefore (e e' : Sym × Word) : Bool :=
  decide (e.2.toNat < e'.2.toNat) || (e.2 == e'.2 && decide (e.1.toNat < e'.1.toNat))

/-- `e` put into a sorted list (42 R91). -/
def insertEntry (e : Sym × Word) : List (Sym × Word) → List (Sym × Word)
  | [] => [e]
  | e' :: l => if entryBefore e e' then e :: e' :: l else e' :: insertEntry e l

/-- The list sorted by `entryBefore` (42 R91). -/
def sortEntries : List (Sym × Word) → List (Sym × Word)
  | [] => []
  | e :: l => insertEntry e (sortEntries l)

/-- The sorted frequency list, injection included (42 R90, R91). -/
def frequencyList (freq : Vector Word 128) : List (Sym × Word) := sortEntries (inject (countedEntries freq))

/-- LIST holding the sorted entries from index 0, all else zero (42 R89, R91). -/
def listOf (l : List (Sym × Word)) : Vector ListEntry 128 :=
  writeFrom (Vector.replicate 128 zeroEntry) 0 (l.map fun e => { valid := true, sym := e.1, count := e.2 })

/-- The leaf of an entry (42 R96 step 1). -/
def leafOf (e : Sym × Word) : NodeRec :=
  { valid := true, leaf := true, sym := e.1, left := 0#8, right := 0#8, weight := e.2 }

/-- The scratch state of the merge (10 R38), with the node array it fills. -/
structure MergeState where
  /-- NODE -/
  node : Nodes
  /-- sh, the head of the source queue NODE[sh..L-1] -/
  sh : Nat
  /-- TGT, the target queue of node indices -/
  tgt : List Nat
  /-- nxt, the next free node index -/
  nxt : Nat
deriving DecidableEq, Repr

/-- `NODE[n].WEIGHT`; every index the merge uses is an entry. -/
def weightAt (t : Nodes) (n : Nat) : Word := (t[n]?.getD zeroNode).weight

/-- `dq()` for a source queue of `l` leaves: the smaller head, the source on a tie; the other queue's head when one is
empty; none when both are (42 R94, D16). -/
def dq (l : Nat) (q : MergeState) : Option Nat × MergeState :=
  match q.tgt with
  | [] => if q.sh < l then (some q.sh, { q with sh := q.sh + 1 }) else (none, q)
  | t :: ts =>
    if q.sh < l then
      if (weightAt q.node q.sh).toNat ≤ (weightAt q.node t).toNat then (some q.sh, { q with sh := q.sh + 1 })
      else (some t, { q with tgt := ts })
    else (some t, { q with tgt := ts })

/-- The record that `Merge(a, b)` writes (42 R95). -/
def mergedNode (t : Nodes) (a b : Nat) : NodeRec :=
  { valid := true, leaf := false, sym := 0#7, left := BitVec.ofNat 8 a, right := BitVec.ofNat 8 b,
    weight := weightAt t a + weightAt t b }

/-- `Merge(a, b)` (42 R95). -/
def mergeNodes (a b : Nat) (q : MergeState) : MergeState :=
  { q with node := q.node.setIfInBounds q.nxt (mergedNode q.node a b), tgt := q.tgt ++ [q.nxt], nxt := q.nxt + 1 }

/-- Step 3 of 42 R96: while the source queue is not empty. Each turn takes a node of the queues away, so `fuel` turns suffice
when the queues hold no more than `fuel` nodes (log 16). -/
def drainSource (l : Nat) : Nat → MergeState → MergeState
  | 0, q => q
  | fuel + 1, q =>
    if q.sh < l then
      let p1 := dq l q
      let p2 := dq l p1.2
      match p1.1, p2.1 with
      | some a, some b => drainSource l fuel (mergeNodes a b p2.2)
      | some a, none => drainSource l fuel { p2.2 with tgt := p2.2.tgt ++ [a] }
      | none, _ => p2.2
    else q

/-- Step 4 of 42 R96: while the target queue holds more than one node (log 16). -/
def drainTarget : Nat → MergeState → MergeState
  | 0, q => q
  | fuel + 1, q =>
    match q.tgt with
    | a :: b :: ts => drainTarget fuel (mergeNodes a b { q with tgt := ts })
    | _ => q

/-- Steps 1 and 2 of 42 R96: the leaves in list order, an empty target queue. -/
def mergeStart (l : List (Sym × Word)) : MergeState :=
  { node := writeFrom (Vector.replicate 255 zeroNode) 0 (l.map leafOf), sh := 0, tgt := [], nxt := l.length }

/-- Steps 1 to 4 of 42 R96. -/
def twoQueue (l : List (Sym × Word)) : MergeState :=
  drainTarget l.length (drainSource l.length l.length (mergeStart l))

/-- The one core step of BUILD_TREE (42 R89), with step 5 of 42 R96. -/
def buildTreeBody (c : Cur) (s : State) : Except Fault (Cur × State) :=
  let l := frequencyList s.freq
  let q := twoQueue l
  match q.tgt with
  | [r] =>
    .ok (c, { s with
      list := listOf l
      node := q.node
      code := Vector.replicate 128 zeroCode
      nsym := BitVec.ofNat 8 l.length
      nnodes := BitVec.ofNat 8 q.nxt
      root := BitVec.ofNat 8 r
      bitlen := 0#64
      pad := 0#4
      phase := .treeBuilt })
  | _ => .error .noRoot

/-- BUILD_TREE: the sorted list and the Huffman tree from the counts (42 R89). -/
def execBuildTree (s : State) : Host.Outcome State Fault Refusal :=
  command .buildTree noStart noBeat buildTreeBody s

end Sys2Proof.Machine
end

