-- ==== Sys2Proof/Machine/Walk.lean ====
section
/-! DEFINITION. DECODE (45 R113, R115 to R120). -/

namespace Sys2Proof.Machine

/-- The node records that the latched tree source selects (45 R115). -/
def treeNodes (src : Bool) (s : State) : Nodes := if src then s.node else s.rom.val.nodes

/-- R, the root of the selected tree (45 R115). -/
def treeRoot (src : Bool) (s : State) : NodeIx := if src then s.root else s.rom.val.root

/-- The Start of DECODE (45 R116). -/
def decodeStart (c : Cur) (s : State) : Cur × State :=
  ({ c with wnode := treeRoot c.tsrc s, first := true, pend := 0#8 }, s)

/-- `WalkBit(x)` (45 R118). -/
def walkBit (x : Bool) (c : Cur) (s : State) : Except Fault (Cur × State) :=
  match nodeAt (treeNodes c.tsrc s) c.wnode with
  | none => .error .noSuchNode
  | some r =>
    let n := if x then r.right else r.left
    match nodeAt (treeNodes c.tsrc s) n with
    | none => .error .noSuchNode
    | some r' =>
      if r'.leaf then .ok ({ c with wnode := treeRoot c.tsrc s, pend := 0#8 }, emit s (r'.sym.setWidth 8))
      else .ok ({ c with wnode := n, pend := c.pend + 1#8 }, s)

/-- `WalkBit` on each bit in order (45 R119). -/
def walkBits : BitString → Cur → State → Except Fault (Cur × State)
  | [], c, s => .ok (c, s)
  | x :: xs, c, s =>
    match walkBit x c s with
    | .error f => .error f
    | .ok p => walkBits xs p.1 p.2

/-- The beat of DECODE (45 R117, R119). -/
def decodeBeat (b : Byte) (c : Cur) (s : State) : Except Fault (Cur × State) :=
  walkBits (payloadBits c.first b) { c with first := false } s

/-- `DecFinish` (45 R120). -/
def decodeFinish (c : Cur) (s : State) : Except Fault (Cur × State) :=
  .ok (if c.pend = 0#8 then c else cmdError .trailing c, { s with trail := c.pend })

/-- DECODE: unpack an encoded frame and walk the tree (45 R113). -/
def execDecode (s : State) : Host.Outcome State Fault Refusal := command .decode decodeStart decodeBeat decodeFinish s

end Sys2Proof.Machine
end

