-- ==== Sys2Proof/Machine/Dispatch.lean ====
section
/-! DEFINITION. One arm per command. `exec i s` is the next indivisible move of the command `i` at `s`: its issue when no
command is in progress, its next core step when it is in progress itself (40 R74, R76; log 2). -/

namespace Sys2Proof.Machine

def exec (i : Instr) (s : State) : Host.Outcome State Fault Refusal :=
  match i with
  | .clear => Sys2Proof.Machine.execClear s
  | .count => Sys2Proof.Machine.execCount s
  | .buildTree => Sys2Proof.Machine.execBuildTree s
  | .buildTable => Sys2Proof.Machine.execBuildTable s
  | .encode => Sys2Proof.Machine.execEncode s
  | .decode => Sys2Proof.Machine.execDecode s

end Sys2Proof.Machine
end

