-- ==== Sys2Proof/Machine/Bus.lean ====
section
/-! DEFINITION. The register bus, the streams at the host's side, rst_n, and the turn of the core (20 R42 to R56; 40 R74, R76;
70 R141, R142). -/

namespace Sys2Proof.Machine

/-- `Issue(w)` of a write to CMD that the bus accepted (40 R74). -/
def issueWord (w : Word) (s : State) : Host.Outcome State Fault Refusal :=
  match decode w with
  | .ok i => exec i s
  | .error _ => .next (issueIllegal w s)

/-- The effect of a legal write on the register it names (20 R48). -/
def writeReg (r : Reg) (v : Word) (s : State) : Host.Outcome State Fault Refusal :=
  match r with
  | .ctrl => .next { s with tsrc := v.getLsbD 0, irqEn := v.getLsbD 1 }
  | .status => .next (if v.getLsbD 1 then { s with done := false } else s)
  | .inLen => .next { s with inLen := v }
  | .cmd => issueWord v s
  | _ => .next s

/-- `MemRead(a, n)`: exact, unspecified while a command is in progress for the words 20 R50 names, or SLVERR with data 0
(20 R45, R47, R50). -/
def busRead (a : Addr) (n : AccessSize) (s : State) : State :=
  match access a n with
  | .error _ => { s with answer := some (.read .slverr 0#32) }
  | .ok r =>
    if busy s && !exactWhileBusy r then
      { s with answer := some (.read .okay (Config.freeWord s.nFree)), nFree := s.nFree + 1 }
    else { s with answer := some (.read .okay (readReg r s)) }

/-- `MemWrite(a, n, v)`: the effect of 20 R48, or SLVERR and no other effect (20 R45, R49). -/
def busWrite (a : Addr) (n : AccessSize) (v : Word) (s : State) : Host.Outcome State Fault Refusal :=
  match writeAccess a n s with
  | .error _ => .next { s with answer := some (.wrote .slverr) }
  | .ok r => writeReg r v { s with answer := some (.wrote .okay) }

/-- The host takes the oldest output byte; none moves while OUTQ is empty (20 R55; log 17). -/
def takeByte (s : State) : State :=
  match s.outq with
  | [] => s
  | b :: rest => { s with outq := rest, taken := s.taken ++ [b] }

/-- The host withdraws the oldest offered byte of an abandoned frame; none moves while none is offered (70 R143, R146 item 9;
log 21). -/
def withdrawByte (s : State) : State :=
  match s.inq with
  | [] => s
  | _ :: rest => { s with inq := rest, abandoned := s.abandoned - 1 }

/-- The core sequencer's turn: a core step of the command in progress; idle, or with rst_n low, nothing happens
(40 R76, 70 R142, R144). -/
def coreTurn (s : State) : Host.Outcome State Fault Refusal :=
  match s.cur with
  | none => .next s
  | some c => if s.rstN then exec c.op s else .next s

/-- One move of the schedule (20 R56, 70 R142, R143; log 12 for a transaction while rst_n is low, log 21 for a withdrawal). -/
def hostMove (m : HostMove) (s : State) : Host.Outcome State Fault Refusal :=
  match m with
  | .read a n => if s.rstN then .next (busRead a n s) else .refused .transactionInReset
  | .write a n v => if s.rstN then busWrite a n v s else .refused .transactionInReset
  | .offer b => .next { s with inq := s.inq ++ [b] }
  | .take => .next (takeByte s)
  | .withdraw => if s.abandoned = 0 then .refused .withdrawOutsideFrame else .next (withdrawByte s)
  | .rstFall => .next (resetBlock s)
  | .rstRise => .next { s with rstN := true }
  | .core => coreTurn s

/-- The next indivisible step: the next move of the schedule, or the core's turn when the schedule is empty (20 R52, R57; log 1). -/
def nextMove (s : State) : Host.Outcome State Fault Refusal :=
  match s.host with
  | [] => coreTurn s
  | m :: rest => hostMove m { s with host := rest }

end Sys2Proof.Machine
end

