-- ==== Sys2Proof/Machine/Step.lean ====
section
/-! DEFINITION. One step of the machine, and the placing of a command word before it. -/

namespace Sys2Proof.Machine

/-- One step (20 R57). -/
def step (s : State) : Host.Outcome State Fault Refusal := nextMove s

/-- `s` with a write of the command word to CMD as the very next move, rst_n high and no command in progress, so that the bus
accepts it (20 R48, R49; log 3). The bits of `w` from `nbits` up are 0. -/
def State.withFetchWord (s : State) (nbits w : Nat) : State :=
  { s with
    host := .write 0x0008#14 .word (BitVec.ofNat 32 (w % 2 ^ nbits)) :: s.host
    rstN := true
    cur := none }

end Sys2Proof.Machine
end

