-- ==== Sys2Proof/Safety.lean ====
section
/-! DEFINITION. What counts as a safe run, in the terms the claims use: paths in a tree, the encoded stream as a whole,
runs of steps, the host scripts of 70 R145, and the invariants of the machine. -/

namespace Sys2Proof.Machine

/-! ### Trees -/

/-- The node that a path leads to from `n` through internal nodes, edge 0 left and edge 1 right (45 R118). -/
def descend (t : Nodes) : NodeIx → BitString → Option NodeIx
  | n, [] => some n
  | n, x :: p =>
    match nodeAt t n with
    | none => none
    | some r => if r.leaf then none else descend t (if x then r.right else r.left) p

/-- The path `p` leads from `root` to a leaf with the symbol `x`. -/
def LeafPath (t : Nodes) (root : NodeIx) (p : BitString) (x : Sym) : Prop :=
  ∃ n r, descend t root p = some n ∧ nodeAt t n = some r ∧ r.leaf = true ∧ r.sym = x

/-- No symbol stands at two leaves. -/
def DistinctLeaves (t : Nodes) (root : NodeIx) : Prop :=
  ∀ p q x, LeafPath t root p x → LeafPath t root q x → p = q

/-- Conditions 1 to 4 of WF_ROM as 45 R114 words them: reachable nodes are valid records below `nn`, leaves have no
children, and no node is reached along two paths. -/
structure StrictTree (t : Nodes) (nn root : NodeIx) : Prop where
  size : 3 ≤ nn.toNat
  rootBelow : root.toNat < nn.toNat
  rootNode : ∃ r, nodeAt t root = some r ∧ r.valid = true ∧ r.leaf = false
  nodes : ∀ p n, descend t root p = some n → n.toNat < nn.toNat ∧
    ∃ r, nodeAt t n = some r ∧ r.valid = true ∧ (r.leaf = true → r.left = 0#8 ∧ r.right = 0#8)
  onePath : ∀ p q n, descend t root p = some n → descend t root q = some n → p = q

/-- The record at an index, the zero record at 255. -/
def recAt (t : Nodes) (n : NodeIx) : NodeRec := (nodeAt t n).getD zeroNode

/-- The `j`-th node that the merge of `l` leaves takes from its queues, read off the tree: merge `k` makes node `l + k`, whose LEFT
it took first and whose RIGHT second (42 R93, R95). -/
def popped (t : Nodes) (l j : Nat) : Nat :=
  if j % 2 = 0 then (recAt t (BitVec.ofNat 8 (l + j / 2))).left.toNat else (recAt t (BitVec.ofNat 8 (l + j / 2))).right.toNat

/-- How many of the first `j` nodes taken are leaves: the head of the source queue then (42 R94). -/
def leavesPopped (t : Nodes) (l j : Nat) : Nat := ((List.range j).filter fun i => decide (popped t l i < l)).length

/-- The node that the merge of `l` leaves takes next, when it has taken `j` nodes, `sh` of them leaves: the source head `sh`
if there is one and the target queue is empty or its head is no lighter, else the target head. Nodes enter the target
queue in the order they are made, two takings each, so its head is `l + (j - sh)` (42 R94 to R96). -/
def nextPopped (t : Nodes) (l j sh : Nat) : Nat :=
  if sh < l ∧ (j / 2 ≤ j - sh ∨ (weightAt t sh).toNat ≤ (weightAt t (l + (j - sh))).toNat) then sh else l + (j - sh)

/-- The child of a node along edge `x`, 0 left and 1 right (45 R118). -/
def childOf (t : Nodes) (n : NodeIx) (x : Bool) : NodeIx := if x then (recAt t n).right else (recAt t n).left

/-- The walk of 45 R118 as a function: from node `n` at depth `k`, the bytes emitted, the node and the depth left. -/
def walk (t : Nodes) (root : NodeIx) : NodeIx → Nat → BitString → List Byte × NodeIx × Nat
  | n, k, [] => ([], n, k)
  | n, k, x :: xs =>
    if (recAt t (childOf t n x)).leaf then
      ((recAt t (childOf t n x)).sym.setWidth 8 :: (walk t root root 0 xs).1, (walk t root root 0 xs).2)
    else walk t root (childOf t n x) (k + 1) xs

/-- `n` is an internal node that a path of `k` bits reaches (45 R118: CUR.wnode before a bit). -/
def InternalAt (t : Nodes) (root n : NodeIx) (k : Nat) : Prop :=
  ∃ p r, descend t root p = some n ∧ p.length = k ∧ nodeAt t n = some r ∧ r.leaf = false

/-! ### The encoded stream -/

/-- `Stream(S)` (30 R71). -/
def stream (bits : BitString) : List Byte := (packBytes (prefixFor (padFor bits.length) ++ bits)).1

/-- The payload of a whole frame: the first byte through its sentinel dropped, all of every later byte (45 R117). -/
def unpack : List Byte → BitString
  | [] => []
  | b :: bs => payloadBits true b ++ bs.flatMap (bitsOf 8)

/-- The code of a frame byte below 128 (44 R109). -/
def codeOf (code : Vector CodeEntry 128) (b : Byte) : BitString := entryBits (codeAt code (b.setWidth 7))

/-- A frame byte that ENCODE can pack: below 128, with a valid code (44 R109). -/
def packable (code : Vector CodeEntry 128) (b : Byte) : Bool :=
  decide (b.toNat < 128) && (codeAt code (b.setWidth 7)).valid

/-- The stream error of the first byte of a frame that ENCODE cannot pack, if there is one (44 R109). -/
def packError (code : Vector CodeEntry 128) (frame : List Byte) : ErrCode :=
  match frame.find? fun b => !packable code b with
  | none => .none
  | some b => if 128 ≤ b.toNat then .range else .noCode

/-! ### Runs -/

/-- `k` steps, stopping at the first fault or refusal. -/
def turns : Nat → State → Host.Outcome State Fault Refusal
  | 0, s => .next s
  | k + 1, s =>
    match step s with
    | .next t => turns k t
    | .fault f => .fault f
    | .refused r => .refused r

/-- The issue of a command, then `k` steps. -/
def runCommand (i : Instr) (k : Nat) (s : State) : Host.Outcome State Fault Refusal :=
  match exec i s with
  | .next t => turns k t
  | .fault f => .fault f
  | .refused r => .refused r

/-- Ready for a command: nothing in progress, rst_n high, no move of the host to come. -/
structure Ready (s : State) : Prop where
  idle : s.cur = none
  high : s.rstN = true
  quiet : s.host = []

/-- `FRAME` (30 R73): IN_LEN written, the bytes offered. -/
def frameScript (frame : List Byte) : List HostMove :=
  .write 0x0010#14 .word (BitVec.ofNat 32 frame.length) :: frame.map .offer

/-- `RUN` (30 R73) of a command with a frame of `n` bytes: the CMD write, then `n + 1` turns of the core. -/
def commandScript (i : Instr) (n : Nat) : List HostMove :=
  .write 0x0008#14 .word (encode i) :: List.replicate (n + 1) .core

/-- The host's part of encoding a frame (70 R145 item 3). -/
def encodeScript (frame : List Byte) : List HostMove :=
  frameScript frame ++ commandScript .count frame.length ++ commandScript .buildTree 0 ++ commandScript .buildTable 0 ++
    frameScript frame ++ commandScript .encode frame.length

/-- The host's part of decoding a frame with the tree that `src` selects, true for NODE (70 R145 item 4). -/
def decodeScript (src : Bool) (frame : List Byte) : List HostMove :=
  .write 0x0004#14 .word (if src then 1#32 else 0#32) :: (frameScript frame ++ commandScript .decode frame.length)

/-! ### States the claims name -/

/-- `s` after a rejection at issue (60 R124). -/
def rejected (s : State) (op : BitVec 4) (e : ErrCode) : State :=
  { s with lastcmd := op, errcode := e, done := true, inConsumed := 0#32, outCount := 0#64, trail := 0#8 }

/-- `s` with what an accepted issue writes outside the data path, and the record of the command (40 R74; log 21 for the last
field). -/
def issued (s : State) (i : Instr) (c : Cur) : State :=
  { s with
    lastcmd := opcode i, errcode := .none, done := false, inConsumed := 0#32, outCount := 0#64, trail := 0#8,
    cur := some c, abandoned := if takesFrame i then 0 else s.abandoned }

/-- The record of a command at issue, before its Start: `rem` bytes to take (40 R74). -/
def freshCur (s : State) (i : Instr) (rem : Word) : Cur :=
  { op := i, rem := rem, err := .none, tsrc := s.tsrc, acc := [], first := true, wnode := 0#8, pend := 0#8 }

/-- `s` after a beat has taken a byte, `rest` being left and `c` the record of the command (40 R76). -/
def tookByte (s : State) (rest : List Byte) (c : Cur) : State :=
  { s with inq := rest, inConsumed := s.inConsumed + 1#32, cur := some c }

/-- `s` after the completion of a command with the error `e` (40 R78). -/
def completed (s : State) (e : ErrCode) : State := { s with errcode := e, done := true, cur := none }

/-- `c` is in progress at `s` as the command `i`, all its bytes taken. -/
structure AtEnd (s : State) (c : Cur) (i : Instr) : Prop where
  running : s.cur = some c
  op : c.op = i
  rem : c.rem = 0#32

/-- `c` is in progress at `s` as the command `i`, with a byte to take and `b` the oldest one offered. -/
structure AtByte (s : State) (c : Cur) (i : Instr) (b : Byte) (rest : List Byte) : Prop where
  running : s.cur = some c
  op : c.op = i
  rem : c.rem ≠ 0#32
  offered : s.inq = b :: rest

/-! ### Invariants -/

/-- STATUS while a command runs: DONE and ERRCODE read 0, LASTCMD names the command (10 R19, 60 R123, R133). -/
structure StatusInv (s : State) : Prop where
  quiet : ∀ c, s.cur = some c → s.done = false ∧ s.errcode = .none
  named : ∀ c, s.cur = some c → s.lastcmd = opcode c.op

/-- The counters: FREQ sums to TOTAL, and no counter can overflow (10 R21, R23, R31; 41 R87); while a stream command runs no
abandoned frame is left to withdraw (log 21). -/
structure CounterInv (s : State) : Prop where
  sum : (symbols.map fun x => (freqAt s.freq x).toNat).sum = s.total.toNat
  room : ∀ c, s.cur = some c → s.inConsumed.toNat + c.rem.toNat < 2 ^ 32
  frameless : ∀ c, s.cur = some c → takesFrame c.op = false → c.rem = 0#32
  counted : ∀ c, s.cur = some c → c.op = .count → s.total.toNat ≤ s.inConsumed.toNat
  framed : ∀ c, s.cur = some c → takesFrame c.op = true → s.abandoned = 0

/-- The output: the accumulator holds at most 8 bits between steps, and OUT_COUNT cannot overflow (10 R22, R28; 44 R109). -/
structure OutputInv (s : State) : Prop where
  pad : s.pad.toNat ≤ 8
  held : ∀ c, s.cur = some c → c.acc.length ≤ 8
  running : ∀ c, s.cur = some c → s.outCount.toNat ≤ 16 * s.inConsumed.toNat
  bound : s.outCount.toNat ≤ 16 * s.inConsumed.toNat + 1

/-- What the phase says of the data path (10 R24 to R36; 40 R75, R81; 45 R118). -/
structure PhaseInv (s : State) : Prop where
  unbuilt : treeReady s.phase = false → s.nsym = 0#8 ∧ s.nnodes = 0#8 ∧ s.root = 0#8 ∧
    s.list = Vector.replicate 128 zeroEntry ∧ s.node = Vector.replicate 255 zeroNode
  built : treeReady s.phase = true → s.total ≠ 0#32 ∧ s.nnodes.toNat + 1 = 2 * s.nsym.toNat ∧
    wfTree s.node s.nnodes s.root = true ∧ DistinctLeaves s.node s.root
  untabled : s.phase ≠ .tableReady →
    s.code = Vector.replicate 128 zeroCode ∧ s.bitlen = 0#64 ∧ s.pad = 0#4
  tabled : s.phase = .tableReady → traverse s.node s.root = .ok s.code ∧
    s.bitlen = BitVec.ofNat 64 (payloadLength s.freq s.code) ∧
    s.pad = BitVec.ofNat 4 (padFor (payloadLength s.freq s.code))
  allowed : ∀ c, s.cur = some c →
    match c.op with
    | .clear => True
    | .count => s.phase = .idle
    | .buildTree => s.phase ≠ .idle ∧ s.total ≠ 0#32
    | .buildTable => treeReady s.phase = true
    | .encode => s.phase = .tableReady
    | .decode => c.tsrc = true → treeReady s.phase = true
  walker : ∀ c, s.cur = some c → c.op = .decode →
    InternalAt (treeNodes c.tsrc s) (treeRoot c.tsrc s) c.wnode c.pend.toNat

/-- While rst_n is low every element the block owns is at its reset value (70 R141, R142). -/
def ResetInv (s : State) : Prop := s.rstN = false → s = resetBlock s

/-- The invariant of the machine. -/
structure Inv (s : State) : Prop where
  status : StatusInv s
  counters : CounterInv s
  output : OutputInv s
  phase : PhaseInv s
  reset : ResetInv s

end Sys2Proof.Machine
end

