-- ==== Sys2Proof/Certificates/Slice0/Obligations.lean ====
section
/-! DEFINITION. The statements about the machine, each from a numbered rule of the spec. -/

open Sys2Proof Sys2Proof.Machine

/-! ### Command words and the register map -/

/-- 30 R64: every row of the opcode map, the illegal rows included. -/
def Obligations.OpcodeMapDecodes : Prop :=
  decode 0x00000001#32 = .ok .clear ∧ decode 0x00000002#32 = .ok .count ∧ decode 0x00000003#32 = .ok .buildTree ∧
  decode 0x00000004#32 = .ok .buildTable ∧ decode 0x00000005#32 = .ok .encode ∧ decode 0x00000006#32 = .ok .decode ∧
  decode 0x00000000#32 = .error .unnamedOpcode ∧
  ∀ op : BitVec 4, 7 ≤ op.toNat → decode (0#28 ++ op) = .error .unnamedOpcode

/-- 30 R63 to R66: decoding the word of a command gives the command, and a word that decodes to a command is its word. -/
def Obligations.CommandWordsRoundTrip : Prop :=
  (∀ i : Instr, i.wellFormed = true ∧ decode (encode i) = .ok i) ∧
  ∀ (w : Word) (i : Instr), decode w = .ok i → encode i = w

/-- 30 R65: the decoder is total, and an illegal word changes only the STATUS fields and the issue counters. -/
def Obligations.EveryWordIsACommandOrIllegal : Prop :=
  (∀ w : Word, rsvField w = 0#28 → 1 ≤ (opField w).toNat → (opField w).toNat ≤ 6 →
    ∃ i, decode w = .ok i ∧ opcode i = opField w) ∧
  (∀ w : Word, rsvField w = 0#28 → ¬(1 ≤ (opField w).toNat ∧ (opField w).toNat ≤ 6) →
    decode w = .error .unnamedOpcode) ∧
  (∀ w : Word, rsvField w ≠ 0#28 → decode w = .error .reservedBits) ∧
  ∀ (s : State) (w : Word) (e : DecodeError) (rest : List HostMove),
    s.rstN = true → s.cur = none → s.host = .write 0x0008#14 .word w :: rest → decode w = .error e →
    step s = .next (rejected { s with host := rest, answer := some (.wrote .okay) } (opField w) .illegalCmd)

/-- 20 R44: the offset of every mapped word; each mapped word has one word-aligned address, each address at most one word, and
the ranges the map lists as reserved hold none. -/
def Obligations.RegisterMapRoundTrip : Prop :=
  (regOffset .id = 0x0000 ∧ regOffset .ctrl = 0x0004 ∧ regOffset .cmd = 0x0008 ∧ regOffset .status = 0x000C ∧
    regOffset .inLen = 0x0010 ∧ regOffset .inConsumed = 0x0014 ∧ regOffset .outCountLo = 0x0018 ∧
    regOffset .outCountHi = 0x001C ∧ regOffset .total = 0x0020 ∧ regOffset .nsym = 0x0024 ∧
    regOffset .nnodes = 0x0028 ∧ regOffset .root = 0x002C ∧ regOffset .bitlenLo = 0x0030 ∧
    regOffset .bitlenHi = 0x0034 ∧ regOffset .pad = 0x0038 ∧ regOffset .trail = 0x003C ∧
    regOffset .romNnodes = 0x0040 ∧ regOffset .romRoot = 0x0044) ∧
  (∀ x : Fin 128, regOffset (.freq x) = 0x0200 + 4 * x.val ∧
    regOffset (.listW0 x) = 0x0400 + 8 * x.val ∧ regOffset (.listW1 x) = 0x0404 + 8 * x.val ∧
    ∀ k : Fin 5, regOffset (.code x k) = 0x1000 + 32 * x.val + 4 * k.val) ∧
  (∀ n : Fin 255, regOffset (.nodeW0 n) = 0x0800 + 8 * n.val ∧ regOffset (.nodeW1 n) = 0x0804 + 8 * n.val ∧
    regOffset (.romW0 n) = 0x2000 + 8 * n.val ∧ regOffset (.romW1 n) = 0x2004 + 8 * n.val) ∧
  (∀ r : Reg, regOffset r % 4 = 0 ∧ regOffset r < 2 ^ 14 ∧ regAt (regOffset r) = some r) ∧
  (∀ (a : Nat) (r : Reg), a % 4 = 0 → regAt a = some r → regOffset r = a) ∧
  ∀ a : Nat, a % 4 = 0 →
    ((0x48 ≤ a ∧ a < 0x200) ∨ a = 0xFF8 ∨ a = 0xFFC ∨ (0x1000 ≤ a ∧ a < 0x2000 ∧ 5 ≤ a % 32 / 4) ∨
      (0x27F8 ≤ a ∧ a < 2 ^ 14)) → regAt a = none

/-- 30 R69: the node record words of the NODE and ROM windows. -/
def Obligations.NodeRecordWords : Prop :=
  ∀ (s : State) (n : Fin 255),
    let w (r : NodeRec) := r.valid.toNat * 2 ^ 31 + r.leaf.toNat * 2 ^ 30 + r.sym.toNat * 2 ^ 16 +
      r.right.toNat * 2 ^ 8 + r.left.toNat
    (readReg (.nodeW0 n) s).toNat = w s.node[n.val] ∧ readReg (.nodeW1 n) s = s.node[n.val].weight ∧
    (readReg (.romW0 n) s).toNat = w s.rom.val.nodes[n.val] ∧ readReg (.romW1 n) s = s.rom.val.nodes[n.val].weight ∧
    regOffset (.nodeW0 n) = 0x0800 + 8 * n.val ∧ regOffset (.nodeW1 n) = 0x0804 + 8 * n.val ∧
    regOffset (.romW0 n) = 0x2000 + 8 * n.val ∧ regOffset (.romW1 n) = 0x2004 + 8 * n.val

/-- 30 R68 and R70: the words of the LIST and CODE windows, and the bit string of a CODE entry. -/
def Obligations.ListAndCodeWords : Prop :=
  ∀ (s : State) (x : Fin 128),
    (readReg (.listW0 x) s).toNat = s.list[x.val].valid.toNat * 2 ^ 31 + s.list[x.val].sym.toNat ∧
    readReg (.listW1 x) s = s.list[x.val].count ∧
    regOffset (.listW0 x) = 0x0400 + 8 * x.val ∧ regOffset (.listW1 x) = 0x0404 + 8 * x.val ∧
    (∀ k : Fin 5, regOffset (.code x k) = 0x1000 + 32 * x.val + 4 * k.val) ∧
    (readReg (.code x 0) s).toNat = s.code[x.val].valid.toNat * 2 ^ 31 + s.code[x.val].len.toNat ∧
    (∀ (k : Fin 5) (j : Nat), 1 ≤ k.val → j < 32 →
      (readReg (.code x k) s).getLsbD j = s.code[x.val].val.getLsbD (32 * (k.val - 1) + j)) ∧
    (entryBits s.code[x.val]).length = s.code[x.val].len.toNat ∧
    ∀ k : Nat, k < s.code[x.val].len.toNat →
      (entryBits s.code[x.val])[k]? = some (s.code[x.val].val.getLsbD (s.code[x.val].len.toNat - 1 - k))

/-- 10 R17, R19 to R31, R36; 20 R46, R53; 60 R122: the four codes of PHASE and the eight of ERRCODE, the fields of the word
STATUS reads as, the two words of a 64-bit result, and the word of every other register: its value, reserved bits 0. -/
def Obligations.StatusAndWideWords : Prop :=
  (phaseBits .idle = 0#2 ∧ phaseBits .freqDone = 1#2 ∧ phaseBits .treeBuilt = 2#2 ∧ phaseBits .tableReady = 3#2) ∧
  (errBits .none = 0#4 ∧ errBits .illegalCmd = 1#4 ∧ errBits .phaseErr = 2#4 ∧ errBits .empty = 3#4 ∧
    errBits .range = 4#4 ∧ errBits .noCode = 5#4 ∧ errBits .length = 6#4 ∧ errBits .trailing = 7#4) ∧
  (∀ s : State,
    (readReg .ctrl s).toNat = s.tsrc.toNat + 2 * s.irqEn.toNat ∧ readReg .cmd s = 0#32 ∧
    readReg .inLen s = s.inLen ∧ readReg .inConsumed s = s.inConsumed ∧ readReg .total s = s.total ∧
    (readReg .nsym s).toNat = s.nsym.toNat ∧ (readReg .nnodes s).toNat = s.nnodes.toNat ∧
    (readReg .root s).toNat = s.root.toNat ∧ (readReg .pad s).toNat = s.pad.toNat ∧
    (readReg .trail s).toNat = s.trail.toNat ∧ (readReg .romNnodes s).toNat = s.rom.val.nnodes.toNat ∧
    (readReg .romRoot s).toNat = s.rom.val.root.toNat ∧ ∀ x : Fin 128, readReg (.freq x) s = s.freq[x.val]) ∧
  ∀ s : State,
    (statusWord s).getLsbD 0 = s.cur.isSome ∧ (statusWord s).getLsbD 1 = s.done ∧
    (statusWord s).getLsbD 2 = decide (s.errcode ≠ .none) ∧ (statusWord s).getLsbD 3 = false ∧
    (statusWord s).extractLsb' 4 2 = phaseBits s.phase ∧ (statusWord s).extractLsb' 6 2 = 0#2 ∧
    (statusWord s).extractLsb' 8 4 = errBits s.errcode ∧ (statusWord s).extractLsb' 12 4 = s.lastcmd ∧
    (statusWord s).extractLsb' 16 16 = 0#16 ∧ readReg .status s = statusWord s ∧
    (readReg .outCountHi s).toNat * 2 ^ 32 + (readReg .outCountLo s).toNat = s.outCount.toNat ∧
    (readReg .bitlenHi s).toNat * 2 ^ 32 + (readReg .bitlenLo s).toNat = s.bitlen.toNat ∧
    regOffset .outCountLo + 4 = regOffset .outCountHi ∧ regOffset .bitlenLo + 4 = regOffset .bitlenHi

/-! ### Steps -/

/-- 40 R74: a step whose move is an accepted write of a command's word to CMD is exec of that command. -/
def Obligations.StepRunsTheWrittenCommand : Prop :=
  ∀ (s : State) (w : Word) (i : Instr) (rest : List HostMove),
    s.rstN = true → s.cur = none → s.host = .write 0x0008#14 .word w :: rest → decode w = .ok i →
    step s = exec i { s with host := rest, answer := some (.wrote .okay) }

/-- 40 R76: a turn of the core while a command is in progress is exec of that command. -/
def Obligations.StepRunsTheCommandInProgress : Prop :=
  ∀ (s : State) (c : Cur), s.rstN = true → s.cur = some c →
    (s.host = [] → step s = exec c.op s) ∧
    ∀ rest, s.host = .core :: rest → step s = exec c.op { s with host := rest }

/-- 60 R127, 70 R144: a command that lacks a byte waits, and so does an idle block; nothing changes. That a waiting turn is a
step to the same state is the model's choice (log 7, DESIGN CHOICE). -/
def Obligations.WaitingChangesNothing : Prop :=
  (∀ (s : State) (c : Cur), s.cur = some c → c.rem ≠ 0#32 → s.inq = [] → exec c.op s = .next s) ∧
  ∀ s : State, s.cur = none → s.host = [] → step s = .next s

/-- 10 R12, 40 R74, 60 R133: only an accepted CMD write that names a command starts one. -/
def Obligations.OnlyACmdWriteStartsACommand : Prop :=
  ∀ s t : State, s.cur = none → step s = .next t → t.cur ≠ none →
    ∃ w i rest, s.host = .write 0x0008#14 .word w :: rest ∧ s.rstN = true ∧ decode w = .ok i ∧
      ∃ c, t.cur = some c ∧ c.op = i

/-- 40 R78, 60 R131: a command ends only by reset, or by its completion, which sets DONE and the irq if it is enabled. -/
def Obligations.OnlyCompletionOrResetEndsACommand : Prop :=
  ∀ (s t : State) (c : Cur), s.cur = some c → step s = .next t → t.cur = none →
    (∃ rest, s.host = .rstFall :: rest) ∨ (c.rem = 0#32 ∧ t.done = true ∧ irq t = s.irqEn)

/-! ### Issue -/

/-- 60 R124, 40 R75: a rejected word leaves only its code, DONE, LASTCMD and the zeroed issue counters, and the write answers
OKAY; for BUILD_TREE PHASE_ERR comes before EMPTY. -/
def Obligations.IssueErrorsChangeOnlyStatus : Prop :=
  (∀ (s : State) (w : Word) (rest : List HostMove),
    s.rstN = true → s.cur = none → s.host = .write 0x0008#14 .word w :: rest →
    let s' := { s with host := rest, answer := some (.wrote .okay) }
    (∀ e, decode w = .error e → step s = .next (rejected s' (opField w) .illegalCmd)) ∧
    ∀ i, decode w = .ok i → issueCheck i s ≠ .none → step s = .next (rejected s' (opField w) (issueCheck i s))) ∧
  ∀ s : State, s.cur = none →
    (s.phase = .idle → exec .buildTree s = .next (rejected s 3#4 .phaseErr)) ∧
    (s.phase ≠ .idle → s.total = 0#32 → exec .buildTree s = .next (rejected s 3#4 .empty)) ∧
    (s.phase = .idle ∨ s.phase = .freqDone → exec .buildTable s = .next (rejected s 4#4 .phaseErr)) ∧
    (s.phase ≠ .tableReady → exec .encode s = .next (rejected s 5#4 .phaseErr)) ∧
    (s.tsrc = true → s.phase = .idle ∨ s.phase = .freqDone → exec .decode s = .next (rejected s 6#4 .phaseErr))

/-- 40 R74, R75; 41 R84; 44 R108; 45 R116: every command's accepted issue. That ENCODE's prefix at PAD = 0, which no run
reaches, is the sentinel alone is the model's inference (log 15, DEDUCED); that a stream command ends the withdrawing of an
abandoned frame is its choice (log 21, DESIGN CHOICE). -/
def Obligations.AcceptedIssueStartsTheCommand : Prop :=
  ∀ s : State, s.cur = none →
    exec .clear s = .next (issued s .clear (freshCur s .clear 0#32)) ∧
    exec .count s = .next (datapathClear (issued s .count (freshCur s .count s.inLen))) ∧
    (s.phase ≠ .idle → s.total ≠ 0#32 →
      exec .buildTree s = .next (issued s .buildTree (freshCur s .buildTree 0#32))) ∧
    (s.phase = .treeBuilt ∨ s.phase = .tableReady →
      exec .buildTable s = .next (issued s .buildTable (freshCur s .buildTable 0#32))) ∧
    (s.phase = .tableReady →
      exec .encode s = .next (issued s .encode
        { freshCur s .encode s.inLen with acc := List.replicate (s.pad.toNat - 1) false ++ [true] })) ∧
    (s.tsrc = false ∨ s.phase = .treeBuilt ∨ s.phase = .tableReady →
      exec .decode s = .next (issued s .decode
        { freshCur s .decode s.inLen with wnode := if s.tsrc then s.root else s.rom.val.root }))

/-! ### CLEAR -/

/-- 40 R79, R80: what the data-path clear writes and what it leaves, and that CLEAR's core step, the issue of COUNT and
reset use it. -/
def Obligations.ClearClearsTheDataPath : Prop :=
  (∀ s : State, datapathClear s = { s with
    phase := .idle, freq := Vector.replicate 128 0#32, code := Vector.replicate 128 zeroCode,
    list := Vector.replicate 128 zeroEntry, node := Vector.replicate 255 zeroNode, total := 0#32, nsym := 0#8,
    nnodes := 0#8, root := 0#8, bitlen := 0#64, pad := 0#4 }) ∧
  (∀ (s : State) (c : Cur), AtEnd s c .clear → exec .clear s = .next (datapathClear (completed s c.err))) ∧
  (∀ s : State, s.cur = none →
    exec .count s = .next (datapathClear (issued s .count (freshCur s .count s.inLen)))) ∧
  ∀ (s : State) (rest : List HostMove), s.host = .rstFall :: rest →
    ∃ t, step s = .next t ∧ datapathClear t = t

/-! ### COUNT -/

/-- 41 R85: the beat of COUNT, after an error, at an out-of-range byte, and at a symbol. -/
def Obligations.CountBeatCountsTheByte : Prop :=
  ∀ (s : State) (c : Cur) (b : Byte) (rest : List Byte), AtByte s c .count b rest →
    (c.err ≠ .none → exec .count s = .next (tookByte s rest { c with rem := c.rem - 1#32 })) ∧
    (c.err = .none → 128 ≤ b.toNat →
      exec .count s = .next (tookByte s rest { c with rem := c.rem - 1#32, err := .range })) ∧
    (c.err = .none → b.toNat < 128 →
      ∃ t, exec .count s = .next t ∧
        t = { tookByte s rest { c with rem := c.rem - 1#32 } with freq := t.freq, total := s.total + 1#32 } ∧
        freqAt t.freq (b.setWidth 7) = freqAt s.freq (b.setWidth 7) + 1#32 ∧
        ∀ y, y ≠ b.setWidth 7 → freqAt t.freq y = freqAt s.freq y)

/-- 41 R86, 40 R78: the last core step of COUNT. -/
def Obligations.CountFinishSetsThePhase : Prop :=
  ∀ (s : State) (c : Cur), AtEnd s c .count →
    (c.err = .none → exec .count s = .next { completed s .none with phase := .freqDone }) ∧
    (c.err ≠ .none → exec .count s = .next (completed s c.err))

/-- 41 R83, R87; 60 R125, R126: a whole COUNT counts the bytes before the first out-of-range byte, takes the whole frame,
and reports RANGE if there is one. -/
def Obligations.CountOfAFrame : Prop :=
  ∀ (s : State) (frame rest : List Byte), Ready s → s.inq = frame ++ rest → frame.length = s.inLen.toNat →
    let good := frame.takeWhile fun b => decide (b.toNat < 128)
    ∃ t, runCommand .count (frame.length + 1) s = .next t ∧
      t = { datapathClear (completed (issued s .count (freshCur s .count s.inLen))
              (if good = frame then .none else .range)) with
            inq := rest, inConsumed := s.inLen, freq := t.freq, total := t.total,
            phase := if good = frame then .freqDone else .idle } ∧
      t.total.toNat = good.length ∧
      ∀ x : Sym, (freqAt t.freq x).toNat = good.count (x.setWidth 8)

/-! ### BUILD_TREE -/

/-- 42 R90, R91: LIST after BUILD_TREE, sorted, with the injection; and what BUILD_TREE leaves unchanged (42 R89). -/
def Obligations.BuildTreeSortsTheList : Prop :=
  ∀ (s : State) (c : Cur), AtEnd s c .buildTree → (∃ x, freqAt s.freq x ≠ 0#32) →
    ∃ (t : State) (l : List (Sym × Word)), exec .buildTree s = .next t ∧
      t = { completed s c.err with
            list := t.list, node := t.node, nsym := t.nsym, nnodes := t.nnodes, root := t.root,
            code := Vector.replicate 128 zeroCode, bitlen := 0#64, pad := 0#4, phase := .treeBuilt } ∧
      l.length = t.nsym.toNat ∧ 2 ≤ l.length ∧ l.length ≤ 128 ∧
      (∀ i : Fin 128, t.list[i.val] =
        match l[i.val]? with
        | some e => { valid := true, sym := e.1, count := e.2 }
        | none => zeroEntry) ∧
      l.Pairwise (fun e e' => e.2.toNat < e'.2.toNat ∨ (e.2 = e'.2 ∧ e.1.toNat < e'.1.toNat)) ∧
      ∀ x n, (x, n) ∈ l ↔
        (n = freqAt s.freq x ∧ n ≠ 0#32) ∨
        (n = 0#32 ∧ ∃ x0, x = x0 + 1#7 ∧ freqAt s.freq x0 ≠ 0#32 ∧ ∀ y, y ≠ x0 → freqAt s.freq y = 0#32)

/-- 42 R94 to R96: `dq` takes the smaller head, the source on a tie, and the other head when one queue is empty; `Merge` makes a
node with the first node as LEFT and the second as RIGHT; and a turn of each loop takes its two nodes in that order. -/
def Obligations.DqTakesTheSmallerHead : Prop :=
  (∀ (a b : Nat) (q : MergeState) (h : q.nxt < 255),
    mergeNodes a b q = { q with
      node := q.node.set q.nxt
        { valid := true, leaf := false, sym := 0#7, left := BitVec.ofNat 8 a, right := BitVec.ofNat 8 b,
          weight := weightAt q.node a + weightAt q.node b } h,
      tgt := q.tgt ++ [q.nxt], nxt := q.nxt + 1 }) ∧
  (∀ (l fuel a b : Nat) (q q1 q2 : MergeState), q.sh < l → dq l q = (some a, q1) → dq l q1 = (some b, q2) →
    drainSource l (fuel + 1) q = drainSource l fuel (mergeNodes a b q2)) ∧
  (∀ (l fuel a : Nat) (q q1 q2 : MergeState), q.sh < l → dq l q = (some a, q1) → dq l q1 = (none, q2) →
    drainSource l (fuel + 1) q = drainSource l fuel { q2 with tgt := q2.tgt ++ [a] }) ∧
  (∀ (fuel a b : Nat) (ts : List Nat) (q : MergeState), q.tgt = a :: b :: ts →
    drainTarget (fuel + 1) q = drainTarget fuel (mergeNodes a b { q with tgt := ts })) ∧
  ∀ (l : Nat) (q : MergeState),
    (∀ t ts, q.sh < l → q.tgt = t :: ts →
      (weightAt q.node q.sh).toNat ≤ (weightAt q.node t).toNat → dq l q = (some q.sh, { q with sh := q.sh + 1 })) ∧
    (∀ t ts, q.sh < l → q.tgt = t :: ts →
      (weightAt q.node t).toNat < (weightAt q.node q.sh).toNat → dq l q = (some t, { q with tgt := ts })) ∧
    (q.sh < l → q.tgt = [] → dq l q = (some q.sh, { q with sh := q.sh + 1 })) ∧
    (∀ t ts, ¬q.sh < l → q.tgt = t :: ts → dq l q = (some t, { q with tgt := ts })) ∧
    (¬q.sh < l → q.tgt = [] → dq l q = (none, q))

/-- 42 R93 to R96, R98, R100: the leaves stand at NODE[0..L-1] in LIST order, L - 1 merges happen, the root is the last node made,
and the children of the internal nodes, LEFT before RIGHT in the order the nodes are made, are exactly the nodes that the
two-queue merge takes: each time the head of the source queue or of the FIFO target queue that `dq` chooses. -/
def Obligations.BuildTreeNumbersTheNodes : Prop :=
  ∀ (s : State) (c : Cur), AtEnd s c .buildTree → (∃ x, freqAt s.freq x ≠ 0#32) →
    ∃ t, exec .buildTree s = .next t ∧
      t.nnodes.toNat = 2 * t.nsym.toNat - 1 ∧ t.root.toNat = 2 * t.nsym.toNat - 2 ∧
      (∀ i : Fin 128, i.val < t.nsym.toNat → t.node[i.val] =
        { valid := true, leaf := true, sym := t.list[i.val].sym, left := 0#8, right := 0#8,
          weight := t.list[i.val].count }) ∧
      (∀ n : Fin 255, t.nsym.toNat ≤ n.val → n.val < t.nnodes.toNat →
        t.node[n.val].valid = true ∧ t.node[n.val].leaf = false ∧ t.node[n.val].sym = 0#7 ∧
        t.node[n.val].left.toNat < n.val ∧ t.node[n.val].right.toNat < n.val ∧
        t.node[n.val].weight = (recAt t.node t.node[n.val].left).weight + (recAt t.node t.node[n.val].right).weight) ∧
      (∀ j, j < 2 * t.nsym.toNat - 2 → popped t.node t.nsym.toNat j =
        nextPopped t.node t.nsym.toNat j (leavesPopped t.node t.nsym.toNat j)) ∧
      ∀ n : Fin 255, t.nnodes.toNat ≤ n.val → t.node[n.val] = zeroNode

/-- 42 R98, 45 R114: the tree BUILD_TREE leaves meets conditions 1 to 4 of WF_ROM, each symbol at one leaf. -/
def Obligations.BuildTreeGivesAStrictTree : Prop :=
  ∀ (s : State) (c : Cur), AtEnd s c .buildTree → (∃ x, freqAt s.freq x ≠ 0#32) →
    ∃ t, exec .buildTree s = .next t ∧ wfTree t.node t.nnodes t.root = true ∧ DistinctLeaves t.node t.root

/-- 42 R98: the root weighs TOTAL when TOTAL is the sum of the counts. -/
def Obligations.RootWeighsTheTotal : Prop :=
  ∀ (s : State) (c : Cur), AtEnd s c .buildTree → CounterInv s → s.total ≠ 0#32 →
    ∃ t, exec .buildTree s = .next t ∧ (recAt t.node t.root).weight = s.total

/-- 45 R114: the check that the model makes of a tree is conditions 1 to 4 as the rule words them. -/
def Obligations.TreeCheckMeansStrictTree : Prop :=
  ∀ (t : Nodes) (nn root : NodeIx), wfTree t nn root = true ↔ StrictTree t nn root

/-! ### BUILD_TABLE -/

/-- 43 R101, R102, R105: BUILD_TABLE on a strict tree gives each leaf its path as code, computes BITLEN and PAD, and changes
nothing else. -/
def Obligations.BuildTableWritesThePaths : Prop :=
  ∀ (s : State) (c : Cur) (nn : NodeIx), AtEnd s c .buildTable → wfTree s.node nn s.root = true →
    ∃ t, exec .buildTable s = .next t ∧
      t = { completed s c.err with code := t.code, bitlen := t.bitlen, pad := t.pad, phase := .tableReady } ∧
      t.bitlen.toNat = (symbols.map fun x => (freqAt s.freq x).toNat * (codeAt t.code x).len.toNat).sum ∧
      t.pad.toNat = 8 - t.bitlen.toNat % 8 ∧
      (∀ p x, LeafPath s.node s.root p x → (∀ q, LeafPath s.node s.root q x → q = p) →
        p.length ≤ 127 ∧ (codeAt t.code x).valid = true ∧ (codeAt t.code x).len.toNat = p.length ∧
        (codeAt t.code x).val.toNat = val p ∧ entryBits (codeAt t.code x) = p) ∧
      ∀ x, (∀ p, ¬LeafPath s.node s.root p x) → codeAt t.code x = zeroCode

/-- 43 R104: a traversal from a leaf gives its symbol the empty code. -/
def Obligations.LeafRootGetsTheEmptyCode : Prop :=
  ∀ (t : Nodes) (n : NodeIx) (r : NodeRec), nodeAt t n = some r → r.leaf = true →
    ∃ code, traverse t n = .ok code ∧ codeAt code r.sym = { valid := true, len := 0#7, val := 0#127 } ∧
      ∀ x, x ≠ r.sym → codeAt code x = zeroCode

/-- 43 R106: the codes of a strict tree with distinct leaf symbols are prefix-free, not empty, and meet the Kraft equality. -/
def Obligations.CodesArePrefixFreeAndComplete : Prop :=
  ∀ (t : Nodes) (nn root : NodeIx) (code : Vector CodeEntry 128),
    wfTree t nn root = true → DistinctLeaves t root → traverse t root = .ok code →
    (∀ x y, (codeAt code x).valid = true → (codeAt code y).valid = true → x ≠ y →
      ¬entryBits (codeAt code x) <+: entryBits (codeAt code y)) ∧
    (∀ x, (codeAt code x).valid = true → 1 ≤ (codeAt code x).len.toNat) ∧
    ((symbols.filter fun x => (codeAt code x).valid).map fun x => 2 ^ (127 - (codeAt code x).len.toNat)).sum = 2 ^ 127

/-- 43 R103: after BUILD_TREE and BUILD_TABLE exactly the symbols of LIST have a code, the injected one among them. -/
def Obligations.ListedSymbolsHaveCodes : Prop :=
  ∀ (s : State) (c c' : Cur), AtEnd s c .buildTree → (∃ x, freqAt s.freq x ≠ 0#32) →
    c'.op = .buildTable → c'.rem = 0#32 →
    ∃ t u, exec .buildTree s = .next t ∧ exec .buildTable { t with cur := some c' } = .next u ∧
      ∀ x, (codeAt u.code x).valid = true ↔ ∃ i : Fin 128, i.val < t.nsym.toNat ∧ t.list[i.val].sym = x

/-- 42 R99: for at least two counted symbols BITLEN is the least payload length over the prefix-free codes. -/
def Obligations.BitlenIsLeast : Prop :=
  ∀ (freq : Vector Word 128) (r : Nat) (code : Vector CodeEntry 128) (f : Sym → BitString),
    (symbols.map fun x => (freqAt freq x).toNat).sum < 2 ^ 32 →
    (∃ x y, x ≠ y ∧ freqAt freq x ≠ 0#32 ∧ freqAt freq y ≠ 0#32) →
    (twoQueue (frequencyList freq)).tgt = [r] →
    traverse (twoQueue (frequencyList freq)).node (BitVec.ofNat 8 r) = .ok code →
    (∀ x y, freqAt freq x ≠ 0#32 → freqAt freq y ≠ 0#32 → x ≠ y → ¬f x <+: f y) →
    payloadLength freq code ≤ (symbols.map fun x => (freqAt freq x).toNat * (f x).length).sum

/-! ### ENCODE -/

/-- 00 R8, 44 R109: the emission loop takes eight bits at a time, the first one the most significant, and stops below eight. -/
def Obligations.PackingTakesEightBitsAtATime : Prop :=
  (∀ bits : BitString, bits.length < 8 → packBytes bits = ([], bits)) ∧
  ∀ bits : BitString, 8 ≤ bits.length →
    (∃ b : Byte, packBytes bits = (b :: (packBytes (bits.drop 8)).1, (packBytes (bits.drop 8)).2) ∧
      ∀ k, k < 8 → bits[k]? = some (b.getLsbD (7 - k)))

/-- 44 R109: the beat of ENCODE, after an error, at an out-of-range byte, at a symbol without a code, and at a symbol with one;
and the bounds of the accumulator and of the bytes of one beat. With an error nothing leaves in the beat: with the 8 bits of the
prefix for PAD = 8 held, at the first byte, this follows the pseudocode of R109 against R111 and a sentence of R108 (log 19,
DEDUCED, unsafe). -/
def Obligations.EncodeBeatPacksTheCode : Prop :=
  ∀ (s : State) (c : Cur) (b : Byte) (rest : List Byte), AtByte s c .encode b rest →
    (c.err ≠ .none → exec .encode s = .next (tookByte s rest { c with rem := c.rem - 1#32 })) ∧
    (c.err = .none → 128 ≤ b.toNat →
      exec .encode s = .next (tookByte s rest { c with rem := c.rem - 1#32, err := .range, acc := [] })) ∧
    (c.err = .none → b.toNat < 128 → (codeAt s.code (b.setWidth 7)).valid = false →
      exec .encode s = .next (tookByte s rest { c with rem := c.rem - 1#32, err := .noCode, acc := [] })) ∧
    (c.err = .none → b.toNat < 128 → (codeAt s.code (b.setWidth 7)).valid = true →
      let out := packBytes (c.acc ++ entryBits (codeAt s.code (b.setWidth 7)))
      exec .encode s = .next { tookByte s rest { c with rem := c.rem - 1#32, acc := out.2 } with
        outq := s.outq ++ out.1, outCount := s.outCount + BitVec.ofNat 64 out.1.length } ∧
      out.2.length < 8 ∧ (c.acc.length ≤ 8 →
        (c.acc ++ entryBits (codeAt s.code (b.setWidth 7))).length ≤ 135 ∧ out.1.length ≤ 16))

/-- 44 R110, 40 R78: the last core step of ENCODE. -/
def Obligations.EncodeFinishChecksTheLength : Prop :=
  ∀ (s : State) (c : Cur), AtEnd s c .encode →
    (c.err ≠ .none → exec .encode s = .next (completed s c.err)) ∧
    (c.err = .none →
      exec .encode s = .next { completed s (if (packBytes c.acc).2 = [] then .none else .length) with
        outq := s.outq ++ (packBytes c.acc).1,
        outCount := s.outCount + BitVec.ofNat 64 (packBytes c.acc).1.length })

/-- 44 R107 to R111: what a whole ENCODE emits and how it ends, for every frame. The bytes are those of the prefix and the
payload before the first byte that raised an error: the first floor((len P + len S) / 8) of 44 R111, but for a frame whose first
byte raises one, which emits nothing, with PAD = 8 too, as the pseudocode of 44 R109 has it and as 44 R111 has not (log 19,
DEDUCED). On a payload that fits PAD the bytes are exactly the encoded stream of 30 R71. That the command completes while the
host takes no byte is the model's choice of an unbounded OUTQ (log 10, DESIGN CHOICE, unsafe). -/
def Obligations.EncodeEmitsTheStream : Prop :=
  ∀ (s : State) (frame rest : List Byte), Ready s → s.phase = .tableReady →
    s.pad.toNat = padFor s.bitlen.toNat → s.inq = frame ++ rest → frame.length = s.inLen.toNat →
    let good := frame.takeWhile (packable s.code)
    let payload := good.flatMap (codeOf s.code)
    let out := if good = [] ∧ frame ≠ [] then [] else (packBytes (prefixFor s.pad.toNat ++ payload)).1
    let e := if packError s.code frame ≠ .none then packError s.code frame
      else if payload.length % 8 = s.bitlen.toNat % 8 then .none else .length
    runCommand .encode (frame.length + 1) s = .next { completed (issued s .encode (freshCur s .encode s.inLen)) e with
      inq := rest, inConsumed := s.inLen, outq := s.outq ++ out, outCount := BitVec.ofNat 64 out.length } ∧
    (good = frame → payload.length % 8 = s.bitlen.toNat % 8 → out = stream payload) ∧
    (good ≠ [] ∨ frame = [] ∨ s.pad.toNat ≠ 8 → out.length = (s.pad.toNat + payload.length) / 8)

/-! ### DECODE -/

/-- 45 R117: the payload bits of a byte. -/
def Obligations.PayloadBitsFollowTheSentinel : Prop :=
  payloadBits true 0#8 = [] ∧ (∀ b : Byte, payloadBits false b = bitsOf 8 b) ∧
  ∀ (b : Byte) (p : Nat), p < 8 → b.getLsbD p = true → (∀ q, p < q → b.getLsbD q = false) →
    payloadBits true b = bitsOf p b

/-- 45 R117 to R119: the beat of DECODE walks the payload bits of the byte, emits at most 8 bytes, and leaves the walker at
an internal node whose depth is the pending bits, at most 126. -/
def Obligations.DecodeBeatWalksTheBits : Prop :=
  ∀ (s : State) (c : Cur) (b : Byte) (rest : List Byte) (nn : NodeIx), AtByte s c .decode b rest →
    let t := treeNodes c.tsrc s
    let r := treeRoot c.tsrc s
    wfTree t nn r = true → InternalAt t r c.wnode c.pend.toNat →
    let w := walk t r c.wnode c.pend.toNat (payloadBits c.first b)
    exec .decode s = .next { tookByte s rest
        { c with rem := c.rem - 1#32, first := false, wnode := w.2.1, pend := BitVec.ofNat 8 w.2.2 } with
      outq := s.outq ++ w.1, outCount := s.outCount + BitVec.ofNat 64 w.1.length } ∧
    w.1.length ≤ 8 ∧ InternalAt t r w.2.1 w.2.2 ∧ w.2.2 ≤ 126

/-- 45 R120, 40 R78: the last core step of DECODE. -/
def Obligations.DecodeFinishReportsTheTrail : Prop :=
  ∀ (s : State) (c : Cur), AtEnd s c .decode →
    exec .decode s = .next
      { completed s (if c.err = .none ∧ c.pend ≠ 0#8 then .trailing else c.err) with trail := c.pend }

/-- 45 R113, R117 to R120: a whole DECODE from an accepted issue walks the payload of its frame. That it completes while the host
takes no byte is the model's choice of an unbounded OUTQ (log 10, DESIGN CHOICE, unsafe). -/
def Obligations.DecodeOfAFrame : Prop :=
  ∀ (s : State) (frame rest : List Byte) (nn : NodeIx), Ready s →
    (s.tsrc = false ∨ s.phase = .treeBuilt ∨ s.phase = .tableReady) →
    wfTree (treeNodes s.tsrc s) nn (treeRoot s.tsrc s) = true → s.inq = frame ++ rest → frame.length = s.inLen.toNat →
    let w := walk (treeNodes s.tsrc s) (treeRoot s.tsrc s) (treeRoot s.tsrc s) 0 (unpack frame)
    runCommand .decode (frame.length + 1) s =
      .next { completed (issued s .decode (freshCur s .decode s.inLen)) (if w.2.2 = 0 then .none else .trailing) with
        inq := rest, inConsumed := s.inLen, outq := s.outq ++ w.1, outCount := BitVec.ofNat 64 w.1.length,
        trail := BitVec.ofNat 8 w.2.2 }

/-- 45 R121: unpacking the packed stream of a bit string gives the bit string. -/
def Obligations.UnpackOfTheStream : Prop :=
  ∀ bits : BitString, unpack (stream bits) = bits

/-- 45 R118, R121; 43 R102: walking the codes of symbols in the tree the codes came from emits the symbols. -/
def Obligations.WalkOfTheCodes : Prop :=
  ∀ (t : Nodes) (nn root : NodeIx) (code : Vector CodeEntry 128) (xs : List Sym),
    wfTree t nn root = true → DistinctLeaves t root → traverse t root = .ok code →
    (∀ x ∈ xs, (codeAt code x).valid = true) →
    walk t root root 0 (xs.flatMap fun x => entryBits (codeAt code x)) = (xs.map fun x => x.setWidth 8, root, 0)

/-- 45 R121: the round trip on the machine. The host encodes a frame, takes the output, and decodes it with the tree in NODE, or
with the ROM where it equals NODE: it gets the frame back, and neither command ends in an error. That each command completes
while the host takes no byte is the model's choice of an unbounded OUTQ (log 10, DESIGN CHOICE, unsafe). -/
def Obligations.RoundTripOnTheMachine : Prop :=
  ∀ (s : State) (frame : List Byte), Ready s → s.inq = [] → s.outq = [] → frame ≠ [] → frame.length < 2 ^ 32 →
    (∀ b ∈ frame, b.toNat < 128) →
    ∃ t, turns (encodeScript frame).length { s with host := encodeScript frame } = .next t ∧
      t.cur = none ∧ t.done = true ∧ t.errcode = .none ∧ t.inq = [] ∧
      (t.outq.length < 2 ^ 32 → ∀ src : Bool,
        (src = true ∨ (t.rom.val.nodes = t.node ∧ t.rom.val.root = t.root)) →
        ∃ u, turns (decodeScript src t.outq).length { t with host := decodeScript src t.outq, outq := [] } = .next u ∧
          u.cur = none ∧ u.done = true ∧ u.errcode = .none ∧ u.trail = 0#8 ∧ u.outq = frame)

/-! ### Errors and whole-machine rules -/

/-- 60 R123: the first error of a command wins. -/
def Obligations.FirstErrorWins : Prop :=
  ∀ (c : Cur) (e e' : ErrCode), e ≠ .none →
    (c.err = .none → (cmdError e c).err = e) ∧ (c.err ≠ .none → cmdError e c = c) ∧
    (cmdError e' (cmdError e c)).err = (cmdError e c).err

/-- 44 R107, 45 R113, 10 R36: no move of ENCODE or DECODE changes PHASE, the arrays, the results of the build commands,
CTRL or IN_LEN. -/
def Obligations.EncodeAndDecodeKeepTheDataPath : Prop :=
  ∀ (i : Instr) (s t : State), i = .encode ∨ i = .decode → exec i s = .next t →
    t.phase = s.phase ∧ t.freq = s.freq ∧ t.list = s.list ∧ t.node = s.node ∧ t.code = s.code ∧ t.total = s.total ∧
    t.nsym = s.nsym ∧ t.nnodes = s.nnodes ∧ t.root = s.root ∧ t.bitlen = s.bitlen ∧ t.pad = s.pad ∧
    t.tsrc = s.tsrc ∧ t.irqEn = s.irqEn ∧ t.inLen = s.inLen

/-- 10 R13, R16, R30, R35; 45 R114 condition 5: no step writes the ROM, its entries from ROM_NNODES up read as all zero, and ID
reads its constant in every state. -/
def Obligations.RomAndIdAreConstant : Prop :=
  (∀ s t : State, step s = .next t → t.rom = s.rom) ∧ (∀ s : State, readReg .id s = 0x48554637#32) ∧
  ∀ (s : State) (n : Fin 255), (readReg .romNnodes s).toNat ≤ n.val →
    s.rom.val.nodes[n.val] = zeroNode ∧ readReg (.romW0 n) s = 0#32 ∧ readReg (.romW1 n) s = 0#32

/-- 20 R54, R55, R57; 70 R143, R146 item 9: an offer appends its byte, the host's taking moves the oldest output byte, and nothing
else changes. A step changes INQ only by an offer, by a withdrawal while no stream command runs, or by taking its oldest
byte with a COUNT, ENCODE or DECODE in progress that has bytes to take. But for reset, every emitted byte stays in order, in
OUTQ or taken. That taking from an empty OUTQ moves nothing is the model's choice (log 17, DESIGN CHOICE), and so is the move of
withdrawal, for the bytes of an abandoned frame alone (log 21, DESIGN CHOICE). -/
def Obligations.StreamsKeepTheirOrder : Prop :=
  (∀ (s : State) (rest : List HostMove),
    let s' := { s with host := rest }
    (∀ b, s.host = .offer b :: rest → step s = .next { s' with inq := s.inq ++ [b] }) ∧
    (∀ b bs, s.host = .take :: rest → s.outq = b :: bs →
      step s = .next { s' with outq := bs, taken := s.taken ++ [b] }) ∧
    (s.host = .take :: rest → s.outq = [] → step s = .next s') ∧
    (∀ b bs, s.host = .withdraw :: rest → s.abandoned ≠ 0 → s.inq = b :: bs →
      step s = .next { s' with inq := bs, abandoned := s.abandoned - 1 }) ∧
    (s.host = .withdraw :: rest → s.abandoned ≠ 0 → s.inq = [] → step s = .next s') ∧
    (s.host = .withdraw :: rest → s.abandoned = 0 → step s = .refused .withdrawOutsideFrame)) ∧
  (∀ s t : State, CounterInv s → step s = .next t → t.inq ≠ s.inq →
    (∃ b rest, s.host = .offer b :: rest ∧ t.inq = s.inq ++ [b]) ∨
    (∃ b rest, s.host = .withdraw :: rest ∧ s.abandoned ≠ 0 ∧ (∀ c, s.cur = some c → takesFrame c.op = false) ∧
      s.inq = b :: t.inq) ∨
    ∃ c b, s.cur = some c ∧ takesFrame c.op = true ∧ c.rem ≠ 0#32 ∧ s.rstN = true ∧ s.inq = b :: t.inq) ∧
  ∀ s t : State, step s = .next t → (∀ rest, s.host ≠ .rstFall :: rest) → s.taken ++ s.outq <+: t.taken ++ t.outq

/-- 70 R147, 40 R76: a command whose frame is offered completes after exactly one more core step than it has bytes to take. That
it does while the host takes no byte is the model's choice of an unbounded OUTQ (log 10, DESIGN CHOICE, unsafe). -/
def Obligations.CommandCompletesAfterItsFrame : Prop :=
  ∀ (s : State) (c : Cur), Inv s → s.cur = some c → s.rstN = true → s.host = [] → c.rem.toNat ≤ s.inq.length →
    (∃ t, turns (c.rem.toNat + 1) s = .next t ∧ t.cur = none ∧ t.done = true ∧ t.inq = s.inq.drop c.rem.toNat) ∧
    ∀ k, k ≤ c.rem.toNat → ∃ t, turns k s = .next t ∧ t.cur ≠ none

/-! ### The register bus -/

/-- 20 R47: a legal read answers OKAY and the current value, and changes nothing else. -/
def Obligations.ReadsHaveNoSideEffect : Prop :=
  (∀ (s : State) (a : Addr) (r : Reg) (rest : List HostMove), s.rstN = true →
    s.host = .read a .word :: rest → a.toNat % 4 = 0 → regAt a.toNat = some r →
    (s.cur = none ∨ exactWhileBusy r = true) →
    step s = .next { s with host := rest, answer := some (.read .okay (readReg r s)) }) ∧
  ∀ s : State, readReg .cmd s = 0#32

/-- 20 R50: while a command is in progress a read of a result register or window answers OKAY with some word and changes no
state of the block; the words named as exact are the others; and while no command is in progress every word is exact. That the
count of free values advances is the model's own (log 6, DESIGN CHOICE). -/
def Obligations.ResultReadsWhileBusyAreUnspecified : Prop :=
  (∀ (s : State) (a : Addr) (r : Reg) (rest : List HostMove), s.rstN = true →
    s.host = .read a .word :: rest → a.toNat % 4 = 0 → regAt a.toNat = some r →
    s.cur ≠ none → exactWhileBusy r = false →
    ∃ v, step s = .next { s with host := rest, answer := some (.read .okay v), nFree := s.nFree + 1 }) ∧
  (∀ (s : State) (a : Addr) (r : Reg) (rest : List HostMove), s.rstN = true →
    s.host = .read a .word :: rest → a.toNat % 4 = 0 → regAt a.toNat = some r →
    (s.cur = none ∨ exactWhileBusy r = true) →
    step s = .next { s with host := rest, answer := some (.read .okay (readReg r s)) }) ∧
  ∀ r : Reg, exactWhileBusy r = true ↔
    r ∈ [Reg.id, .ctrl, .cmd, .status, .inLen, .romNnodes, .romRoot] ∨ ∃ n, r = .romW0 n ∨ r = .romW1 n

/-- 20 R45, R43: the bus errors, in their order, and that they change nothing but the answer. -/
def Obligations.BusErrorsChangeNothing : Prop :=
  ∀ (s : State) (a : Addr) (n : AccessSize),
    (n ≠ .word ∨ a.toNat % 4 ≠ 0 → access a n = .error .sizeAlign ∧ writeAccess a n s = .error .sizeAlign) ∧
    (n = .word → a.toNat % 4 = 0 → regAt a.toNat = none →
      access a n = .error .reserved ∧ writeAccess a n s = .error .reserved) ∧
    (∀ r, n = .word → a.toNat % 4 = 0 → regAt a.toNat = some r → r ∉ [Reg.ctrl, .cmd, .status, .inLen] →
      writeAccess a n s = .error .readOnly) ∧
    (n = .word → a.toNat % 4 = 0 → regAt a.toNat = some .cmd → s.cur ≠ none → writeAccess a n s = .error .busy) ∧
    (∀ e rest, s.rstN = true → s.host = .read a n :: rest → access a n = .error e →
      step s = .next { s with host := rest, answer := some (.read .slverr 0#32) }) ∧
    ∀ e v rest, s.rstN = true → s.host = .write a n v :: rest → writeAccess a n s = .error e →
      step s = .next { s with host := rest, answer := some (.wrote .slverr) }

/-- 20 R48: the legal writes: to CTRL, STATUS and IN_LEN whether or not a command is in progress, to CMD while none is; no
other word is writable. -/
def Obligations.LegalWritesSetTheRegister : Prop :=
  ∀ (s : State) (v : Word) (rest : List HostMove), s.rstN = true →
    let s' := { s with host := rest, answer := some (.wrote .okay) }
    (s.host = .write 0x0004#14 .word v :: rest →
      step s = .next { s' with tsrc := v.getLsbD 0, irqEn := v.getLsbD 1 }) ∧
    (s.host = .write 0x000C#14 .word v :: rest → v.getLsbD 1 = true → step s = .next { s' with done := false }) ∧
    (s.host = .write 0x000C#14 .word v :: rest → v.getLsbD 1 = false → step s = .next s') ∧
    (s.host = .write 0x0010#14 .word v :: rest → step s = .next { s' with inLen := v }) ∧
    (s.cur = none → s.host = .write 0x0008#14 .word v :: rest → step s = issueWord v s') ∧
    ∀ (a : Addr) (r : Reg), a.toNat % 4 = 0 → regAt a.toNat = some r → r ∉ [Reg.ctrl, .cmd, .status, .inLen] →
      s.host = .write a .word v :: rest → step s = .next { s with host := rest, answer := some (.wrote .slverr) }

/-- 20 R49: a CMD write while a command is in progress answers SLVERR and has no other effect. -/
def Obligations.CmdWriteWhileBusyIsLost : Prop :=
  ∀ (s : State) (w : Word) (rest : List HostMove), s.rstN = true → s.cur ≠ none →
    s.host = .write 0x0008#14 .word w :: rest →
    step s = .next { s with host := rest, answer := some (.wrote .slverr) }

/-! ### Interrupt and reset -/

/-- 60 R130: the irq level; it falls as a write to CMD starts a command, by the write that clears DONE, by reset, and while
IRQ_EN is 0; it rises, if enabled, as a command completes or is rejected, and as IRQ_EN is set while DONE is 1. -/
def Obligations.IrqIsEnableAndDone : Prop :=
  (∀ s : State, irq s = (s.irqEn && s.done)) ∧
  (∀ (s t : State) (w : Word) (rest : List HostMove), s.rstN = true → s.cur = none →
    s.host = .write 0x0008#14 .word w :: rest → step s = .next t → irq t = (s.irqEn && decide (t.cur = none))) ∧
  (∀ (s t : State) (c : Cur), s.cur = some c → step s = .next t → t.cur = none →
    (∀ rest, s.host ≠ .rstFall :: rest) → irq t = s.irqEn) ∧
  (∀ (s t : State) (v : Word) (rest : List HostMove), s.rstN = true → v.getLsbD 1 = true →
    s.host = .write 0x000C#14 .word v :: rest → step s = .next t → irq t = false) ∧
  (∀ (s t : State) (v : Word) (rest : List HostMove), s.rstN = true →
    s.host = .write 0x0004#14 .word v :: rest → step s = .next t →
    irq t = (v.getLsbD 1 && s.done) ∧ t.done = s.done) ∧
  ∀ (s t : State) (rest : List HostMove), s.host = .rstFall :: rest → step s = .next t → irq t = false

/-- 10 R40, 70 R141: as rst_n falls every element takes its reset value, INQ and the ROM unchanged; irq, BUSY and ERR are 0.
That `answer` is emptied, and that the schedule, the bytes taken and the count of free values stay, is the model's choice (log 13,
DESIGN CHOICE), and so is the count of the bytes of an abandoned frame (log 21, DESIGN CHOICE). -/
def Obligations.ResetSetsEveryElement : Prop :=
  ∀ (s : State) (rest : List HostMove), s.host = .rstFall :: rest →
    step s = .next {
      tsrc := false, irqEn := false, done := false, errcode := .none, lastcmd := 0#4, phase := .idle, inLen := 0#32,
      inConsumed := 0#32, outCount := 0#64, total := 0#32, nsym := 0#8, nnodes := 0#8, root := 0#8, bitlen := 0#64,
      pad := 0#4, trail := 0#8, freq := Vector.replicate 128 0#32, list := Vector.replicate 128 zeroEntry,
      node := Vector.replicate 255 zeroNode, code := Vector.replicate 128 zeroCode, cur := none, inq := s.inq,
      outq := [], rom := s.rom, rstN := false, host := rest, answer := none, taken := s.taken, nFree := s.nFree,
      abandoned :=
        match s.cur with
        | none => s.abandoned
        | some c => if takesFrame c.op then c.rem.toNat else s.abandoned } ∧
    ∀ t, step s = .next t → irq t = false ∧ busy t = false ∧ errFlag t = false ∧ readReg .id t = 0x48554637#32

/-- 70 R142: while rst_n is low no core step happens and no transaction is the host's to make; the release changes rst_n only.
That a transaction then is refused is the model's choice (log 12, DESIGN CHOICE). -/
def Obligations.LowResetHoldsTheBlock : Prop :=
  ∀ (s : State) (rest : List HostMove), s.rstN = false →
    (s.host = [] → step s = .next s) ∧
    (s.host = .core :: rest → step s = .next { s with host := rest }) ∧
    (∀ a n, s.host = .read a n :: rest → step s = .refused .transactionInReset) ∧
    (∀ a n v, s.host = .write a n v :: rest → step s = .refused .transactionInReset) ∧
    (s.host = .rstRise :: rest → step s = .next { s with host := rest, rstN := true })

/-! ### Invariants -/

/-- The invariant holds at reset (10 R40). -/
def Obligations.InvariantHoldsAtReset : Prop := Inv State.reset

/-- 60 R133, R123; 10 R19: every step keeps the invariant of STATUS. -/
def Obligations.StepKeepsStatusInvariant : Prop :=
  ∀ s t : State, StatusInv s → step s = .next t → StatusInv t

/-- 41 R87; 10 R21, R23, R31: every step keeps the counters exact, so that none overflows; and that no abandoned frame is left to
withdraw while a stream command runs (log 21, DESIGN CHOICE). -/
def Obligations.StepKeepsCounterInvariant : Prop :=
  ∀ s t : State, CounterInv s → step s = .next t → CounterInv t

/-- 10 R22, 44 R109: every step keeps the bounds of the output counter and of the accumulator. -/
def Obligations.StepKeepsOutputInvariant : Prop :=
  ∀ s t : State, CounterInv s → OutputInv s → step s = .next t → OutputInv t

/-- 10 R24 to R36, 40 R81, 45 R118: every step keeps what the phase says of the data path. -/
def Obligations.StepKeepsPhaseInvariant : Prop :=
  ∀ s t : State, CounterInv s → PhaseInv s → step s = .next t → PhaseInv t

/-- 70 R141, R142: every step keeps the block at its reset values while rst_n is low. -/
def Obligations.StepKeepsResetInvariant : Prop :=
  ∀ s t : State, ResetInv s → step s = .next t → ResetInv t

/-- 42 R97, 43 R102, 45 R118: in a state that meets the invariant no step faults, so the pseudocode never meets a case that has
no meaning. -/
def Obligations.InvariantStatesNeverFault : Prop :=
  ∀ (s : State) (f : Fault), CounterInv s → PhaseInv s → step s ≠ .fault f
end

