-- ==== Sys2Proof/Laws/Bits.lean ====
section
/-! SUPPORT. What the bit-string operations do, once each. -/

namespace Sys2Proof.Machine

@[simp] theorem bitsOf_length {w : Nat} (n : Nat) (v : BitVec w) : (bitsOf n v).length = n := by
  induction n with
  | zero => rfl
  | succ n ih => simp [bitsOf, ih]

/-- Bit `k` from the left of the low `n` bits is bit `n - 1 - k` (30 R70). -/
theorem bitsOf_getElem? {w : Nat} (n : Nat) (v : BitVec w) (k : Nat) (h : k < n) :
    (bitsOf n v)[k]? = some (v.getLsbD (n - 1 - k)) := by
  induction n generalizing k with
  | zero => omega
  | succ n ih =>
    cases k with
    | zero => simp [bitsOf]
    | succ k =>
      have e : n - (k + 1) = n - 1 - k := by omega
      simp [bitsOf, ih k (by omega), e]

theorem valFrom_append (a : Nat) (p q : BitString) : valFrom a (p ++ q) = valFrom (valFrom a p) q := by
  induction p generalizing a with
  | nil => rfl
  | cons b p ih => simp [valFrom, ih]

/-- A value grows by a factor of two for each bit read. -/
theorem valFrom_eq (a : Nat) (p : BitString) : valFrom a p = a * 2 ^ p.length + val p := by
  induction p generalizing a with
  | nil => simp [valFrom, val]
  | cons b p ih =>
    have h := ih (2 * a + b.toNat)
    have h0 := ih (2 * 0 + b.toNat)
    simp only [valFrom, val, List.length_cons, pow_succ] at h h0 ⊢
    rw [h, h0]; ring

theorem val_cons (b : Bool) (p : BitString) : val (b :: p) = b.toNat * 2 ^ p.length + val p := by
  rw [val, valFrom, valFrom_eq]; simp

/-- The value of a bit string fits its length (30 R70). -/
theorem val_lt (p : BitString) : val p < 2 ^ p.length := by
  induction p with
  | nil => simp [val, valFrom]
  | cons b p ih =>
    rw [val_cons, List.length_cons, pow_succ]
    cases b <;> simp <;> omega

/-- Reading the value of a bit string back as bits gives the bit string. -/
theorem bitsOf_val {w : Nat} (p : BitString) (v : BitVec w) (hw : p.length ≤ w)
    (hv : ∀ j, j < p.length → v.getLsbD j = (val p).testBit j) : bitsOf p.length v = p := by
  induction p with
  | nil => rfl
  | cons b p ih =>
    have hlow : ∀ j, j < p.length → (val (b :: p)).testBit j = (val p).testBit j := by
      intro j hj
      rw [val_cons, mul_comm, Nat.testBit_two_pow_mul_add _ (val_lt p)]
      simp [hj]
    have htop : (val (b :: p)).testBit p.length = b := by
      rw [val_cons, mul_comm, Nat.testBit_two_pow_mul_add _ (val_lt p)]
      cases b <;> simp
    have h1 := hv p.length (by simp)
    have h2 := ih (by simp at hw; omega) fun j hj => by
      rw [hv j (by simp; omega), hlow j hj]
    simp [bitsOf, h1, htop, h2]

/-- The bits of a byte made of eight bits are those bits (00 R8). -/
theorem bitsOf_byteOf (p : BitString) (h : p.length = 8) : bitsOf 8 (byteOf p) = p := by
  have := bitsOf_val p (byteOf p) (by omega) fun j hj => by
    simp only [byteOf, BitVec.getLsbD_ofNat, show j < 8 by omega, decide_true, Bool.true_and]
  rwa [h] at this

/-- A code of at most 127 bits is read back from its entry (30 R70). -/
theorem entryBits_entryOf (p : BitString) (h : p.length ≤ 127) : entryBits (entryOf p) = p := by
  have hl : (BitVec.ofNat 7 p.length).toNat = p.length := by
    rw [BitVec.toNat_ofNat]; exact Nat.mod_eq_of_lt (by omega)
  unfold entryBits entryOf
  simp only [hl]
  exact bitsOf_val p _ h fun j hj => by 
    simp only [BitVec.getLsbD_ofNat, show j < 127 by omega, decide_true, Bool.true_and]

/-- Below eight bits nothing leaves (44 R109). -/
theorem packBytes_short (p : BitString) (h : p.length < 8) : packBytes p = ([], p) := by
  match p, h with
  | [], _ => rfl
  | [_], _ => rfl
  | [_, _], _ => rfl
  | [_, _, _], _ => rfl
  | [_, _, _, _], _ => rfl
  | [_, _, _, _, _], _ => rfl
  | [_, _, _, _, _, _], _ => rfl
  | [_, _, _, _, _, _, _], _ => rfl
  | _ :: _ :: _ :: _ :: _ :: _ :: _ :: _ :: _, h => simp at h; omega

/-- Eight bits leave as a byte, and the loop goes on with the rest (44 R109). -/
theorem packBytes_append (p q : BitString) (h : p.length = 8) :
    packBytes (p ++ q) = (byteOf p :: (packBytes q).1, (packBytes q).2) := by
  match p, h with
  | [_, _, _, _, _, _, _, _], _ => rfl

/-- The bytes that leave spell the bits that left, and fewer than eight bits stay. -/
theorem packBytes_spec (p : BitString) :
    (packBytes p).1.flatMap (bitsOf 8) ++ (packBytes p).2 = p ∧ (packBytes p).2.length < 8 := by
  induction h : p.length using Nat.strong_induction_on generalizing p with
  | _ n ih =>
    by_cases hs : p.length < 8
    · simp [packBytes_short p hs, hs]
    · have h8 : (p.take 8).length = 8 := by simp; omega
      have hp : p = p.take 8 ++ p.drop 8 := (List.take_append_drop 8 p).symm
      obtain ⟨e, l⟩ := ih (p.drop 8).length (by simp; omega) (p.drop 8) rfl
      rw [hp, packBytes_append _ _ h8]
      simp only [List.flatMap_cons, bitsOf_byteOf _ h8, List.append_assoc, e]
      exact ⟨trivial, l⟩

/-- How many bytes leave. -/
theorem packBytes_length (p : BitString) : 8 * (packBytes p).1.length + (packBytes p).2.length = p.length := by
  have h := congrArg List.length (packBytes_spec p).1
  simp only [List.length_append, List.length_flatMap, bitsOf_length, List.map_const', List.sum_replicate,
    smul_eq_mul] at h
  omega

@[simp] theorem prefixFor_length (n : Nat) : (prefixFor n).length = n - 1 + 1 := by simp [prefixFor]

/-- Zeros and the sentinel go, what follows stays (45 R117). -/
theorem dropSentinel_zeros (n : Nat) (q : BitString) :
    dropSentinel (List.replicate n false ++ true :: q) = q := by
  induction n with
  | zero => rfl
  | succ n ih => simp [List.replicate_succ, dropSentinel, ih]

/-- Dropping through the sentinel never lengthens. -/
theorem dropSentinel_length (p : BitString) : (dropSentinel p).length ≤ p.length := by
  induction p with
  | nil => simp [dropSentinel]
  | cons b p ih => cases b <;> simp [dropSentinel]; omega

/-- A byte has at most eight payload bits (45 R117). -/
theorem payloadBits_length (first : Bool) (b : Byte) : (payloadBits first b).length ≤ 8 := by
  cases first
  · simp [payloadBits]
  · simpa [payloadBits] using dropSentinel_length (bitsOf 8 b)

end Sys2Proof.Machine
end

