-- ==== Sys2Proof/Laws/State.lean ====
section
/-! SUPPORT. One lemma per field per shared update of the state, each true by rfl, so that no proof unfolds a record update. -/

namespace Sys2Proof.Machine

/-! ### datapathClear -/

@[simp] theorem datapathClear_tsrc (s : State) : (datapathClear s).tsrc = s.tsrc := rfl
@[simp] theorem datapathClear_irqEn (s : State) : (datapathClear s).irqEn = s.irqEn := rfl
@[simp] theorem datapathClear_done (s : State) : (datapathClear s).done = s.done := rfl
@[simp] theorem datapathClear_errcode (s : State) : (datapathClear s).errcode = s.errcode := rfl
@[simp] theorem datapathClear_lastcmd (s : State) : (datapathClear s).lastcmd = s.lastcmd := rfl
@[simp] theorem datapathClear_phase (s : State) : (datapathClear s).phase = .idle := rfl
@[simp] theorem datapathClear_inLen (s : State) : (datapathClear s).inLen = s.inLen := rfl
@[simp] theorem datapathClear_inConsumed (s : State) : (datapathClear s).inConsumed = s.inConsumed := rfl
@[simp] theorem datapathClear_outCount (s : State) : (datapathClear s).outCount = s.outCount := rfl
@[simp] theorem datapathClear_total (s : State) : (datapathClear s).total = 0#32 := rfl
@[simp] theorem datapathClear_nsym (s : State) : (datapathClear s).nsym = 0#8 := rfl
@[simp] theorem datapathClear_nnodes (s : State) : (datapathClear s).nnodes = 0#8 := rfl
@[simp] theorem datapathClear_root (s : State) : (datapathClear s).root = 0#8 := rfl
@[simp] theorem datapathClear_bitlen (s : State) : (datapathClear s).bitlen = 0#64 := rfl
@[simp] theorem datapathClear_pad (s : State) : (datapathClear s).pad = 0#4 := rfl
@[simp] theorem datapathClear_trail (s : State) : (datapathClear s).trail = s.trail := rfl
@[simp] theorem datapathClear_freq (s : State) : (datapathClear s).freq = Vector.replicate 128 0#32 := rfl
@[simp] theorem datapathClear_list (s : State) : (datapathClear s).list = Vector.replicate 128 zeroEntry := rfl
@[simp] theorem datapathClear_node (s : State) : (datapathClear s).node = Vector.replicate 255 zeroNode := rfl
@[simp] theorem datapathClear_code (s : State) : (datapathClear s).code = Vector.replicate 128 zeroCode := rfl
@[simp] theorem datapathClear_cur (s : State) : (datapathClear s).cur = s.cur := rfl
@[simp] theorem datapathClear_inq (s : State) : (datapathClear s).inq = s.inq := rfl
@[simp] theorem datapathClear_outq (s : State) : (datapathClear s).outq = s.outq := rfl
@[simp] theorem datapathClear_rom (s : State) : (datapathClear s).rom = s.rom := rfl
@[simp] theorem datapathClear_rstN (s : State) : (datapathClear s).rstN = s.rstN := rfl
@[simp] theorem datapathClear_host (s : State) : (datapathClear s).host = s.host := rfl
@[simp] theorem datapathClear_answer (s : State) : (datapathClear s).answer = s.answer := rfl
@[simp] theorem datapathClear_taken (s : State) : (datapathClear s).taken = s.taken := rfl
@[simp] theorem datapathClear_nFree (s : State) : (datapathClear s).nFree = s.nFree := rfl
@[simp] theorem datapathClear_abandoned (s : State) : (datapathClear s).abandoned = s.abandoned := rfl

/-! ### emit -/

@[simp] theorem emit_tsrc (s : State) (b : Byte) : (emit s b).tsrc = s.tsrc := rfl
@[simp] theorem emit_irqEn (s : State) (b : Byte) : (emit s b).irqEn = s.irqEn := rfl
@[simp] theorem emit_done (s : State) (b : Byte) : (emit s b).done = s.done := rfl
@[simp] theorem emit_errcode (s : State) (b : Byte) : (emit s b).errcode = s.errcode := rfl
@[simp] theorem emit_lastcmd (s : State) (b : Byte) : (emit s b).lastcmd = s.lastcmd := rfl
@[simp] theorem emit_phase (s : State) (b : Byte) : (emit s b).phase = s.phase := rfl
@[simp] theorem emit_inLen (s : State) (b : Byte) : (emit s b).inLen = s.inLen := rfl
@[simp] theorem emit_inConsumed (s : State) (b : Byte) : (emit s b).inConsumed = s.inConsumed := rfl
@[simp] theorem emit_outCount (s : State) (b : Byte) : (emit s b).outCount = s.outCount + 1#64 := rfl
@[simp] theorem emit_total (s : State) (b : Byte) : (emit s b).total = s.total := rfl
@[simp] theorem emit_nsym (s : State) (b : Byte) : (emit s b).nsym = s.nsym := rfl
@[simp] theorem emit_nnodes (s : State) (b : Byte) : (emit s b).nnodes = s.nnodes := rfl
@[simp] theorem emit_root (s : State) (b : Byte) : (emit s b).root = s.root := rfl
@[simp] theorem emit_bitlen (s : State) (b : Byte) : (emit s b).bitlen = s.bitlen := rfl
@[simp] theorem emit_pad (s : State) (b : Byte) : (emit s b).pad = s.pad := rfl
@[simp] theorem emit_trail (s : State) (b : Byte) : (emit s b).trail = s.trail := rfl
@[simp] theorem emit_freq (s : State) (b : Byte) : (emit s b).freq = s.freq := rfl
@[simp] theorem emit_list (s : State) (b : Byte) : (emit s b).list = s.list := rfl
@[simp] theorem emit_node (s : State) (b : Byte) : (emit s b).node = s.node := rfl
@[simp] theorem emit_code (s : State) (b : Byte) : (emit s b).code = s.code := rfl
@[simp] theorem emit_cur (s : State) (b : Byte) : (emit s b).cur = s.cur := rfl
@[simp] theorem emit_inq (s : State) (b : Byte) : (emit s b).inq = s.inq := rfl
@[simp] theorem emit_outq (s : State) (b : Byte) : (emit s b).outq = s.outq ++ [b] := rfl
@[simp] theorem emit_rom (s : State) (b : Byte) : (emit s b).rom = s.rom := rfl
@[simp] theorem emit_rstN (s : State) (b : Byte) : (emit s b).rstN = s.rstN := rfl
@[simp] theorem emit_host (s : State) (b : Byte) : (emit s b).host = s.host := rfl
@[simp] theorem emit_answer (s : State) (b : Byte) : (emit s b).answer = s.answer := rfl
@[simp] theorem emit_taken (s : State) (b : Byte) : (emit s b).taken = s.taken := rfl
@[simp] theorem emit_nFree (s : State) (b : Byte) : (emit s b).nFree = s.nFree := rfl
@[simp] theorem emit_abandoned (s : State) (b : Byte) : (emit s b).abandoned = s.abandoned := rfl

/-! ### beginIssue -/

@[simp] theorem beginIssue_tsrc (op : BitVec 4) (s : State) : (beginIssue op s).tsrc = s.tsrc := rfl
@[simp] theorem beginIssue_irqEn (op : BitVec 4) (s : State) : (beginIssue op s).irqEn = s.irqEn := rfl
@[simp] theorem beginIssue_done (op : BitVec 4) (s : State) : (beginIssue op s).done = false := rfl
@[simp] theorem beginIssue_errcode (op : BitVec 4) (s : State) : (beginIssue op s).errcode = .none := rfl
@[simp] theorem beginIssue_lastcmd (op : BitVec 4) (s : State) : (beginIssue op s).lastcmd = op := rfl
@[simp] theorem beginIssue_phase (op : BitVec 4) (s : State) : (beginIssue op s).phase = s.phase := rfl
@[simp] theorem beginIssue_inLen (op : BitVec 4) (s : State) : (beginIssue op s).inLen = s.inLen := rfl
@[simp] theorem beginIssue_inConsumed (op : BitVec 4) (s : State) : (beginIssue op s).inConsumed = 0#32 := rfl
@[simp] theorem beginIssue_outCount (op : BitVec 4) (s : State) : (beginIssue op s).outCount = 0#64 := rfl
@[simp] theorem beginIssue_total (op : BitVec 4) (s : State) : (beginIssue op s).total = s.total := rfl
@[simp] theorem beginIssue_nsym (op : BitVec 4) (s : State) : (beginIssue op s).nsym = s.nsym := rfl
@[simp] theorem beginIssue_nnodes (op : BitVec 4) (s : State) : (beginIssue op s).nnodes = s.nnodes := rfl
@[simp] theorem beginIssue_root (op : BitVec 4) (s : State) : (beginIssue op s).root = s.root := rfl
@[simp] theorem beginIssue_bitlen (op : BitVec 4) (s : State) : (beginIssue op s).bitlen = s.bitlen := rfl
@[simp] theorem beginIssue_pad (op : BitVec 4) (s : State) : (beginIssue op s).pad = s.pad := rfl
@[simp] theorem beginIssue_trail (op : BitVec 4) (s : State) : (beginIssue op s).trail = 0#8 := rfl
@[simp] theorem beginIssue_freq (op : BitVec 4) (s : State) : (beginIssue op s).freq = s.freq := rfl
@[simp] theorem beginIssue_list (op : BitVec 4) (s : State) : (beginIssue op s).list = s.list := rfl
@[simp] theorem beginIssue_node (op : BitVec 4) (s : State) : (beginIssue op s).node = s.node := rfl
@[simp] theorem beginIssue_code (op : BitVec 4) (s : State) : (beginIssue op s).code = s.code := rfl
@[simp] theorem beginIssue_cur (op : BitVec 4) (s : State) : (beginIssue op s).cur = s.cur := rfl
@[simp] theorem beginIssue_inq (op : BitVec 4) (s : State) : (beginIssue op s).inq = s.inq := rfl
@[simp] theorem beginIssue_outq (op : BitVec 4) (s : State) : (beginIssue op s).outq = s.outq := rfl
@[simp] theorem beginIssue_rom (op : BitVec 4) (s : State) : (beginIssue op s).rom = s.rom := rfl
@[simp] theorem beginIssue_rstN (op : BitVec 4) (s : State) : (beginIssue op s).rstN = s.rstN := rfl
@[simp] theorem beginIssue_host (op : BitVec 4) (s : State) : (beginIssue op s).host = s.host := rfl
@[simp] theorem beginIssue_answer (op : BitVec 4) (s : State) : (beginIssue op s).answer = s.answer := rfl
@[simp] theorem beginIssue_taken (op : BitVec 4) (s : State) : (beginIssue op s).taken = s.taken := rfl
@[simp] theorem beginIssue_nFree (op : BitVec 4) (s : State) : (beginIssue op s).nFree = s.nFree := rfl
@[simp] theorem beginIssue_abandoned (op : BitVec 4) (s : State) : (beginIssue op s).abandoned = s.abandoned := rfl

/-! ### reject -/

@[simp] theorem reject_tsrc (e : ErrCode) (s : State) : (reject e s).tsrc = s.tsrc := rfl
@[simp] theorem reject_irqEn (e : ErrCode) (s : State) : (reject e s).irqEn = s.irqEn := rfl
@[simp] theorem reject_done (e : ErrCode) (s : State) : (reject e s).done = true := rfl
@[simp] theorem reject_errcode (e : ErrCode) (s : State) : (reject e s).errcode = e := rfl
@[simp] theorem reject_lastcmd (e : ErrCode) (s : State) : (reject e s).lastcmd = s.lastcmd := rfl
@[simp] theorem reject_phase (e : ErrCode) (s : State) : (reject e s).phase = s.phase := rfl
@[simp] theorem reject_inLen (e : ErrCode) (s : State) : (reject e s).inLen = s.inLen := rfl
@[simp] theorem reject_inConsumed (e : ErrCode) (s : State) : (reject e s).inConsumed = s.inConsumed := rfl
@[simp] theorem reject_outCount (e : ErrCode) (s : State) : (reject e s).outCount = s.outCount := rfl
@[simp] theorem reject_total (e : ErrCode) (s : State) : (reject e s).total = s.total := rfl
@[simp] theorem reject_nsym (e : ErrCode) (s : State) : (reject e s).nsym = s.nsym := rfl
@[simp] theorem reject_nnodes (e : ErrCode) (s : State) : (reject e s).nnodes = s.nnodes := rfl
@[simp] theorem reject_root (e : ErrCode) (s : State) : (reject e s).root = s.root := rfl
@[simp] theorem reject_bitlen (e : ErrCode) (s : State) : (reject e s).bitlen = s.bitlen := rfl
@[simp] theorem reject_pad (e : ErrCode) (s : State) : (reject e s).pad = s.pad := rfl
@[simp] theorem reject_trail (e : ErrCode) (s : State) : (reject e s).trail = s.trail := rfl
@[simp] theorem reject_freq (e : ErrCode) (s : State) : (reject e s).freq = s.freq := rfl
@[simp] theorem reject_list (e : ErrCode) (s : State) : (reject e s).list = s.list := rfl
@[simp] theorem reject_node (e : ErrCode) (s : State) : (reject e s).node = s.node := rfl
@[simp] theorem reject_code (e : ErrCode) (s : State) : (reject e s).code = s.code := rfl
@[simp] theorem reject_cur (e : ErrCode) (s : State) : (reject e s).cur = s.cur := rfl
@[simp] theorem reject_inq (e : ErrCode) (s : State) : (reject e s).inq = s.inq := rfl
@[simp] theorem reject_outq (e : ErrCode) (s : State) : (reject e s).outq = s.outq := rfl
@[simp] theorem reject_rom (e : ErrCode) (s : State) : (reject e s).rom = s.rom := rfl
@[simp] theorem reject_rstN (e : ErrCode) (s : State) : (reject e s).rstN = s.rstN := rfl
@[simp] theorem reject_host (e : ErrCode) (s : State) : (reject e s).host = s.host := rfl
@[simp] theorem reject_answer (e : ErrCode) (s : State) : (reject e s).answer = s.answer := rfl
@[simp] theorem reject_taken (e : ErrCode) (s : State) : (reject e s).taken = s.taken := rfl
@[simp] theorem reject_nFree (e : ErrCode) (s : State) : (reject e s).nFree = s.nFree := rfl
@[simp] theorem reject_abandoned (e : ErrCode) (s : State) : (reject e s).abandoned = s.abandoned := rfl

/-! ### complete -/

@[simp] theorem complete_tsrc (c : Cur) (s : State) : (complete c s).tsrc = s.tsrc := rfl
@[simp] theorem complete_irqEn (c : Cur) (s : State) : (complete c s).irqEn = s.irqEn := rfl
@[simp] theorem complete_done (c : Cur) (s : State) : (complete c s).done = true := rfl
@[simp] theorem complete_errcode (c : Cur) (s : State) : (complete c s).errcode = c.err := rfl
@[simp] theorem complete_lastcmd (c : Cur) (s : State) : (complete c s).lastcmd = s.lastcmd := rfl
@[simp] theorem complete_phase (c : Cur) (s : State) : (complete c s).phase = s.phase := rfl
@[simp] theorem complete_inLen (c : Cur) (s : State) : (complete c s).inLen = s.inLen := rfl
@[simp] theorem complete_inConsumed (c : Cur) (s : State) : (complete c s).inConsumed = s.inConsumed := rfl
@[simp] theorem complete_outCount (c : Cur) (s : State) : (complete c s).outCount = s.outCount := rfl
@[simp] theorem complete_total (c : Cur) (s : State) : (complete c s).total = s.total := rfl
@[simp] theorem complete_nsym (c : Cur) (s : State) : (complete c s).nsym = s.nsym := rfl
@[simp] theorem complete_nnodes (c : Cur) (s : State) : (complete c s).nnodes = s.nnodes := rfl
@[simp] theorem complete_root (c : Cur) (s : State) : (complete c s).root = s.root := rfl
@[simp] theorem complete_bitlen (c : Cur) (s : State) : (complete c s).bitlen = s.bitlen := rfl
@[simp] theorem complete_pad (c : Cur) (s : State) : (complete c s).pad = s.pad := rfl
@[simp] theorem complete_trail (c : Cur) (s : State) : (complete c s).trail = s.trail := rfl
@[simp] theorem complete_freq (c : Cur) (s : State) : (complete c s).freq = s.freq := rfl
@[simp] theorem complete_list (c : Cur) (s : State) : (complete c s).list = s.list := rfl
@[simp] theorem complete_node (c : Cur) (s : State) : (complete c s).node = s.node := rfl
@[simp] theorem complete_code (c : Cur) (s : State) : (complete c s).code = s.code := rfl
@[simp] theorem complete_cur (c : Cur) (s : State) : (complete c s).cur = none := rfl
@[simp] theorem complete_inq (c : Cur) (s : State) : (complete c s).inq = s.inq := rfl
@[simp] theorem complete_outq (c : Cur) (s : State) : (complete c s).outq = s.outq := rfl
@[simp] theorem complete_rom (c : Cur) (s : State) : (complete c s).rom = s.rom := rfl
@[simp] theorem complete_rstN (c : Cur) (s : State) : (complete c s).rstN = s.rstN := rfl
@[simp] theorem complete_host (c : Cur) (s : State) : (complete c s).host = s.host := rfl
@[simp] theorem complete_answer (c : Cur) (s : State) : (complete c s).answer = s.answer := rfl
@[simp] theorem complete_taken (c : Cur) (s : State) : (complete c s).taken = s.taken := rfl
@[simp] theorem complete_nFree (c : Cur) (s : State) : (complete c s).nFree = s.nFree := rfl
@[simp] theorem complete_abandoned (c : Cur) (s : State) : (complete c s).abandoned = s.abandoned := rfl

/-! ### resetBlock -/

@[simp] theorem resetBlock_tsrc (s : State) : (resetBlock s).tsrc = false := rfl
@[simp] theorem resetBlock_irqEn (s : State) : (resetBlock s).irqEn = false := rfl
@[simp] theorem resetBlock_done (s : State) : (resetBlock s).done = false := rfl
@[simp] theorem resetBlock_errcode (s : State) : (resetBlock s).errcode = .none := rfl
@[simp] theorem resetBlock_lastcmd (s : State) : (resetBlock s).lastcmd = 0#4 := rfl
@[simp] theorem resetBlock_phase (s : State) : (resetBlock s).phase = .idle := rfl
@[simp] theorem resetBlock_inLen (s : State) : (resetBlock s).inLen = 0#32 := rfl
@[simp] theorem resetBlock_inConsumed (s : State) : (resetBlock s).inConsumed = 0#32 := rfl
@[simp] theorem resetBlock_outCount (s : State) : (resetBlock s).outCount = 0#64 := rfl
@[simp] theorem resetBlock_total (s : State) : (resetBlock s).total = 0#32 := rfl
@[simp] theorem resetBlock_nsym (s : State) : (resetBlock s).nsym = 0#8 := rfl
@[simp] theorem resetBlock_nnodes (s : State) : (resetBlock s).nnodes = 0#8 := rfl
@[simp] theorem resetBlock_root (s : State) : (resetBlock s).root = 0#8 := rfl
@[simp] theorem resetBlock_bitlen (s : State) : (resetBlock s).bitlen = 0#64 := rfl
@[simp] theorem resetBlock_pad (s : State) : (resetBlock s).pad = 0#4 := rfl
@[simp] theorem resetBlock_trail (s : State) : (resetBlock s).trail = 0#8 := rfl
@[simp] theorem resetBlock_freq (s : State) : (resetBlock s).freq = Vector.replicate 128 0#32 := rfl
@[simp] theorem resetBlock_list (s : State) : (resetBlock s).list = Vector.replicate 128 zeroEntry := rfl
@[simp] theorem resetBlock_node (s : State) : (resetBlock s).node = Vector.replicate 255 zeroNode := rfl
@[simp] theorem resetBlock_code (s : State) : (resetBlock s).code = Vector.replicate 128 zeroCode := rfl
@[simp] theorem resetBlock_cur (s : State) : (resetBlock s).cur = none := rfl
@[simp] theorem resetBlock_inq (s : State) : (resetBlock s).inq = s.inq := rfl
@[simp] theorem resetBlock_outq (s : State) : (resetBlock s).outq = [] := rfl
@[simp] theorem resetBlock_rom (s : State) : (resetBlock s).rom = s.rom := rfl
@[simp] theorem resetBlock_rstN (s : State) : (resetBlock s).rstN = false := rfl
@[simp] theorem resetBlock_host (s : State) : (resetBlock s).host = s.host := rfl
@[simp] theorem resetBlock_answer (s : State) : (resetBlock s).answer = none := rfl
@[simp] theorem resetBlock_taken (s : State) : (resetBlock s).taken = s.taken := rfl
@[simp] theorem resetBlock_nFree (s : State) : (resetBlock s).nFree = s.nFree := rfl
@[simp] theorem resetBlock_abandoned (s : State) : (resetBlock s).abandoned = frameLeft s := rfl

/-! ### withFetchWord -/

@[simp] theorem withFetchWord_tsrc (s : State) (nbits w : Nat) : (s.withFetchWord nbits w).tsrc = s.tsrc := rfl
@[simp] theorem withFetchWord_irqEn (s : State) (nbits w : Nat) : (s.withFetchWord nbits w).irqEn = s.irqEn := rfl
@[simp] theorem withFetchWord_done (s : State) (nbits w : Nat) : (s.withFetchWord nbits w).done = s.done := rfl
@[simp] theorem withFetchWord_errcode (s : State) (nbits w : Nat) : (s.withFetchWord nbits w).errcode = s.errcode := rfl
@[simp] theorem withFetchWord_lastcmd (s : State) (nbits w : Nat) : (s.withFetchWord nbits w).lastcmd = s.lastcmd := rfl
@[simp] theorem withFetchWord_phase (s : State) (nbits w : Nat) : (s.withFetchWord nbits w).phase = s.phase := rfl
@[simp] theorem withFetchWord_inLen (s : State) (nbits w : Nat) : (s.withFetchWord nbits w).inLen = s.inLen := rfl
@[simp] theorem withFetchWord_inConsumed (s : State) (nbits w : Nat) : (s.withFetchWord nbits w).inConsumed = s.inConsumed := rfl
@[simp] theorem withFetchWord_outCount (s : State) (nbits w : Nat) : (s.withFetchWord nbits w).outCount = s.outCount := rfl
@[simp] theorem withFetchWord_total (s : State) (nbits w : Nat) : (s.withFetchWord nbits w).total = s.total := rfl
@[simp] theorem withFetchWord_nsym (s : State) (nbits w : Nat) : (s.withFetchWord nbits w).nsym = s.nsym := rfl
@[simp] theorem withFetchWord_nnodes (s : State) (nbits w : Nat) : (s.withFetchWord nbits w).nnodes = s.nnodes := rfl
@[simp] theorem withFetchWord_root (s : State) (nbits w : Nat) : (s.withFetchWord nbits w).root = s.root := rfl
@[simp] theorem withFetchWord_bitlen (s : State) (nbits w : Nat) : (s.withFetchWord nbits w).bitlen = s.bitlen := rfl
@[simp] theorem withFetchWord_pad (s : State) (nbits w : Nat) : (s.withFetchWord nbits w).pad = s.pad := rfl
@[simp] theorem withFetchWord_trail (s : State) (nbits w : Nat) : (s.withFetchWord nbits w).trail = s.trail := rfl
@[simp] theorem withFetchWord_freq (s : State) (nbits w : Nat) : (s.withFetchWord nbits w).freq = s.freq := rfl
@[simp] theorem withFetchWord_list (s : State) (nbits w : Nat) : (s.withFetchWord nbits w).list = s.list := rfl
@[simp] theorem withFetchWord_node (s : State) (nbits w : Nat) : (s.withFetchWord nbits w).node = s.node := rfl
@[simp] theorem withFetchWord_code (s : State) (nbits w : Nat) : (s.withFetchWord nbits w).code = s.code := rfl
@[simp] theorem withFetchWord_cur (s : State) (nbits w : Nat) : (s.withFetchWord nbits w).cur = none := rfl
@[simp] theorem withFetchWord_inq (s : State) (nbits w : Nat) : (s.withFetchWord nbits w).inq = s.inq := rfl
@[simp] theorem withFetchWord_outq (s : State) (nbits w : Nat) : (s.withFetchWord nbits w).outq = s.outq := rfl
@[simp] theorem withFetchWord_rom (s : State) (nbits w : Nat) : (s.withFetchWord nbits w).rom = s.rom := rfl
@[simp] theorem withFetchWord_rstN (s : State) (nbits w : Nat) : (s.withFetchWord nbits w).rstN = true := rfl
@[simp] theorem withFetchWord_host (s : State) (nbits w : Nat) : (s.withFetchWord nbits w).host = .write 0x0008#14 .word (BitVec.ofNat 32 (w % 2 ^ nbits)) :: s.host := rfl
@[simp] theorem withFetchWord_answer (s : State) (nbits w : Nat) : (s.withFetchWord nbits w).answer = s.answer := rfl
@[simp] theorem withFetchWord_taken (s : State) (nbits w : Nat) : (s.withFetchWord nbits w).taken = s.taken := rfl
@[simp] theorem withFetchWord_nFree (s : State) (nbits w : Nat) : (s.withFetchWord nbits w).nFree = s.nFree := rfl
@[simp] theorem withFetchWord_abandoned (s : State) (nbits w : Nat) : (s.withFetchWord nbits w).abandoned = s.abandoned := rfl

/-! ### countSymbol -/

@[simp] theorem countSymbol_tsrc (x : Sym) (s : State) : (countSymbol x s).tsrc = s.tsrc := rfl
@[simp] theorem countSymbol_irqEn (x : Sym) (s : State) : (countSymbol x s).irqEn = s.irqEn := rfl
@[simp] theorem countSymbol_done (x : Sym) (s : State) : (countSymbol x s).done = s.done := rfl
@[simp] theorem countSymbol_errcode (x : Sym) (s : State) : (countSymbol x s).errcode = s.errcode := rfl
@[simp] theorem countSymbol_lastcmd (x : Sym) (s : State) : (countSymbol x s).lastcmd = s.lastcmd := rfl
@[simp] theorem countSymbol_phase (x : Sym) (s : State) : (countSymbol x s).phase = s.phase := rfl
@[simp] theorem countSymbol_inLen (x : Sym) (s : State) : (countSymbol x s).inLen = s.inLen := rfl
@[simp] theorem countSymbol_inConsumed (x : Sym) (s : State) : (countSymbol x s).inConsumed = s.inConsumed := rfl
@[simp] theorem countSymbol_outCount (x : Sym) (s : State) : (countSymbol x s).outCount = s.outCount := rfl
@[simp] theorem countSymbol_total (x : Sym) (s : State) : (countSymbol x s).total = s.total + 1#32 := rfl
@[simp] theorem countSymbol_nsym (x : Sym) (s : State) : (countSymbol x s).nsym = s.nsym := rfl
@[simp] theorem countSymbol_nnodes (x : Sym) (s : State) : (countSymbol x s).nnodes = s.nnodes := rfl
@[simp] theorem countSymbol_root (x : Sym) (s : State) : (countSymbol x s).root = s.root := rfl
@[simp] theorem countSymbol_bitlen (x : Sym) (s : State) : (countSymbol x s).bitlen = s.bitlen := rfl
@[simp] theorem countSymbol_pad (x : Sym) (s : State) : (countSymbol x s).pad = s.pad := rfl
@[simp] theorem countSymbol_trail (x : Sym) (s : State) : (countSymbol x s).trail = s.trail := rfl
@[simp] theorem countSymbol_freq (x : Sym) (s : State) : (countSymbol x s).freq = s.freq.set x.toNat (freqAt s.freq x + 1#32) := rfl
@[simp] theorem countSymbol_list (x : Sym) (s : State) : (countSymbol x s).list = s.list := rfl
@[simp] theorem countSymbol_node (x : Sym) (s : State) : (countSymbol x s).node = s.node := rfl
@[simp] theorem countSymbol_code (x : Sym) (s : State) : (countSymbol x s).code = s.code := rfl
@[simp] theorem countSymbol_cur (x : Sym) (s : State) : (countSymbol x s).cur = s.cur := rfl
@[simp] theorem countSymbol_inq (x : Sym) (s : State) : (countSymbol x s).inq = s.inq := rfl
@[simp] theorem countSymbol_outq (x : Sym) (s : State) : (countSymbol x s).outq = s.outq := rfl
@[simp] theorem countSymbol_rom (x : Sym) (s : State) : (countSymbol x s).rom = s.rom := rfl
@[simp] theorem countSymbol_rstN (x : Sym) (s : State) : (countSymbol x s).rstN = s.rstN := rfl
@[simp] theorem countSymbol_host (x : Sym) (s : State) : (countSymbol x s).host = s.host := rfl
@[simp] theorem countSymbol_answer (x : Sym) (s : State) : (countSymbol x s).answer = s.answer := rfl
@[simp] theorem countSymbol_taken (x : Sym) (s : State) : (countSymbol x s).taken = s.taken := rfl
@[simp] theorem countSymbol_nFree (x : Sym) (s : State) : (countSymbol x s).nFree = s.nFree := rfl
@[simp] theorem countSymbol_abandoned (x : Sym) (s : State) : (countSymbol x s).abandoned = s.abandoned := rfl

end Sys2Proof.Machine
end

