-- ==== Sys2Proof/Laws/Ops.lean ====
section
/-! SUPPORT. What each shared operation can do, said once: emission, issue, core step, command. -/

namespace Sys2Proof.Machine

/-- Emitting bytes appends them and counts them (40 R77). -/
theorem emitAll_eq (s : State) (bs : List Byte) :
    emitAll s bs = { s with outq := s.outq ++ bs, outCount := s.outCount + BitVec.ofNat 64 bs.length } := by
  induction bs generalizing s with
  | nil => simp [emitAll]
  | cons b bs ih =>
    have h : emitAll s (b :: bs) = emitAll (emit s b) bs := rfl
    rw [h, ih]
    simp only [emit, List.append_assoc, List.singleton_append, List.length_cons, State.mk.injEq, and_true, true_and]
    apply BitVec.eq_of_toNat_eq
    simp [BitVec.toNat_add, BitVec.toNat_ofNat]
    omega

/-- Without an error recorded the error is recorded, else nothing changes (60 R123). -/
theorem cmdError_cases (e : ErrCode) (c : Cur) :
    (c.err = .none ∧ cmdError e c = { c with err := e }) ∨ (c.err ≠ .none ∧ cmdError e c = c) := by
  by_cases h : c.err = .none
  · exact .inl ⟨h, by simp [cmdError, h]⟩
  · exact .inr ⟨h, by simp [cmdError, h]⟩

@[simp] theorem cmdError_op (e : ErrCode) (c : Cur) : (cmdError e c).op = c.op := by
  unfold cmdError; split <;> rfl

@[simp] theorem cmdError_rem (e : ErrCode) (c : Cur) : (cmdError e c).rem = c.rem := by
  unfold cmdError; split <;> rfl

@[simp] theorem cmdError_acc (e : ErrCode) (c : Cur) : (cmdError e c).acc = c.acc := by
  unfold cmdError; split <;> rfl

@[simp] theorem cmdError_tsrc (e : ErrCode) (c : Cur) : (cmdError e c).tsrc = c.tsrc := by
  unfold cmdError; split <;> rfl

/-- An outcome is a next state only where the pseudocode has a meaning. -/
theorem settle_next {r : Except Fault State} {t : State} (h : settle r = .next t) : r = .ok t := by
  cases r with
  | ok s => exact congrArg _ (Host.Outcome.next.inj h)
  | error f => cases h

/-- An accepted issue leaves the record that Start made (40 R74). -/
theorem issue_accepted {i : Instr} {start : Cur → State → Cur × State} {s : State}
    (h : issueCheck i (beginIssue (opcode i) s) = .none) :
    issue i start s =
      { (start (newCur i (beginIssue (opcode i) s)) (beginIssue (opcode i) s)).2 with
        cur := some (start (newCur i (beginIssue (opcode i) s)) (beginIssue (opcode i) s)).1
        abandoned :=
          if takesFrame i then 0
          else (start (newCur i (beginIssue (opcode i) s)) (beginIssue (opcode i) s)).2.abandoned } := by
  simp only [issue, h]

/-- A rejected issue leaves the code and DONE (60 R124). -/
theorem issue_rejected {i : Instr} {start : Cur → State → Cur × State} {s : State}
    (h : issueCheck i (beginIssue (opcode i) s) ≠ .none) :
    issue i start s = reject (issueCheck i (beginIssue (opcode i) s)) (beginIssue (opcode i) s) := by
  have key : ∀ (e : ErrCode) (a b : State), e ≠ .none →
      (match e with
        | .none => a
        | e => reject e b) = reject e b := by
    intro e a b he
    cases e <;> first | rfl | exact absurd rfl he
  exact key _ _ _ h

/-- Everything a core step can do (40 R76): finish, wait for a byte, or take one. -/
theorem coreStep_cases {beat : Byte → Cur → State → Except Fault (Cur × State)}
    {finish : Cur → State → Except Fault (Cur × State)} {c : Cur} {s t : State}
    (h : coreStep beat finish c s = .next t) :
    (c.rem = 0#32 ∧ ∃ p, finish c s = .ok p ∧ t = complete p.1 p.2) ∨
    (c.rem ≠ 0#32 ∧ s.inq = [] ∧ t = s) ∨
    (c.rem ≠ 0#32 ∧ ∃ b rest q, s.inq = b :: rest ∧
      beat b (takeBeat c rest s).1 (takeBeat c rest s).2 = .ok q ∧ t = { q.2 with cur := some q.1 }) := by
  unfold coreStep at h
  split at h
  · refine .inl ⟨‹_›, ?_⟩
    have h' := settle_next h
    cases hf : finish c s with
    | error f => rw [hf] at h'; cases h'
    | ok p =>
      rw [hf] at h'
      exact ⟨p, rfl, (Except.ok.inj h').symm⟩
  · refine .inr ?_
    cases hq : s.inq with
    | nil =>
      rw [hq] at h
      exact .inl ⟨‹_›, rfl, (Host.Outcome.next.inj h).symm⟩
    | cons b rest =>
      rw [hq] at h
      refine .inr ⟨‹_›, b, rest, ?_⟩
      have h' := settle_next h
      cases hb : beat b (takeBeat c rest s).1 (takeBeat c rest s).2 with
      | error f => rw [hb] at h'; cases h'
      | ok q =>
        rw [hb] at h'
        exact ⟨q, rfl, rfl, (Except.ok.inj h').symm⟩

/-- The last core step, where the Body has a meaning (40 R76, R78). -/
theorem coreStep_finish {beat : Byte → Cur → State → Except Fault (Cur × State)}
    {finish : Cur → State → Except Fault (Cur × State)} {c : Cur} {s : State} {p : Cur × State}
    (hr : c.rem = 0#32) (h : finish c s = .ok p) : coreStep beat finish c s = .next (complete p.1 p.2) := by
  simp [coreStep, hr, h, settle, Except.map]

/-- A beat, where the Beat has a meaning (40 R76). -/
theorem coreStep_beat {beat : Byte → Cur → State → Except Fault (Cur × State)}
    {finish : Cur → State → Except Fault (Cur × State)} {c : Cur} {s : State} {b : Byte} {rest : List Byte}
    {q : Cur × State} (hr : c.rem ≠ 0#32) (hq : s.inq = b :: rest)
    (h : beat b (takeBeat c rest s).1 (takeBeat c rest s).2 = .ok q) :
    coreStep beat finish c s = .next { q.2 with cur := some q.1 } := by
  simp [coreStep, hr, hq, h, settle, Except.map]

/-- Without a byte the command waits (60 R127). -/
theorem coreStep_wait {beat : Byte → Cur → State → Except Fault (Cur × State)}
    {finish : Cur → State → Except Fault (Cur × State)} {c : Cur} {s : State}
    (hr : c.rem ≠ 0#32) (hq : s.inq = []) : coreStep beat finish c s = .next s := by
  simp [coreStep, hr, hq]

/-- With no command in progress a command is issued (40 R74). -/
theorem command_issue {i : Instr} {start : Cur → State → Cur × State}
    {beat : Byte → Cur → State → Except Fault (Cur × State)} {finish : Cur → State → Except Fault (Cur × State)}
    {s : State} (h : s.cur = none) : command i start beat finish s = .next (issue i start s) := by
  simp [command, h]

/-- In progress itself a command makes a core step (40 R76). -/
theorem command_running {i : Instr} {start : Cur → State → Cur × State}
    {beat : Byte → Cur → State → Except Fault (Cur × State)} {finish : Cur → State → Except Fault (Cur × State)}
    {s : State} {c : Cur} (h : s.cur = some c) (hi : c.op = i) :
    command i start beat finish s = coreStep beat finish c s := by
  simp [command, h, hi]

/-- Everything a command can do (40 R74, R76). -/
theorem command_cases {i : Instr} {start : Cur → State → Cur × State}
    {beat : Byte → Cur → State → Except Fault (Cur × State)} {finish : Cur → State → Except Fault (Cur × State)}
    {s t : State} (h : command i start beat finish s = .next t) :
    (s.cur = none ∧ t = issue i start s) ∨
    (∃ c, s.cur = some c ∧ c.op ≠ i ∧ t = s) ∨
    (∃ c, s.cur = some c ∧ c.op = i ∧ coreStep beat finish c s = .next t) := by
  cases hc : s.cur with
  | none =>
    rw [command_issue hc] at h
    exact .inl ⟨rfl, (Host.Outcome.next.inj h).symm⟩
  | some c =>
    by_cases hi : c.op = i
    · exact .inr (.inr ⟨c, rfl, hi, by rwa [command_running hc hi] at h⟩)
    · simp only [command, hc, hi, if_false] at h
      exact .inr (.inl ⟨c, rfl, hi, (Host.Outcome.next.inj h).symm⟩)

end Sys2Proof.Machine
end

