-- ==== Sys2Proof/Laws/Commands.lean ====
section
/-! SUPPORT. What the Start, Beat and Body of each command can do, said once, and the frame of a command. -/

namespace Sys2Proof.Machine

/-- Everything the beat of COUNT can do (41 R85). -/
theorem countBeat_cases (b : Byte) (c : Cur) (s : State) :
    (c.err ≠ .none ∧ countBeat b c s = .ok (c, s)) ∨
    (c.err = .none ∧ 128 ≤ b.toNat ∧ countBeat b c s = .ok ({ c with err := .range }, s)) ∨
    (c.err = .none ∧ b.toNat < 128 ∧ countBeat b c s = .ok (c, countSymbol (b.setWidth 7) s)) := by
  unfold countBeat
  by_cases he : c.err = .none
  · by_cases hb : 128 ≤ b.toNat
    · simp [he, hb, cmdError]
    · exact .inr (.inr ⟨he, by omega, by simp [he, hb]⟩)
  · simp [he]

/-- Everything the last step of COUNT can do (41 R86). -/
theorem countFinish_cases (c : Cur) (s : State) :
    (c.err = .none ∧ countFinish c s = .ok (c, { s with phase := .freqDone })) ∨
    (c.err ≠ .none ∧ countFinish c s = .ok (c, s)) := by
  unfold countFinish
  by_cases he : c.err = .none <;> simp [he]

/-- BUILD_TREE's step writes the list, the tree and what they make stale, and nothing else (42 R89). -/
theorem buildTreeBody_ok {c : Cur} {s : State} {p : Cur × State} (h : buildTreeBody c s = .ok p) :
    ∃ r, (twoQueue (frequencyList s.freq)).tgt = [r] ∧ p.1 = c ∧
      p.2 = { s with
        list := listOf (frequencyList s.freq)
        node := (twoQueue (frequencyList s.freq)).node
        code := Vector.replicate 128 zeroCode
        nsym := BitVec.ofNat 8 (frequencyList s.freq).length
        nnodes := BitVec.ofNat 8 (twoQueue (frequencyList s.freq)).nxt
        root := BitVec.ofNat 8 r
        bitlen := 0#64
        pad := 0#4
        phase := .treeBuilt } := by
  unfold buildTreeBody at h
  cases ht : (twoQueue (frequencyList s.freq)).tgt with
  | nil => simp [ht] at h
  | cons r ts =>
    cases ts with
    | nil =>
      simp only [ht, Except.ok.injEq] at h
      subst h
      exact ⟨r, rfl, rfl, rfl⟩
    | cons r' ts => simp [ht] at h

/-- BUILD_TABLE's step writes CODE, BITLEN, PAD and PHASE, and nothing else (43 R101). -/
theorem buildTableBody_ok {c : Cur} {s : State} {p : Cur × State} (h : buildTableBody c s = .ok p) :
    ∃ code, traverse s.node s.root = .ok code ∧ p.1 = c ∧
      p.2 = { s with
        code := code
        bitlen := BitVec.ofNat 64 (payloadLength s.freq code)
        pad := BitVec.ofNat 4 (padFor (payloadLength s.freq code))
        phase := .tableReady } := by
  unfold buildTableBody at h
  cases ht : traverse s.node s.root with
  | error f => simp [ht] at h
  | ok code =>
    simp only [ht, Except.ok.injEq] at h
    subst h
    exact ⟨code, rfl, rfl, rfl⟩

/-- Everything the beat of ENCODE can do (44 R109). -/
theorem encodeBeat_cases (b : Byte) (c : Cur) (s : State) :
    (c.err ≠ .none ∧ encodeBeat b c s = .ok (c, s)) ∨
    (∃ e, e ≠ .none ∧ c.err = .none ∧ packable s.code b = false ∧
      encodeBeat b c s = .ok ({ c with err := e, acc := [] }, s) ∧ (e = .range ↔ 128 ≤ b.toNat) ∧
      (e = .range ∨ e = .noCode)) ∨
    (c.err = .none ∧ packable s.code b = true ∧
      encodeBeat b c s = .ok ({ c with acc := (packBytes (c.acc ++ codeOf s.code b)).2 },
        emitAll s (packBytes (c.acc ++ codeOf s.code b)).1)) := by
  by_cases he : c.err = .none
  · by_cases hb : 128 ≤ b.toNat
    · refine .inr (.inl ⟨.range, by decide, he, ?_, ?_, ?_, .inl rfl⟩)
      · simp [packable]; omega
      · simp [encodeBeat, he, hb, encodeError, cmdError]
      · simp [hb]
    · cases hv : (codeAt s.code (b.setWidth 7)).valid with
      | false =>
        refine .inr (.inl ⟨.noCode, by decide, he, ?_, ?_, ?_, .inr rfl⟩)
        · simp [packable, hv]
        · simp [encodeBeat, he, hb, hv, encodeError, cmdError]
        · simp; omega
      | true =>
        refine .inr (.inr ⟨he, ?_, ?_⟩)
        · simp [packable, hv]; omega
        · simp [encodeBeat, he, hb, hv, packOut, codeOf]
  · exact .inl ⟨he, by simp [encodeBeat, he]⟩

/-- Everything the last step of ENCODE can do (44 R110). -/
theorem encodeFinish_cases (c : Cur) (s : State) :
    (c.err ≠ .none ∧ encodeFinish c s = .ok (c, s)) ∨
    (c.err = .none ∧ ∃ a e, encodeFinish c s = .ok ({ c with acc := a, err := e }, emitAll s (packBytes c.acc).1) ∧
      ((packBytes c.acc).2 = [] ∧ e = .none ∨ (packBytes c.acc).2 ≠ [] ∧ e = .length) ∧ a = []) := by
  by_cases he : c.err = .none
  · refine .inr ⟨he, [], ?_⟩
    by_cases ha : (packBytes c.acc).2 = []
    · refine ⟨.none, ?_, .inl ⟨ha, rfl⟩, rfl⟩
      simp [encodeFinish, he, packOut, ha]
    · refine ⟨.length, ?_, .inr ⟨ha, rfl⟩, rfl⟩
      simp [encodeFinish, he, packOut, ha, encodeError, cmdError]
  · exact .inl ⟨he, by simp [encodeFinish, he]⟩

/-- A walked bit moves the walker, or emits a symbol and returns it to the root (45 R118). -/
theorem walkBit_ok {x : Bool} {c : Cur} {s : State} {p : Cur × State} (h : walkBit x c s = .ok p) :
    (∃ n, p = ({ c with wnode := n, pend := c.pend + 1#8 }, s)) ∨
    (∃ b, p = ({ c with wnode := treeRoot c.tsrc s, pend := 0#8 }, emit s b)) := by
  unfold walkBit at h
  cases h1 : nodeAt (treeNodes c.tsrc s) c.wnode with
  | none => rw [h1] at h; cases h
  | some r =>
    simp only [h1] at h
    cases h2 : nodeAt (treeNodes c.tsrc s) (if x then r.right else r.left) with
    | none => rw [h2] at h; cases h
    | some r' =>
      rw [h2] at h
      cases hl : r'.leaf with
      | true => simp only [hl, if_true] at h; exact .inr ⟨_, (Except.ok.inj h).symm⟩
      | false => simp [hl] at h; exact .inl ⟨_, h.symm⟩

/-- A walk emits at most one byte for each bit, and moves only the walker (45 R119). -/
theorem walkBits_ok {xs : BitString} {c : Cur} {s : State} {p : Cur × State} (h : walkBits xs c s = .ok p) :
    ∃ bs n k, bs.length ≤ xs.length ∧ p = ({ c with wnode := n, pend := k }, emitAll s bs) := by
  induction xs generalizing c s with
  | nil =>
    refine ⟨[], c.wnode, c.pend, by simp, ?_⟩
    exact (Except.ok.inj h).symm
  | cons x xs ih =>
    unfold walkBits at h
    cases hb : walkBit x c s with
    | error f => rw [hb] at h; cases h
    | ok q =>
      rw [hb] at h
      obtain ⟨bs, n, k, hl, rfl⟩ := ih h
      rcases walkBit_ok hb with ⟨n', rfl⟩ | ⟨b, rfl⟩
      · exact ⟨bs, n, k, by simp; omega, rfl⟩
      · exact ⟨b :: bs, n, k, by simpa using hl, rfl⟩

/-- The beat of DECODE emits at most eight bytes, and moves only the walker (45 R119). -/
theorem decodeBeat_ok {b : Byte} {c : Cur} {s : State} {p : Cur × State} (h : decodeBeat b c s = .ok p) :
    ∃ bs n k, bs.length ≤ 8 ∧ p = ({ c with first := false, wnode := n, pend := k }, emitAll s bs) := by
  obtain ⟨bs, n, k, hl, rfl⟩ := walkBits_ok h
  exact ⟨bs, n, k, hl.trans (payloadBits_length _ _), rfl⟩

/-- The last step of DECODE (45 R120). -/
theorem decodeFinish_eq (c : Cur) (s : State) :
    ∃ e, decodeFinish c s = .ok ({ c with err := e }, { s with trail := c.pend }) ∧
      (c.pend = 0#8 → e = c.err) ∧ (c.pend ≠ 0#8 → e = if c.err = .none then .trailing else c.err) := by
  by_cases hp : c.pend = 0#8
  · refine ⟨c.err, ?_, fun _ => rfl, fun h => absurd hp h⟩
    unfold decodeFinish
    rw [if_pos hp]
  · refine ⟨if c.err = .none then .trailing else c.err, ?_, fun h => absurd h hp, fun _ => rfl⟩
    by_cases he : c.err = .none
    · simp [decodeFinish, hp, cmdError, he]
    · simp [decodeFinish, hp, cmdError, he]

/-! ### The frame of a command -/

/-- The fields no command writes: CTRL, IN_LEN, the ROM, rst_n, and the model's own record of the host. -/
structure SameHostSide (s t : State) : Prop where
  tsrc : t.tsrc = s.tsrc
  irqEn : t.irqEn = s.irqEn
  inLen : t.inLen = s.inLen
  rom : t.rom = s.rom
  rstN : t.rstN = s.rstN
  host : t.host = s.host
  answer : t.answer = s.answer
  taken : t.taken = s.taken
  nFree : t.nFree = s.nFree

/-- What a Start, Beat or Body leaves: those fields, and INQ, from which only the core step takes (40 R76). -/
structure SamePart (s t : State) : Prop extends SameHostSide s t where
  inq : t.inq = s.inq

/-- A command leaves INQ as it is, or takes its oldest byte as one of those it still has to take (40 R76). -/
def TakesAtMostOne (s t : State) (i : Instr) : Prop :=
  t.inq = s.inq ∨ ∃ c b, s.cur = some c ∧ c.op = i ∧ c.rem ≠ 0#32 ∧ s.inq = b :: t.inq

/-- The frame of a command from the frames of its parts. -/
theorem command_frame {i : Instr} {start : Cur → State → Cur × State}
    {beat : Byte → Cur → State → Except Fault (Cur × State)} {finish : Cur → State → Except Fault (Cur × State)}
    (hs : ∀ c s, SamePart s (start c s).2)
    (hb : ∀ b c s q, beat b c s = .ok q → SamePart s q.2)
    (hf : ∀ c s q, finish c s = .ok q → SamePart s q.2)
    {s t : State} (h : command i start beat finish s = .next t) : SameHostSide s t ∧ TakesAtMostOne s t i := by
  rcases command_cases h with ⟨_, rfl⟩ | ⟨c, _, _, rfl⟩ | ⟨c, hcur, hop, hc⟩
  · by_cases hi : issueCheck i (beginIssue (opcode i) s) = .none
    · rw [issue_accepted hi]
      obtain ⟨⟨a, b, d, e, f, g, k, l, m⟩, hq⟩ :=
        hs (newCur i (beginIssue (opcode i) s)) (beginIssue (opcode i) s)
      exact ⟨⟨a, b, d, e, f, g, k, l, m⟩, .inl hq⟩
    · rw [issue_rejected hi]
      exact ⟨⟨rfl, rfl, rfl, rfl, rfl, rfl, rfl, rfl, rfl⟩, .inl rfl⟩
  · exact ⟨⟨rfl, rfl, rfl, rfl, rfl, rfl, rfl, rfl, rfl⟩, .inl rfl⟩
  · rcases coreStep_cases hc with ⟨_, p, hp, rfl⟩ | ⟨_, _, rfl⟩ | ⟨hr, b, rest, q, hin, hq, rfl⟩
    · obtain ⟨⟨a, b, d, e, f, g, k, l, m⟩, hi⟩ := hf c s p hp
      exact ⟨⟨a, b, d, e, f, g, k, l, m⟩, .inl hi⟩
    · exact ⟨⟨rfl, rfl, rfl, rfl, rfl, rfl, rfl, rfl, rfl⟩, .inl rfl⟩
    · obtain ⟨⟨a, b', d, e, f, g, k, l, m⟩, hi⟩ := hb b _ _ q hq
      exact ⟨⟨a, b', d, e, f, g, k, l, m⟩, .inr ⟨c, b, hcur, hop, hr, by rw [hin]; exact congrArg _ hi.symm⟩⟩

theorem SamePart.refl (s : State) : SamePart s s := ⟨⟨rfl, rfl, rfl, rfl, rfl, rfl, rfl, rfl, rfl⟩, rfl⟩

theorem SamePart.emitAll (s : State) (bs : List Byte) : SamePart s (emitAll s bs) := by
  rw [emitAll_eq]; exact ⟨⟨rfl, rfl, rfl, rfl, rfl, rfl, rfl, rfl, rfl⟩, rfl⟩

/-- The frame of every command: those fields, and at most one byte taken. -/
theorem exec_parts {i : Instr} {s t : State} (h : exec i s = .next t) : SameHostSide s t ∧ TakesAtMostOne s t i := by
  cases i with
  | clear =>
    refine command_frame (fun _ s => .refl s) ?_ ?_ h
    · intro b c s q hq; cases hq; exact .refl s
    · intro c s q hq; cases hq; exact ⟨⟨rfl, rfl, rfl, rfl, rfl, rfl, rfl, rfl, rfl⟩, rfl⟩
  | count =>
    refine command_frame (fun _ s => ⟨⟨rfl, rfl, rfl, rfl, rfl, rfl, rfl, rfl, rfl⟩, rfl⟩) ?_ ?_ h
    · intro b c s q hq
      rcases countBeat_cases b c s with ⟨_, e⟩ | ⟨_, _, e⟩ | ⟨_, _, e⟩ <;> rw [e] at hq <;> cases hq
      · exact .refl s
      · exact .refl s
      · exact ⟨⟨rfl, rfl, rfl, rfl, rfl, rfl, rfl, rfl, rfl⟩, rfl⟩
    · intro c s q hq
      rcases countFinish_cases c s with ⟨_, e⟩ | ⟨_, e⟩ <;> rw [e] at hq <;> cases hq
      · exact ⟨⟨rfl, rfl, rfl, rfl, rfl, rfl, rfl, rfl, rfl⟩, rfl⟩
      · exact .refl s
  | buildTree =>
    refine command_frame (fun _ s => .refl s) ?_ ?_ h
    · intro b c s q hq; cases hq; exact .refl s
    · intro c s q hq
      obtain ⟨r, _, _, e⟩ := buildTreeBody_ok hq
      rw [e]; exact ⟨⟨rfl, rfl, rfl, rfl, rfl, rfl, rfl, rfl, rfl⟩, rfl⟩
  | buildTable =>
    refine command_frame (fun _ s => .refl s) ?_ ?_ h
    · intro b c s q hq; cases hq; exact .refl s
    · intro c s q hq
      obtain ⟨code, _, _, e⟩ := buildTableBody_ok hq
      rw [e]; exact ⟨⟨rfl, rfl, rfl, rfl, rfl, rfl, rfl, rfl, rfl⟩, rfl⟩
  | encode =>
    refine command_frame (fun _ s => .refl s) ?_ ?_ h
    · intro b c s q hq
      rcases encodeBeat_cases b c s with ⟨_, e⟩ | ⟨_, _, _, _, e, _⟩ | ⟨_, _, e⟩ <;> rw [e] at hq <;> cases hq
      · exact .refl s
      · exact .refl s
      · exact .emitAll s _
    · intro c s q hq
      rcases encodeFinish_cases c s with ⟨_, e⟩ | ⟨_, _, _, e, _⟩ <;> rw [e] at hq <;> cases hq
      · exact .refl s
      · exact .emitAll s _
  | decode =>
    refine command_frame (fun _ s => .refl s) ?_ ?_ h
    · intro b c s q hq
      obtain ⟨bs, n, k, _, rfl⟩ := decodeBeat_ok hq
      exact .emitAll s bs
    · intro c s q hq
      obtain ⟨e, he, _⟩ := decodeFinish_eq c s
      rw [he] at hq; cases hq
      exact ⟨⟨rfl, rfl, rfl, rfl, rfl, rfl, rfl, rfl, rfl⟩, rfl⟩

/-- No command writes CTRL, IN_LEN, the ROM, rst_n or the model's record of the host. -/
theorem exec_frame {i : Instr} {s t : State} (h : exec i s = .next t) : SameHostSide s t := (exec_parts h).1

/-- A command takes at most the oldest offered byte, and only while it has bytes to take (20 R54, 40 R76). -/
theorem exec_inq {i : Instr} {s t : State} (h : exec i s = .next t) : TakesAtMostOne s t i := (exec_parts h).2

end Sys2Proof.Machine
end

