-- ==== Sys2Proof/Laws/PerInstr.lean ====
section
/-! SUPPORT. A statement for every command as syntax, one lemma per constructor. -/

/-- The command is well formed, and its word decodes to it (30 R64, R65). -/
def Sys2Proof.Laws.Encoding.Statement (i : Sys2Proof.Instr) : Prop :=
  i.wellFormed = true ∧ Sys2Proof.wellFormedWord (Sys2Proof.encode i) = true ∧
    Sys2Proof.decode (Sys2Proof.encode i) = .ok i

theorem Sys2Proof.Laws.Encoding.clear : Sys2Proof.Laws.Encoding.Statement .clear := by
  unfold Sys2Proof.Laws.Encoding.Statement; decide

theorem Sys2Proof.Laws.Encoding.count : Sys2Proof.Laws.Encoding.Statement .count := by
  unfold Sys2Proof.Laws.Encoding.Statement; decide

theorem Sys2Proof.Laws.Encoding.buildTree : Sys2Proof.Laws.Encoding.Statement .buildTree := by
  unfold Sys2Proof.Laws.Encoding.Statement; decide

theorem Sys2Proof.Laws.Encoding.buildTable : Sys2Proof.Laws.Encoding.Statement .buildTable := by
  unfold Sys2Proof.Laws.Encoding.Statement; decide

theorem Sys2Proof.Laws.Encoding.encode : Sys2Proof.Laws.Encoding.Statement .encode := by
  unfold Sys2Proof.Laws.Encoding.Statement; decide

theorem Sys2Proof.Laws.Encoding.decode : Sys2Proof.Laws.Encoding.Statement .decode := by
  unfold Sys2Proof.Laws.Encoding.Statement; decide
end

