-- ==== Sys2Proof/Laws/Step.lean ====
section
/-! SUPPORT. What a step can do, said once. -/

namespace Sys2Proof.Machine

/-- A read changes only the answer and the count of free values (20 R47, R50). -/
theorem busRead_frame (a : Addr) (n : AccessSize) (s : State) :
    ∃ x k, busRead a n s = { s with answer := some x, nFree := k } := by
  unfold busRead
  split
  · exact ⟨_, s.nFree, rfl⟩
  · split
    · exact ⟨_, _, rfl⟩
    · exact ⟨_, s.nFree, rfl⟩

/-- Everything a write can do (20 R45, R48): refused, one of the three plain registers, or an issue. -/
theorem busWrite_cases {a : Addr} {n : AccessSize} {v : Word} {s t : State} (h : busWrite a n v s = .next t) :
    t = { s with answer := some (.wrote .slverr) } ∨
    t = { s with answer := some (.wrote .okay) } ∨
    t = { s with answer := some (.wrote .okay), tsrc := v.getLsbD 0, irqEn := v.getLsbD 1 } ∨
    t = { s with answer := some (.wrote .okay), done := false } ∨
    t = { s with answer := some (.wrote .okay), inLen := v } ∨
    (s.cur = none ∧ writeAccess a n s = .ok .cmd ∧ issueWord v { s with answer := some (.wrote .okay) } = .next t) := by
  unfold busWrite at h
  cases hw : writeAccess a n s with
  | error e => rw [hw] at h; exact .inl (Host.Outcome.next.inj h).symm
  | ok r =>
    rw [hw] at h
    cases r with
    | ctrl => exact .inr (.inr (.inl (Host.Outcome.next.inj h).symm))
    | status =>
      have h' := (Host.Outcome.next.inj h).symm
      split at h'
      · exact .inr (.inr (.inr (.inl h')))
      · exact .inr (.inl h')
    | inLen => exact .inr (.inr (.inr (.inr (.inl (Host.Outcome.next.inj h).symm))))
    | cmd =>
      refine .inr (.inr (.inr (.inr (.inr ⟨?_, rfl, h⟩))))
      unfold writeAccess at hw
      cases ha : access a n with
      | error e => rw [ha] at hw; cases hw
      | ok r =>
        rw [ha] at hw
        by_cases h1 : writable r = false
        · simp [h1] at hw
        · by_cases h2 : r = .cmd ∧ busy s = true
          · simp [h2] at hw
            split at hw <;> cases hw
          · simp only [h1, h2, if_false] at hw
            cases hw
            cases hc : s.cur with
            | none => rfl
            | some c => exact absurd ⟨rfl, by simp [busy, hc]⟩ h2
    | _ => exact .inr (.inl (Host.Outcome.next.inj h).symm)

/-- An accepted CMD write issues the command its word names, or rejects the word (40 R74). -/
theorem issueWord_cases {w : Word} {s t : State} (h : issueWord w s = .next t) :
    (∃ i, decode w = .ok i ∧ exec i s = .next t) ∨ (∃ e, decode w = .error e ∧ t = issueIllegal w s) := by
  unfold issueWord at h
  cases hd : decode w with
  | ok i => rw [hd] at h; exact .inl ⟨i, rfl, h⟩
  | error e => rw [hd] at h; exact .inr ⟨e, rfl, (Host.Outcome.next.inj h).symm⟩

/-- Everything the core's turn can do (40 R76). -/
theorem coreTurn_cases {s t : State} (h : coreTurn s = .next t) :
    t = s ∨ ∃ c, s.cur = some c ∧ s.rstN = true ∧ exec c.op s = .next t := by
  unfold coreTurn at h
  cases hc : s.cur with
  | none => rw [hc] at h; exact .inl (Host.Outcome.next.inj h).symm
  | some c =>
    rw [hc] at h
    cases hr : s.rstN with
    | false => simp only [hr] at h; exact .inl (Host.Outcome.next.inj h).symm
    | true => simp only [hr, if_true] at h; exact .inr ⟨c, rfl, rfl, h⟩

/-- Everything a step can do: the core's turn, or one move of the host. -/
theorem step_cases {s t : State} (h : step s = .next t) :
    (s.host = [] ∧ coreTurn s = .next t) ∨
    (∃ m rest, s.host = m :: rest ∧ hostMove m { s with host := rest } = .next t) := by
  unfold step nextMove at h
  cases hh : s.host with
  | nil => rw [hh] at h; exact .inl ⟨rfl, h⟩
  | cons m rest => rw [hh] at h; exact .inr ⟨m, rest, rfl, h⟩

/-- A step with an empty schedule is the core's turn (40 R76). -/
theorem step_quiet {s : State} (h : s.host = []) : step s = coreTurn s := by
  simp [step, nextMove, h]

/-- A step with a move to come is that move. -/
theorem step_move {s : State} {m : HostMove} {rest : List HostMove} (h : s.host = m :: rest) :
    step s = hostMove m { s with host := rest } := by
  simp [step, nextMove, h]

/-- Runs compose. -/
theorem turns_add (j k : Nat) (s t : State) (h : turns j s = .next t) : turns (j + k) s = turns k t := by
  induction j generalizing s with
  | zero => cases h; rw [Nat.zero_add]
  | succ j ih =>
    rw [Nat.add_right_comm]
    rw [turns] at h ⊢
    cases hs : step s with
    | next u => rw [hs] at h; exact ih u h
    | fault f => rw [hs] at h; cases h
    | refused r => rw [hs] at h; cases h

/-- With no command in progress a word write to CMD is an issue, answered OKAY (20 R48). -/
theorem busWrite_cmd (w : Word) {s : State} (h : s.cur = none) :
    busWrite 0x0008#14 .word w s = issueWord w { s with answer := some (.wrote .okay) } := by
  have hw : writeAccess 0x0008#14 .word s = .ok .cmd := by
    simp [writeAccess, access, busy, h, show regAt 8 = some .cmd by decide, writable]
  rw [busWrite, hw]
  rfl

/-- The opcode of a decoded command is the field OP of its word (30 R63, R64). -/
theorem opcode_of_decode {w : Word} {i : Instr} (h : decode w = .ok i) : opcode i = opField w := by
  unfold decode at h
  split at h
  · split at h
    · cases h
      rename_i ho
      unfold commandOfOp at ho
      split at ho <;> cases ho <;> (rename_i hn; apply BitVec.eq_of_toNat_eq; rw [hn]; rfl)
    · cases h
  · cases h

end Sys2Proof.Machine
end

