-- ==== Sys2Proof/Laws/Tree.lean ====
section
/-! SUPPORT. What the list, the queues and the tree operations do, once each. -/

namespace Sys2Proof.Machine

/-- Writing a list from an index: the list there, the old elements elsewhere. -/
theorem writeFrom_getElem? {α : Type} {n : Nat} (v : Vector α n) (k : Nat) (l : List α) (i : Nat) :
    (writeFrom v k l)[i]? = if k ≤ i ∧ i < k + l.length ∧ i < n then l[i - k]? else v[i]? := by
  induction l generalizing v k with
  | nil => simp [writeFrom]; omega
  | cons a l ih =>
    rw [writeFrom, ih]
    by_cases hi : i = k
    · subst hi
      by_cases hn : i < n
      · simp [hn]
      · simp [hn]
    · rw [Vector.getElem?_setIfInBounds_ne (Ne.symm hi)]
      by_cases hk : k ≤ i
      · obtain ⟨j, rfl⟩ : ∃ j, i = k + 1 + j := ⟨i - (k + 1), by omega⟩
        have e : k + 1 + j - k = j + 1 := by omega
        simp only [e, List.getElem?_cons_succ, List.length_cons, Nat.add_sub_cancel_left]
        congr 1
        simp; omega
      · simp [hk, show ¬k + 1 ≤ i by omega]

/-- The symbols are all there, once each. -/
theorem mem_symbols (x : Sym) : x ∈ symbols := by
  simp only [symbols, List.mem_map, List.mem_range]
  exact ⟨x.toNat, x.isLt, by simp⟩

theorem symbols_nodup : symbols.Nodup := by
  refine List.Nodup.map_on (fun a ha b hb h => ?_) List.nodup_range
  have h' := congrArg BitVec.toNat h
  simp only [List.mem_range] at ha hb
  simpa [Nat.mod_eq_of_lt ha, Nat.mod_eq_of_lt hb] using h'

/-- The counted entries: the symbols of nonzero count with their counts (42 R90). -/
theorem mem_countedEntries {freq : Vector Word 128} {x : Sym} {n : Word} :
    (x, n) ∈ countedEntries freq ↔ n = freqAt freq x ∧ n ≠ 0#32 := by
  simp only [countedEntries, List.mem_filterMap]
  constructor
  · rintro ⟨y, _, h⟩
    split at h
    · cases h
    · cases h; exact ⟨rfl, ‹_›⟩
  · rintro ⟨rfl, h⟩
    exact ⟨x, mem_symbols x, by simp [h]⟩

theorem insertEntry_perm (e : Sym × Word) (l : List (Sym × Word)) : (insertEntry e l).Perm (e :: l) := by
  induction l with
  | nil => exact .refl _
  | cons e' l ih =>
    unfold insertEntry
    split
    · exact .refl _
    · exact (ih.cons e').trans (.swap e e' l)

/-- Sorting only reorders (42 R91). -/
theorem sortEntries_perm (l : List (Sym × Word)) : (sortEntries l).Perm l := by
  induction l with
  | nil => exact .refl _
  | cons e l ih => exact (insertEntry_perm e _).trans (ih.cons e)

theorem entryBefore_iff (e e' : Sym × Word) :
    entryBefore e e' = true ↔ e.2.toNat < e'.2.toNat ∨ (e.2 = e'.2 ∧ e.1.toNat < e'.1.toNat) := by
  simp [entryBefore]

/-- The order of 42 R91 is total on entries of distinct symbols. -/
theorem entryBefore_total {e e' : Sym × Word} (h : e.1 ≠ e'.1) (hn : entryBefore e e' ≠ true) :
    entryBefore e' e = true := by
  rw [Ne, entryBefore_iff] at hn
  rw [entryBefore_iff]
  have h1 : e.1.toNat ≠ e'.1.toNat := fun he => h (BitVec.eq_of_toNat_eq he)
  by_cases h2 : e.2.toNat = e'.2.toNat
  · have := BitVec.eq_of_toNat_eq h2
    refine .inr ⟨this.symm, ?_⟩
    have : ¬e.1.toNat < e'.1.toNat := fun hl => hn (.inr ⟨this, hl⟩)
    omega
  · exact .inl (by by_contra hc; exact hn (.inl (by omega)))

theorem entryBefore_trans {a b c : Sym × Word} (h : entryBefore a b = true) (h' : entryBefore b c = true) :
    entryBefore a c = true := by
  rw [entryBefore_iff] at h h' ⊢
  rcases h with h | ⟨e, h⟩ <;> rcases h' with h' | ⟨e', h'⟩
  · exact .inl (by omega)
  · exact .inl (by rw [← e']; exact h)
  · exact .inl (by rw [e]; exact h')
  · exact .inr ⟨e.trans e', by omega⟩

theorem insertEntry_sorted {e : Sym × Word} {l : List (Sym × Word)}
    (hs : l.Pairwise fun a b => entryBefore a b = true) (hd : ∀ e' ∈ l, e.1 ≠ e'.1) :
    (insertEntry e l).Pairwise fun a b => entryBefore a b = true := by
  induction l with
  | nil => simp [insertEntry]
  | cons e' l ih =>
    rw [List.pairwise_cons] at hs
    unfold insertEntry
    split
    · rename_i hb
      refine List.pairwise_cons.2 ⟨?_, List.pairwise_cons.2 hs⟩
      intro a ha
      rcases List.mem_cons.1 ha with rfl | ha
      · exact hb
      · exact entryBefore_trans hb (hs.1 a ha)
    · rename_i hb
      refine List.pairwise_cons.2 ⟨?_, ih hs.2 fun a ha => hd a (List.mem_cons_of_mem _ ha)⟩
      intro a ha
      rcases List.mem_cons.1 ((insertEntry_perm e l).mem_iff.1 ha) with rfl | ha
      · exact entryBefore_total (hd e' List.mem_cons_self) hb
      · exact hs.1 a ha

/-- A list of distinct symbols comes out strictly ascending in the order of 42 R91. -/
theorem sortEntries_sorted {l : List (Sym × Word)} (hd : (l.map Prod.fst).Nodup) :
    (sortEntries l).Pairwise fun a b => entryBefore a b = true := by
  induction l with
  | nil => exact List.Pairwise.nil
  | cons e l ih =>
    rw [List.map_cons, List.nodup_cons] at hd
    refine insertEntry_sorted (ih hd.2) fun e' he' h => ?_
    exact hd.1 (h ▸ List.mem_map_of_mem ((sortEntries_perm l).mem_iff.1 he'))

/-- `dq` never touches the node array or the next free index, and takes a node unless both queues are empty (42 R94). -/
theorem dq_frame (l : Nat) (q : MergeState) :
    (dq l q).2.node = q.node ∧ (dq l q).2.nxt = q.nxt ∧ ((dq l q).1 = none ↔ q.tgt = [] ∧ ¬q.sh < l) := by
  unfold dq
  split
  · rename_i he
    by_cases h : q.sh < l <;> simp [h, he]
  · rename_i he
    by_cases h : q.sh < l
    · simp only [h, if_true]
      split <;> simp
    · simp [h, he]

/-- One more step of a path (45 R118). -/
theorem descend_append (t : Nodes) (n : NodeIx) (p q : BitString) :
    descend t n (p ++ q) = (descend t n p).bind fun m => descend t m q := by
  induction p generalizing n with
  | nil => rfl
  | cons x p ih =>
    simp only [List.cons_append, descend]
    cases nodeAt t n with
    | none => rfl
    | some r => by_cases h : r.leaf = true <;> simp [h, ih]

/-- The walk over two bit strings is the walk over the first, then over the second (45 R119). -/
theorem walk_append (t : Nodes) (root n : NodeIx) (k : Nat) (p q : BitString) :
    walk t root n k (p ++ q) =
      ((walk t root n k p).1 ++ (walk t root (walk t root n k p).2.1 (walk t root n k p).2.2 q).1,
        (walk t root (walk t root n k p).2.1 (walk t root n k p).2.2 q).2) := by
  induction p generalizing n k with
  | nil => rfl
  | cons x p ih =>
    simp only [List.cons_append, walk]
    split
    · rw [ih]; rfl
    · rw [ih]

end Sys2Proof.Machine
end

