-- ==== Sys2Proof/Tests/Slice0.lean ====
section
/-! SUPPORT. The model's own tests, from the spec's vectors (95), and a witness for the hypotheses of every statement. -/

namespace Sys2Proof.Tests

open Sys2Proof.Machine

set_option Elab.async false

/-! ### Well-formedness: an ill-formed word and an ill-formed ROM for each check -/

theorem test_word_rsv_not_clear : wellFormedWord 0x00000012#32 = false := by decide
theorem test_word_top_rsv_bit : wellFormedWord 0x80000002#32 = false := by decide
theorem test_word_op_zero : wellFormedWord 0x00000000#32 = false := by decide
theorem test_word_op_seven : wellFormedWord 0x00000007#32 = false := by decide
theorem test_word_op_six : wellFormedWord 0x00000006#32 = true := by decide

/-- A leaf record. -/
def leafRec (x : Sym) (w : Word) : NodeRec :=
  { valid := true, leaf := true, sym := x, left := 0#8, right := 0#8, weight := w }

/-- An internal record. -/
def innerRec (l r : NodeIx) (w : Word) : NodeRec :=
  { valid := true, leaf := false, sym := 0#7, left := l, right := r, weight := w }

/-- The five node records of vector S-1. -/
def s1Records : List NodeRec :=
  [leafRec 0x61#7 2#32, leafRec 0x62#7 3#32, leafRec 0x63#7 4#32, innerRec 0#8 1#8 5#32, innerRec 2#8 3#8 9#32]

/-- Node records from index 0, all else zero. -/
def nodesOf (l : List NodeRec) : Nodes := writeFrom (Vector.replicate 255 zeroNode) 0 l

/-- NODE of vector S-1. -/
def s1Nodes : Nodes := nodesOf s1Records

/-- A ROM from records. -/
def romOf (nn root : NodeIx) (l : List NodeRec) : RomData := { nnodes := nn, root := root, nodes := nodesOf l }

theorem test_rom_s1_wf : wfRom (romOf 5#8 4#8 s1Records) = true := by decide +kernel
theorem test_rom_two_nodes : wfRom (romOf 2#8 1#8 [leafRec 0#7 0#32, innerRec 0#8 0#8 0#32]) = false := by decide +kernel
theorem test_rom_root_outside : wfRom (romOf 5#8 5#8 s1Records) = false := by decide +kernel
theorem test_rom_leaf_root : wfRom (romOf 5#8 0#8 s1Records) = false := by decide +kernel
theorem test_rom_child_outside :
    wfRom (romOf 3#8 2#8 [leafRec 0#7 0#32, leafRec 1#7 0#32, innerRec 0#8 3#8 0#32]) = false := by decide +kernel
theorem test_rom_leaf_with_child :
    wfRom (romOf 3#8 2#8 [{ leafRec 0#7 0#32 with left := 1#8 }, leafRec 1#7 0#32, innerRec 0#8 1#8 0#32]) = false := by
  decide +kernel
theorem test_rom_invalid_node :
    wfRom (romOf 3#8 2#8 [{ leafRec 0#7 0#32 with valid := false }, leafRec 1#7 0#32, innerRec 0#8 1#8 0#32]) = false := by
  decide +kernel
theorem test_rom_shared_node :
    wfRom (romOf 3#8 2#8 [leafRec 0#7 0#32, leafRec 1#7 0#32, innerRec 0#8 0#8 0#32]) = false := by decide +kernel
theorem test_rom_cycle :
    wfRom (romOf 3#8 2#8 [leafRec 0#7 0#32, leafRec 1#7 0#32, innerRec 0#8 2#8 0#32]) = false := by decide +kernel
theorem test_rom_entry_above : wfRom (romOf 3#8 2#8 [leafRec 0#7 0#32, leafRec 1#7 0#32, innerRec 0#8 1#8 0#32,
    leafRec 2#7 0#32]) = false := by decide +kernel

/-! ### Decoding: the words of 30 R64 written out bit by bit, and the illegal words of 95 section 2 -/

theorem test_word_clear : decode 0b00000000000000000000000000000001#32 = .ok .clear := by decide
theorem test_word_count : decode 0b00000000000000000000000000000010#32 = .ok .count := by decide
theorem test_word_build_tree : decode 0b00000000000000000000000000000011#32 = .ok .buildTree := by decide
theorem test_word_build_table : decode 0b00000000000000000000000000000100#32 = .ok .buildTable := by decide
theorem test_word_encode : decode 0b00000000000000000000000000000101#32 = .ok .encode := by decide
theorem test_word_decode : decode 0b00000000000000000000000000000110#32 = .ok .decode := by decide
theorem test_word_illegal_zero : decode 0#32 = .error .unnamedOpcode := by decide
theorem test_word_illegal_fifteen : decode 0xF#32 = .error .unnamedOpcode := by decide
theorem test_word_illegal_rsv : decode 0x12#32 = .error .reservedBits := by decide
theorem test_table_word : decodeTableWord 32 6 = some .decode := by decide
theorem test_table_word_rsv : decodeTableWord 32 0x80000002 = none := by decide

/-! ### Example states -/

/-- TREE_ROM of vector T-DEC-12. -/
def s1Rom : TreeRom := ⟨romOf 5#8 4#8 s1Records, test_rom_s1_wf⟩

/-- Reset with the ROM of T-DEC-12. -/
def base : State := { State.reset with rom := s1Rom }

/-- FREQ of "aabbbcccc". -/
def s1Freq : Vector Word 128 :=
  (((Vector.replicate 128 0#32).set 0x61 2#32).set 0x62 3#32).set 0x63 4#32

/-- After COUNT of "aabbbcccc" (vector S-1). -/
def counted : State := { base with freq := s1Freq, total := 9#32, phase := .freqDone }

/-- After BUILD_TREE of S-1. -/
def treeOf : State :=
  { counted with node := s1Nodes, nsym := 3#8, nnodes := 5#8, root := 4#8, phase := .treeBuilt }

/-- CODE of S-1: a "10", b "11", c "0". -/
def s1Code : Vector CodeEntry 128 :=
  (((Vector.replicate 128 zeroCode).set 0x61 { valid := true, len := 2#7, val := 2#127 }).set 0x62
    { valid := true, len := 2#7, val := 3#127 }).set 0x63 { valid := true, len := 1#7, val := 0#127 }

/-- After BUILD_TABLE of S-1. -/
def tabled : State := { treeOf with code := s1Code, bitlen := 14#64, pad := 2#4, phase := .tableReady }

/-- A command record with `rem` bytes to take. -/
def curOf (i : Instr) (rem : Word) : Cur :=
  { op := i, rem := rem, err := .none, tsrc := false, acc := [], first := true, wnode := 4#8, pend := 0#8 }

/-- `s` with a command in progress. -/
def running (s : State) (i : Instr) (rem : Word) : State := { s with cur := some (curOf i rem) }

/-- The next state, if there is one. -/
def nextOf (o : Host.Outcome State Fault Refusal) : Option State :=
  match o with
  | .next t => some t
  | _ => none

/-- STATUS after a step. -/
def statusAfter (o : Host.Outcome State Fault Refusal) : Option Word := (nextOf o).map statusWord

/-! ### The commands, from 95 -/

/-- T-BT-8: CLEAR from TABLE_READY. -/
theorem test_clear : (nextOf (exec .clear { running tabled .clear 0#32 with lastcmd := 1#4 })).map
    (fun t => (statusWord t, freqAt t.freq 0x61#7, nodeAt t.node 4#8)) =
    some (0x1002#32, 0#32, some zeroNode) := by decide +kernel

/-- T-ENC-1: the CLEAR word is accepted in IDLE. -/
theorem test_clear_issue : statusAfter (step (base.withFetchWord 32 1)) = some 0x1001#32 := by decide +kernel

/-- 41 R85: 0x7F, the last symbol, is counted. -/
theorem test_count_last_symbol :
    (nextOf (exec .count { running base .count 2#32 with inq := [0x7F#8, 0x61#8] })).map
      (fun t => (freqAt t.freq 0x7F#7, t.total, t.inConsumed, t.inq)) = some (1#32, 1#32, 1#32, [0x61#8]) := by
  decide +kernel

/-- T-CNT-3: 0x80 is out of range, and is taken. -/
theorem test_count_range :
    (nextOf (exec .count { running base .count 2#32 with inq := [0x80#8] })).map
      (fun t => (t.cur.map (·.err), t.cur.map (·.rem), t.total, t.inq)) =
      some (some .range, some 1#32, 0#32, []) := by decide +kernel

/-- S-1: BUILD_TREE of "aabbbcccc". -/
theorem test_build_tree :
    (nextOf (exec .buildTree (running counted .buildTree 0#32))).map
      (fun t => ((List.range 6).map fun n => recAt t.node (BitVec.ofNat 8 n), t.nsym, t.nnodes, t.root, t.phase)) =
      some (s1Records ++ [zeroNode], 3#8, 5#8, 4#8, .treeBuilt) := by decide +kernel

/-- S-4: one counted symbol 0x7F gets the injected 0x00. T-TREE-5: a tie between the two heads goes to the source. T-BT-1:
PHASE_ERR in IDLE. -/
theorem test_build_tree_corners :
    frequencyList ((Vector.replicate 128 0#32).set 127 1#32) = [(0#7, 0#32), (0x7F#7, 1#32)] ∧
    (twoQueue [(0x61#7, 1#32), (0x62#7, 1#32), (0x63#7, 2#32)]).node[4] = innerRec 2#8 3#8 4#32 ∧
    statusAfter (step (base.withFetchWord 32 3)) = some 0x3206#32 := by decide +kernel

/-- S-1: BUILD_TABLE. -/
theorem test_build_table :
    (nextOf (exec .buildTable (running treeOf .buildTable 0#32))).map
      (fun t => (t.code, t.bitlen, t.pad, t.phase)) = some (s1Code, 14#64, 2#4, .tableReady) := by decide +kernel

/-- T-BT-6: BUILD_TABLE is rejected in FREQ_DONE. -/
theorem test_build_table_phase : statusAfter (step (counted.withFetchWord 32 4)) = some 0x4216#32 := by decide +kernel

/-- 44 R108, R109: with the prefix "01" held, the code "10" of a leaves 4 bits held. -/
theorem test_encode_beat :
    (nextOf (exec .encode { tabled with
        inq := [0x61#8],
        cur := some { curOf .encode 1#32 with acc := prefixFor 2 ++ [true, false, true, true] } })).map
      (fun t => (t.outq, t.outCount, t.cur.map (·.acc))) = some ([0x6E#8], 1#64, some []) := by decide +kernel

/-- T-ENC-E4: bits left over at the end are LENGTH, and are not emitted. -/
theorem test_encode_length :
    (nextOf (exec .encode { tabled with
        cur := some { curOf .encode 0#32 with acc := [false, true, true] }, lastcmd := 5#4 })).map
      (fun t => (statusWord t, t.outq)) = some (0x5636#32, []) := by decide +kernel

/-- T-DEC-1: the first byte 0x6B walks "101011": a, a, b. -/
theorem test_decode_beat :
    (nextOf (exec .decode { running base .decode 2#32 with inq := [0x6B#8, 0xF0#8] })).map
      (fun t => (t.outq, t.cur.map (·.wnode), t.cur.map (·.pend))) =
      some ([0x61#8, 0x61#8, 0x62#8], some 4#8, some 0#8) := by decide +kernel

/-- T-DEC-7: one bit left over is TRAILING with TRAIL 1. -/
theorem test_decode_trailing :
    (nextOf (exec .decode { tabled with cur := some { curOf .decode 0#32 with pend := 1#8 }, lastcmd := 6#4 })).map
      (fun t => (statusWord t, t.trail)) = some (0x6736#32, 1#8) := by decide +kernel

/-! ### The bus and reset, from 95 section 3 and 9 -/

/-- The answer to a read. -/
def readAnswer (a : Addr) (n : AccessSize) (s : State) : Option Answer := (busRead a n s).answer

theorem test_bus_id : readAnswer 0x0000#14 .word base = some (.read .okay 0x48554637#32) := by decide
theorem test_bus_misaligned : readAnswer 0x0002#14 .word base = some (.read .slverr 0#32) := by decide
theorem test_bus_gap : readAnswer 0x0FF8#14 .word base = some (.read .slverr 0#32) := by decide
theorem test_bus_code_gap : readAnswer 0x1014#14 .word base = some (.read .slverr 0#32) := by decide
theorem test_bus_node : readAnswer 0x0820#14 .word treeOf = some (.read .okay 0x80000302#32) := by decide +kernel
theorem test_bus_rom : readAnswer 0x2000#14 .word base = some (.read .okay 0xC0610000#32) := by decide +kernel
theorem test_bus_code : readAnswer 0x1C20#14 .word tabled = some (.read .okay 0x80000002#32) := by decide +kernel
theorem test_bus_code_value : readAnswer 0x1C44#14 .word tabled = some (.read .okay 0x00000003#32) := by decide +kernel

/-- T-BUS-14: CTRL keeps two bits. -/
theorem test_bus_ctrl :
    (nextOf (busWrite 0x0004#14 .word 0xFFFFFFFF#32 base)).map ctrlWord = some 0x3#32 := by decide

/-- T-BUS-15: only DONE is cleared. -/
theorem test_bus_status :
    (nextOf (busWrite 0x000C#14 .word 0xFFFFFFFF#32 { base with done := true, errcode := .illegalCmd })).map statusWord =
      some 0x104#32 := by decide

/-- T-ENC-11: an illegal word is OKAY on the bus and ILLEGAL_CMD in STATUS. -/
theorem test_illegal_word : statusAfter (step (base.withFetchWord 32 0x12)) = some 0x2106#32 := by decide +kernel

/-- T-RST-1: the bytes "cd" stay offered after a reset, and the host withdraws the rest of the frame, one byte here. -/
theorem test_withdraw :
    (nextOf (step { base with inq := [0x63#8, 0x64#8, 0x78#8], abandoned := 2, host := [.withdraw] })).map
      (fun t => (t.inq, t.abandoned)) = some ([0x64#8, 0x78#8], 1) ∧
    (nextOf (step { running base .count 2#32 with inq := [0x63#8], host := [.rstFall] })).map
      (fun t => (t.inq, t.abandoned, t.cur, statusWord t)) = some ([0x63#8], 2, none, 0#32) := by decide +kernel

/-- T-RST-2 in part: reset clears TSRC, IRQ_EN and the tree. -/
theorem test_reset :
    (nextOf (step { tabled with tsrc := true, irqEn := true, host := [.rstFall] })).map
      (fun t => (ctrlWord t, statusWord t, t.nnodes, nodeAt t.node 4#8)) =
      some (0#32, 0#32, 0#8, some zeroNode) := by decide +kernel

/-! ### Witnesses: for each statement with hypotheses, a state and operands that meet them -/

/-- A next state that the computation shows. -/
theorem next_of_isSome {o : Host.Outcome State Fault Refusal} (h : (nextOf o).isSome = true) : ∃ t, o = .next t := by
  cases o with
  | next t => exact ⟨t, rfl⟩
  | fault f => cases h
  | refused r => cases h

/-- A next state with a property that the computation shows. -/
theorem next_of_check {o : Host.Outcome State Fault Refusal} {p : State → Bool} (h : (nextOf o).map p = some true) :
    ∃ t, o = .next t ∧ p t = true := by
  cases o with
  | next t => exact ⟨t, rfl, by simpa [nextOf] using h⟩
  | fault f => cases h
  | refused r => cases h

/-- `s` with one move to come. -/
def moving (s : State) (m : HostMove) : State := { s with host := [m] }

/-! The tree of S-1: its root paths. -/

theorem s1_node0 : nodeAt s1Nodes 0#8 = some (leafRec 0x61#7 2#32) := by decide +kernel
theorem s1_node1 : nodeAt s1Nodes 1#8 = some (leafRec 0x62#7 3#32) := by decide +kernel
theorem s1_node2 : nodeAt s1Nodes 2#8 = some (leafRec 0x63#7 4#32) := by decide +kernel
theorem s1_node3 : nodeAt s1Nodes 3#8 = some (innerRec 0#8 1#8 5#32) := by decide +kernel
theorem s1_node4 : nodeAt s1Nodes 4#8 = some (innerRec 2#8 3#8 9#32) := by decide +kernel

/-- The leaf paths of a tree with the five nodes of S-1. -/
theorem paths_of_s1 {t : Nodes} (h0 : nodeAt t 0#8 = some (leafRec 0x61#7 2#32))
    (h1 : nodeAt t 1#8 = some (leafRec 0x62#7 3#32)) (h2 : nodeAt t 2#8 = some (leafRec 0x63#7 4#32))
    (h3 : nodeAt t 3#8 = some (innerRec 0#8 1#8 5#32)) (h4 : nodeAt t 4#8 = some (innerRec 2#8 3#8 9#32))
    {p : BitString} {x : Sym} (h : LeafPath t 4#8 p x) :
    (p = [false] ∧ x = 0x63#7) ∨ (p = [true, false] ∧ x = 0x61#7) ∨ (p = [true, true] ∧ x = 0x62#7) := by
  obtain ⟨n, r, hd, hn, hl, rfl⟩ := h
  rcases p with _ | ⟨_ | _, _ | ⟨_ | _, _ | ⟨y, q⟩⟩⟩ <;>
    simp [descend, h2, h3, h4, h0, h1, innerRec, leafRec] at hd <;> subst hd <;>
    simp only [h0, h1, h2, h3, h4, Option.some.injEq] at hn <;> subst hn <;> simp_all [innerRec, leafRec]

/-- The leaf paths of S-1 are the codes that 95 lists for it. -/
theorem s1_paths {p : BitString} {x : Sym} (h : LeafPath s1Nodes 4#8 p x) :
    (p = [false] ∧ x = 0x63#7) ∨ (p = [true, false] ∧ x = 0x61#7) ∨ (p = [true, true] ∧ x = 0x62#7) :=
  paths_of_s1 s1_node0 s1_node1 s1_node2 s1_node3 s1_node4 h

theorem s1_distinct : DistinctLeaves s1Nodes 4#8 := by
  intro p q x hp hq
  rcases s1_paths hp with ⟨rfl, rfl⟩ | ⟨rfl, rfl⟩ | ⟨rfl, rfl⟩ <;>
    rcases s1_paths hq with ⟨rfl, h⟩ | ⟨rfl, h⟩ | ⟨rfl, h⟩ <;> first | rfl | (revert h; decide)

theorem s1_wf : wfTree s1Nodes 5#8 4#8 = true := by decide +kernel
theorem s1_traverse : traverse s1Nodes 4#8 = .ok s1Code := by decide +kernel

/-! Command words and the register map. -/

theorem wit_EveryWordIsACommandOrIllegal_words :
    (rsvField 1#32 = 0#28 ∧ 1 ≤ (opField 1#32).toNat ∧ (opField 1#32).toNat ≤ 6) ∧
    (rsvField 6#32 = 0#28 ∧ 1 ≤ (opField 6#32).toNat ∧ (opField 6#32).toNat ≤ 6) ∧
    (rsvField 0#32 = 0#28 ∧ ¬(1 ≤ (opField 0#32).toNat ∧ (opField 0#32).toNat ≤ 6)) ∧
    (rsvField 7#32 = 0#28 ∧ ¬(1 ≤ (opField 7#32).toNat ∧ (opField 7#32).toNat ≤ 6)) ∧
    rsvField 0x10#32 ≠ 0#28 ∧ rsvField 0x80000001#32 ≠ 0#28 := by decide
theorem wit_EveryWordIsACommandOrIllegal_step :
    let s := moving base (.write 0x0008#14 .word 0x12#32)
    s.rstN = true ∧ s.cur = none ∧ s.host = .write 0x0008#14 .word 0x12#32 :: [] ∧
      decode 0x12#32 = .error .reservedBits := by decide +kernel
theorem wit_CommandWordsRoundTrip : decode 6#32 = .ok .decode := by decide
theorem wit_RegisterMapRoundTrip_mapped :
    regAt 0x44 = some .romRoot ∧ regAt 0x200 = some (.freq 0) ∧ regAt 0x3FC = some (.freq 127) ∧
    regAt 0x400 = some (.listW0 0) ∧ regAt 0x7FC = some (.listW1 127) ∧ regAt 0xFF4 = some (.nodeW1 254) ∧
    regAt 0x1010 = some (.code 0 4) ∧ regAt 0x1FF0 = some (.code 127 4) ∧ regAt 0x27F4 = some (.romW1 254) := by
  decide
theorem wit_RegisterMapRoundTrip_reserved :
    regAt 0x48 = none ∧ regAt 0x1FC = none ∧ regAt 0xFF8 = none ∧ regAt 0xFFC = none ∧ regAt 0x1014 = none ∧
    regAt 0x1FFC = none ∧ regAt 0x27F8 = none ∧ regAt 0x3FFC = none := by decide
theorem wit_ListAndCodeWords : (0 : Nat) < (treeOf.code[0x61]).len.toNat ∨ (1 : Nat) < (tabled.code[0x61]).len.toNat := by
  decide +kernel

/-! Steps. -/

theorem wit_StepRunsTheWrittenCommand :
    let s := moving base (.write 0x0008#14 .word 1#32)
    s.rstN = true ∧ s.cur = none ∧ s.host = .write 0x0008#14 .word 1#32 :: [] ∧ decode 1#32 = .ok .clear := by
  decide +kernel
theorem wit_StepRunsTheCommandInProgress :
    let s := running base .clear 0#32
    s.rstN = true ∧ s.cur = some (curOf .clear 0#32) ∧ s.host = [] ∧ (moving s .core).host = .core :: [] := by
  decide +kernel
theorem wit_WaitingChangesNothing :
    let s := running base .count 1#32
    s.cur = some (curOf .count 1#32) ∧ (curOf .count 1#32).rem ≠ 0#32 ∧ s.inq = [] ∧ base.cur = none ∧ base.host = [] := by
  decide +kernel
theorem wit_OnlyACmdWriteStartsACommand :
    (base.withFetchWord 32 1).cur = none ∧
      ∃ t, step (base.withFetchWord 32 1) = .next t ∧ decide (t.cur ≠ none) = true :=
  ⟨rfl, next_of_check (by decide +kernel)⟩
theorem wit_OnlyCompletionOrResetEndsACommand :
    (∃ t, step (running base .clear 0#32) = .next t ∧ decide (t.cur = none) = true) ∧
      ∃ t, step (moving (running base .clear 0#32) .rstFall) = .next t ∧ decide (t.cur = none) = true :=
  ⟨next_of_check (by decide +kernel), next_of_check (by decide +kernel)⟩

/-! Issue. -/

theorem wit_IssueErrorsChangeOnlyStatus :
    (base.cur = none ∧ base.phase = .idle ∧ base.phase ≠ .tableReady) ∧
    (let s := { base with phase := .freqDone }
     s.cur = none ∧ s.phase ≠ .idle ∧ s.total = 0#32 ∧ s.phase = .freqDone) ∧
    (treeOf.cur = none ∧ treeOf.phase ≠ .tableReady) ∧
    let s := { counted with tsrc := true }
    s.cur = none ∧ s.tsrc = true ∧ s.phase = .freqDone := by decide +kernel
theorem wit_IssueErrorsChangeOnlyStatus_step :
    (let s := moving base (.write 0x0008#14 .word 0x80000001#32)
     s.rstN = true ∧ s.cur = none ∧ s.host = .write 0x0008#14 .word 0x80000001#32 :: [] ∧
       decode 0x80000001#32 = .error .reservedBits) ∧
    let s := moving base (.write 0x0008#14 .word 5#32)
    s.rstN = true ∧ s.cur = none ∧ s.host = .write 0x0008#14 .word 5#32 :: [] ∧ decode 5#32 = .ok .encode ∧
      issueCheck .encode s ≠ .none := by decide +kernel
theorem wit_AcceptedIssueStartsTheCommand :
    (base.cur = none ∧ base.tsrc = false) ∧ (counted.cur = none ∧ counted.phase ≠ .idle ∧ counted.total ≠ 0#32) ∧
    (treeOf.cur = none ∧ treeOf.phase = .treeBuilt) ∧ tabled.cur = none ∧ tabled.phase = .tableReady := by decide +kernel

/-! CLEAR and COUNT. -/

theorem wit_ClearClearsTheDataPath :
    AtEnd (running tabled .clear 0#32) (curOf .clear 0#32) .clear ∧ tabled.cur = none ∧
      (moving tabled .rstFall).host = .rstFall :: [] := ⟨⟨rfl, rfl, rfl⟩, rfl, rfl⟩

/-- COUNT in progress with one byte to take and one offered. -/
def countAt (b : Byte) (e : ErrCode) : State :=
  { base with cur := some { curOf .count 1#32 with err := e }, inq := [b] }

theorem countAt_byte (b : Byte) (e : ErrCode) : AtByte (countAt b e) { curOf .count 1#32 with err := e } .count b [] :=
  ⟨rfl, rfl, (by decide : (1#32 : Word) ≠ 0#32), rfl⟩
theorem wit_CountBeatCountsTheByte :
    (AtByte (countAt 0x61#8 .range) { curOf .count 1#32 with err := .range } .count 0x61#8 [] ∧
      ({ curOf .count 1#32 with err := .range } : Cur).err ≠ .none) ∧
    (AtByte (countAt 0x80#8 .none) (curOf .count 1#32) .count 0x80#8 [] ∧ 128 ≤ (0x80#8).toNat) ∧
    AtByte (countAt 0x7F#8 .none) (curOf .count 1#32) .count 0x7F#8 [] ∧ (curOf .count 1#32).err = .none ∧
      (0x7F#8).toNat < 128 :=
  ⟨⟨countAt_byte _ _, by decide⟩, ⟨countAt_byte _ .none, by decide⟩, countAt_byte _ .none, by decide, by decide⟩
theorem wit_CountFinishSetsThePhase :
    AtEnd (running base .count 0#32) (curOf .count 0#32) .count ∧
    AtEnd { base with cur := some { curOf .count 0#32 with err := .range } } { curOf .count 0#32 with err := .range } .count :=
  ⟨⟨rfl, rfl, rfl⟩, ⟨rfl, rfl, rfl⟩⟩
theorem wit_CountOfAFrame :
    (Ready { base with inLen := 2#32, inq := [0x7F#8, 0x80#8] } ∧
      [0x7F#8, 0x80#8].length = (2#32).toNat) ∧ Ready base ∧ base.inq = [] ++ [] ∧ base.inLen.toNat = 0 :=
  ⟨⟨⟨rfl, rfl, rfl⟩, by decide⟩, ⟨rfl, rfl, rfl⟩, rfl, by decide +kernel⟩

/-! BUILD_TREE. -/

theorem wit_BuildTreeSortsTheList :
    AtEnd (running counted .buildTree 0#32) (curOf .buildTree 0#32) .buildTree ∧
      ∃ x, freqAt (running counted .buildTree 0#32).freq x ≠ 0#32 :=
  ⟨⟨rfl, rfl, rfl⟩, 0x61#7, by decide +kernel⟩
theorem wit_BuildTreeNumbersTheNodes :
    AtEnd (running counted .buildTree 0#32) (curOf .buildTree 0#32) .buildTree ∧
      ∃ x, freqAt (running counted .buildTree 0#32).freq x ≠ 0#32 := wit_BuildTreeSortsTheList
theorem wit_BuildTreeGivesAStrictTree :
    AtEnd (running counted .buildTree 0#32) (curOf .buildTree 0#32) .buildTree ∧
      ∃ x, freqAt (running counted .buildTree 0#32).freq x ≠ 0#32 := wit_BuildTreeSortsTheList

/-- A queue state over the nodes of S-1. -/
def queueOf (sh : Nat) (tgt : List Nat) : MergeState := { node := s1Nodes, sh := sh, tgt := tgt, nxt := 5 }

theorem wit_DqTakesTheSmallerHead :
    (2 < 3 ∧ (queueOf 2 [3]).tgt = 3 :: [] ∧
      (weightAt (queueOf 2 [3]).node 2).toNat ≤ (weightAt (queueOf 2 [3]).node 3).toNat) ∧
    (1 < 3 ∧ (queueOf 1 [0]).tgt = 0 :: [] ∧
      (weightAt (queueOf 1 [0]).node 0).toNat < (weightAt (queueOf 1 [0]).node 1).toNat) ∧
    ((queueOf 0 []).sh < 3 ∧ (queueOf 0 []).tgt = []) ∧ (¬(queueOf 3 [4]).sh < 3 ∧ (queueOf 3 [4]).tgt = 4 :: []) ∧
    ¬(queueOf 3 []).sh < 3 ∧ (queueOf 3 []).tgt = [] := by decide +kernel
theorem wit_DqTakesTheSmallerHead_turns :
    (queueOf 2 [3]).nxt < 255 ∧
    ((queueOf 2 [3]).sh < 3 ∧ dq 3 (queueOf 2 [3]) = (some 2, queueOf 3 [3]) ∧
      dq 3 (queueOf 3 [3]) = (some 3, queueOf 3 [])) ∧
    ((queueOf 2 []).sh < 3 ∧ dq 3 (queueOf 2 []) = (some 2, queueOf 3 []) ∧ dq 3 (queueOf 3 []) = (none, queueOf 3 [])) ∧
    (queueOf 3 [3, 4]).tgt = 3 :: 4 :: [] := by decide +kernel

/-- The nodes taken for S-1, from NODE as 95 lists it: a, b, then c, then the node of a and b. -/
theorem wit_BuildTreeNumbersTheNodes_pops :
    (List.range (2 * 3 - 2)).map (popped s1Nodes 3) = [0, 1, 2, 3] ∧
    (List.range (2 * 3 - 2)).map (fun j => nextPopped s1Nodes 3 j (leavesPopped s1Nodes 3 j)) = [0, 1, 2, 3] := by
  decide +kernel
theorem counted_counters : CounterInv (running counted .buildTree 0#32) where
  sum := by decide +kernel
  room c h := by cases h; decide +kernel
  frameless c h _ := by cases h; rfl
  counted c h h' := by cases h; cases h'
  framed _ _ _ := rfl
theorem wit_RootWeighsTheTotal :
    AtEnd (running counted .buildTree 0#32) (curOf .buildTree 0#32) .buildTree ∧
      CounterInv (running counted .buildTree 0#32) ∧ (running counted .buildTree 0#32).total ≠ 0#32 :=
  ⟨⟨rfl, rfl, rfl⟩, counted_counters, by decide +kernel⟩

/-! BUILD_TABLE. -/

theorem wit_BuildTableWritesThePaths :
    (AtEnd (running treeOf .buildTable 0#32) (curOf .buildTable 0#32) .buildTable ∧
      wfTree (running treeOf .buildTable 0#32).node 5#8 (running treeOf .buildTable 0#32).root = true) ∧
    (LeafPath s1Nodes 4#8 [true, false] 0x61#7 ∧ ∀ q, LeafPath s1Nodes 4#8 q 0x61#7 → q = [true, false]) ∧
    ∀ p, ¬LeafPath s1Nodes 4#8 p 0x00#7 := by
  have h : LeafPath s1Nodes 4#8 [true, false] 0x61#7 := ⟨0#8, leafRec 0x61#7 2#32, by decide +kernel, s1_node0, rfl, rfl⟩
  refine ⟨⟨⟨rfl, rfl, rfl⟩, s1_wf⟩, ⟨h, fun q hq => s1_distinct _ _ _ hq h⟩, fun p hp => ?_⟩
  rcases s1_paths hp with ⟨_, h⟩ | ⟨_, h⟩ | ⟨_, h⟩ <;> revert h <;> decide
theorem wit_LeafRootGetsTheEmptyCode : nodeAt s1Nodes 0#8 = some (leafRec 0x61#7 2#32) ∧ (leafRec 0x61#7 2#32).leaf = true :=
  ⟨s1_node0, rfl⟩
theorem wit_CodesArePrefixFreeAndComplete :
    (wfTree s1Nodes 5#8 4#8 = true ∧ DistinctLeaves s1Nodes 4#8 ∧ traverse s1Nodes 4#8 = .ok s1Code) ∧
    (codeAt s1Code 0x61#7).valid = true ∧ (codeAt s1Code 0x63#7).valid = true ∧ (0x61#7 : Sym) ≠ 0x63#7 :=
  ⟨⟨s1_wf, s1_distinct, s1_traverse⟩, by decide +kernel, by decide +kernel, by decide⟩
theorem wit_ListedSymbolsHaveCodes :
    (AtEnd (running counted .buildTree 0#32) (curOf .buildTree 0#32) .buildTree ∧
      ∃ x, freqAt (running counted .buildTree 0#32).freq x ≠ 0#32) ∧
    (curOf .buildTable 0#32).op = .buildTable ∧ (curOf .buildTable 0#32).rem = 0#32 :=
  ⟨wit_BuildTreeSortsTheList, rfl, rfl⟩

/-- A prefix-free code of the three symbols of S-1, not the machine's. -/
def otherCode (x : Sym) : BitString :=
  if x = 0x61#7 then [false] else if x = 0x62#7 then [true, false] else [true, true]

theorem wit_BitlenIsLeast :
    (symbols.map fun x => (freqAt s1Freq x).toNat).sum < 2 ^ 32 ∧
    (∃ x y, x ≠ y ∧ freqAt s1Freq x ≠ 0#32 ∧ freqAt s1Freq y ≠ 0#32) ∧
    (twoQueue (frequencyList s1Freq)).tgt = [4] ∧
    traverse (twoQueue (frequencyList s1Freq)).node (BitVec.ofNat 8 4) = .ok s1Code ∧
    ∀ x y, freqAt s1Freq x ≠ 0#32 → freqAt s1Freq y ≠ 0#32 → x ≠ y → ¬otherCode x <+: otherCode y := by
  refine ⟨by decide +kernel, ⟨0x61#7, 0x62#7, by decide +kernel⟩, by decide +kernel, by decide +kernel, ?_⟩
  have key : ∀ x, freqAt s1Freq x ≠ 0#32 → x = 0x61#7 ∨ x = 0x62#7 ∨ x = 0x63#7 := by decide +kernel
  intro x y hx hy hne
  rcases key x hx with rfl | rfl | rfl <;> rcases key y hy with rfl | rfl | rfl <;>
    first | exact absurd rfl hne | decide

/-! ENCODE. -/

theorem wit_PackingTakesEightBitsAtATime :
    ([true, true, true, true, true, true, true] : BitString).length < 8 ∧ 8 ≤ (bitsOf 8 0x5A#8).length ∧ 0 < 8 ∧ 7 < 8 := by
  decide

/-- ENCODE in progress with one byte to take and one offered. -/
def encodeAt (b : Byte) (e : ErrCode) : State :=
  { tabled with cur := some { curOf .encode 1#32 with err := e }, inq := [b] }

theorem encodeAt_byte (b : Byte) (e : ErrCode) : AtByte (encodeAt b e) { curOf .encode 1#32 with err := e } .encode b [] :=
  ⟨rfl, rfl, (by decide : (1#32 : Word) ≠ 0#32), rfl⟩
theorem wit_EncodeBeatPacksTheCode :
    (AtByte (encodeAt 0x61#8 .range) { curOf .encode 1#32 with err := .range } .encode 0x61#8 [] ∧
      ({ curOf .encode 1#32 with err := .range } : Cur).err ≠ .none) ∧
    (AtByte (encodeAt 0x80#8 .none) (curOf .encode 1#32) .encode 0x80#8 [] ∧ 128 ≤ (0x80#8).toNat) ∧
    (AtByte (encodeAt 0x7F#8 .none) (curOf .encode 1#32) .encode 0x7F#8 [] ∧ (0x7F#8).toNat < 128 ∧
      (codeAt (encodeAt 0x7F#8 .none).code ((0x7F#8).setWidth 7)).valid = false) ∧
    AtByte (encodeAt 0x61#8 .none) (curOf .encode 1#32) .encode 0x61#8 [] ∧ (curOf .encode 1#32).err = .none ∧
      (codeAt (encodeAt 0x61#8 .none).code ((0x61#8).setWidth 7)).valid = true :=
  ⟨⟨encodeAt_byte _ _, by decide⟩, ⟨encodeAt_byte _ .none, by decide⟩,
    ⟨encodeAt_byte _ .none, by decide, by decide +kernel⟩, encodeAt_byte _ .none, by decide, by decide +kernel⟩
theorem wit_EncodeBeatPacksTheCode_held :
    (curOf .encode 1#32).acc.length ≤ 8 ∧
    (let c := { curOf .encode 1#32 with acc := prefixFor 8 }
     let s := { tabled with cur := some c, inq := [0x80#8] }
     AtByte s c .encode 0x80#8 [] ∧ c.err = .none ∧ 128 ≤ (0x80#8).toNat ∧ c.acc.length ≤ 8) :=
  ⟨by decide, ⟨rfl, rfl, (by decide : (1#32 : Word) ≠ 0#32), rfl⟩, rfl, by decide, by decide⟩
theorem wit_EncodeFinishChecksTheLength :
    AtEnd (running tabled .encode 0#32) (curOf .encode 0#32) .encode ∧
    AtEnd { tabled with cur := some { curOf .encode 0#32 with err := .noCode } } { curOf .encode 0#32 with err := .noCode }
      .encode := ⟨⟨rfl, rfl, rfl⟩, ⟨rfl, rfl, rfl⟩⟩

/-- "aabbbcccc". -/
def s1Frame : List Byte := [0x61#8, 0x61#8, 0x62#8, 0x62#8, 0x62#8, 0x63#8, 0x63#8, 0x63#8, 0x63#8]

/-- `s` ready for a command over a frame. -/
def offered (s : State) (frame : List Byte) : State :=
  { s with inLen := BitVec.ofNat 32 frame.length, inq := frame }

theorem offered_ready (s : State) (frame : List Byte) (h : Ready s) : Ready (offered s frame) := ⟨h.idle, h.high, h.quiet⟩
theorem tabled_ready : Ready tabled := ⟨rfl, rfl, rfl⟩
theorem wit_EncodeEmitsTheStream :
    (Ready (offered tabled s1Frame) ∧ (offered tabled s1Frame).phase = .tableReady ∧
      (offered tabled s1Frame).pad.toNat = padFor (offered tabled s1Frame).bitlen.toNat ∧
      s1Frame.length = (offered tabled s1Frame).inLen.toNat) ∧
    (s1Frame.takeWhile (packable s1Code) = s1Frame ∧ (s1Frame.flatMap (codeOf s1Code)).length % 8 = 14 % 8) ∧
    Ready (offered tabled [0x80#8]) ∧ [0x80#8].length = (offered tabled [0x80#8]).inLen.toNat ∧
      [0x80#8].takeWhile (packable s1Code) = [] :=
  ⟨⟨offered_ready _ _ tabled_ready, by decide +kernel⟩, by decide +kernel, offered_ready _ _ tabled_ready, by decide +kernel⟩

/-- The corner of log 19: PAD = 8, and the first byte of the frame out of range. -/
theorem wit_EncodeEmitsTheStream_corner :
    let s := offered { tabled with bitlen := 16#64, pad := 8#4 } [0x80#8]
    Ready s ∧ s.phase = .tableReady ∧ s.pad.toNat = padFor s.bitlen.toNat ∧ [0x80#8].length = s.inLen.toNat ∧
      [0x80#8].takeWhile (packable s.code) = [] ∧ s.pad.toNat = 8 :=
  ⟨offered_ready _ _ ⟨rfl, rfl, rfl⟩, by decide +kernel⟩

/-! DECODE. -/

theorem wit_PayloadBitsFollowTheSentinel :
    (7 < 8 ∧ (0x80#8).getLsbD 7 = true ∧ ∀ q, 7 < q → (0x80#8).getLsbD q = false) ∧
    (0 < 8 ∧ (0x01#8).getLsbD 0 = true ∧ ∀ q, 0 < q → (0x01#8).getLsbD q = false) := by
  refine ⟨⟨by decide, by decide, fun q h => ?_⟩, by decide, by decide, fun q h => ?_⟩
  · exact BitVec.getLsbD_of_ge _ _ h
  · rcases Nat.lt_or_ge q 8 with h' | h'
    · interval_cases q <;> decide
    · exact BitVec.getLsbD_of_ge _ _ h'
theorem s1_rootInternal : InternalAt s1Nodes 4#8 4#8 0 := ⟨[], _, rfl, rfl, s1_node4, rfl⟩
theorem wit_DecodeBeatWalksTheBits :
    let s := { running base .decode 1#32 with inq := [0x6B#8] }
    AtByte s (curOf .decode 1#32) .decode 0x6B#8 [] ∧ wfTree (treeNodes false s) 5#8 (treeRoot false s) = true ∧
      InternalAt (treeNodes false s) (treeRoot false s) (curOf .decode 1#32).wnode (curOf .decode 1#32).pend.toNat :=
  ⟨⟨rfl, rfl, by decide, rfl⟩, s1_wf, s1_rootInternal⟩
theorem wit_DecodeFinishReportsTheTrail : AtEnd (running base .decode 0#32) (curOf .decode 0#32) .decode := ⟨rfl, rfl, rfl⟩
theorem wit_DecodeOfAFrame :
    (Ready (offered base [0x6B#8, 0xF0#8]) ∧ (offered base [0x6B#8, 0xF0#8]).tsrc = false ∧
      wfTree (treeNodes false (offered base [0x6B#8, 0xF0#8])) 5#8 (treeRoot false (offered base [0x6B#8, 0xF0#8])) = true ∧
      [0x6B#8, 0xF0#8].length = (offered base [0x6B#8, 0xF0#8]).inLen.toNat) ∧
    let s := { treeOf with tsrc := true }
    Ready s ∧ s.phase = .treeBuilt ∧ wfTree (treeNodes s.tsrc s) 5#8 (treeRoot s.tsrc s) = true ∧ s.inq = [] ++ [] ∧
      s.inLen.toNat = 0 :=
  ⟨⟨offered_ready _ _ ⟨rfl, rfl, rfl⟩, rfl, s1_wf, by decide⟩, ⟨rfl, rfl, rfl⟩, rfl, s1_wf, rfl, by decide +kernel⟩
theorem wit_WalkOfTheCodes :
    wfTree s1Nodes 5#8 4#8 = true ∧ DistinctLeaves s1Nodes 4#8 ∧ traverse s1Nodes 4#8 = .ok s1Code ∧
      ∀ x ∈ [0x61#7, 0x63#7, 0x62#7], (codeAt s1Code x).valid = true :=
  ⟨s1_wf, s1_distinct, s1_traverse, by decide +kernel⟩
theorem wit_RoundTripOnTheMachine :
    Ready base ∧ base.inq = [] ∧ base.outq = [] ∧ [0x61#8] ≠ [] ∧ (∀ b ∈ [0x61#8], b.toNat < 128) ∧
      ∃ t, turns (encodeScript [0x61#8]).length { base with host := encodeScript [0x61#8] } = .next t ∧
        decide (t.outq.length < 2 ^ 32) = true :=
  ⟨⟨rfl, rfl, rfl⟩, rfl, rfl, by decide, by decide, next_of_check (by decide +kernel)⟩

/-! Errors and whole-machine rules. -/

/-- The ROM that equals NODE after BUILD_TREE of "a". -/
def ownRom : RomData := romOf 3#8 2#8 [leafRec 0x62#7 0#32, leafRec 0x61#7 1#32, innerRec 0#8 1#8 1#32]

theorem ownRom_wf : wfRom ownRom = true := by decide +kernel
theorem wit_RoundTripOnTheMachine_rom :
    let s := { base with rom := ⟨ownRom, ownRom_wf⟩ }
    ∃ t, turns (encodeScript [0x61#8]).length { s with host := encodeScript [0x61#8] } = .next t ∧
      decide (t.rom.val.nodes = t.node ∧ t.rom.val.root = t.root) = true := next_of_check (by decide +kernel)
theorem wit_FirstErrorWins :
    ErrCode.range ≠ .none ∧ (curOf .count 0#32).err = .none ∧ ({ curOf .count 0#32 with err := .range } : Cur).err ≠ .none := by
  decide
theorem wit_EncodeAndDecodeKeepTheDataPath : (∃ t, exec .encode tabled = .next t) ∧ ∃ t, exec .decode base = .next t :=
  ⟨next_of_isSome (by decide +kernel), next_of_isSome (by decide +kernel)⟩
theorem wit_RomAndIdAreConstant :
    (∃ t, step base = .next t) ∧ (readReg .romNnodes base).toNat ≤ (5 : Fin 255).val :=
  ⟨next_of_isSome (by decide +kernel), by decide +kernel⟩
theorem wit_StreamsKeepTheirOrder :
    (∃ t, step (moving { base with outq := [0x61#8] } .take) = .next t) ∧
      ∀ rest, (moving { base with outq := [0x61#8] } .take).host ≠ .rstFall :: rest :=
  ⟨next_of_isSome (by decide +kernel), fun rest h => by cases h⟩
theorem wit_StreamsKeepTheirOrder_moves :
    (moving base (.offer 0x61#8)).host = .offer 0x61#8 :: [] ∧
    ((moving { base with outq := [0x61#8] } .take).host = .take :: [] ∧
      (moving { base with outq := [0x61#8] } .take).outq = 0x61#8 :: []) ∧
    ((moving base .take).host = .take :: [] ∧ (moving base .take).outq = []) ∧
    (let s := moving { base with inq := [0x63#8], abandoned := 1 } .withdraw
     s.host = .withdraw :: [] ∧ s.abandoned ≠ 0 ∧ s.inq = 0x63#8 :: []) ∧
    (let s := moving { base with abandoned := 1 } .withdraw
     s.host = .withdraw :: [] ∧ s.abandoned ≠ 0 ∧ s.inq = []) ∧
    (moving base .withdraw).host = .withdraw :: [] ∧ (moving base .withdraw).abandoned = 0 := by decide +kernel

/-- DECODE of one byte in progress, the tables of S-1 in place. -/
def busyDecode : State := { tabled with lastcmd := 6#4, cur := some (curOf .decode 1#32), inq := [0x6B#8] }

theorem busyDecode_counters : CounterInv busyDecode where
  sum := by decide +kernel
  room c h := by cases h; decide +kernel
  frameless c h h' := by cases h; cases h'
  counted c h h' := by cases h; cases h'
  framed _ _ _ := rfl
theorem wit_StreamsKeepTheirOrder_takes :
    CounterInv busyDecode ∧ ∃ t, step busyDecode = .next t ∧ decide (t.inq ≠ busyDecode.inq) = true :=
  ⟨busyDecode_counters, next_of_check (by decide +kernel)⟩
theorem busyDecode_phase : PhaseInv busyDecode where
  unbuilt h := by revert h; decide +kernel
  built _ := ⟨by decide +kernel, by decide +kernel, s1_wf, s1_distinct⟩
  untabled h := absurd rfl h
  tabled _ := ⟨s1_traverse, by decide +kernel, by decide +kernel⟩
  allowed c h := by cases h; intro h'; cases h'
  walker c h _ := by cases h; exact s1_rootInternal
theorem busyDecode_output : OutputInv busyDecode where
  pad := by decide +kernel
  held c h := by cases h; decide
  running c h := by decide +kernel
  bound := by decide +kernel
theorem busyDecode_status : StatusInv busyDecode where
  quiet c h := by cases h; exact ⟨rfl, rfl⟩
  named c h := by cases h; rfl
theorem busyDecode_inv : Inv busyDecode where
  status := busyDecode_status
  counters := busyDecode_counters
  output := busyDecode_output
  phase := busyDecode_phase
  reset h := by cases h
theorem wit_CommandCompletesAfterItsFrame :
    Inv busyDecode ∧ busyDecode.cur = some (curOf .decode 1#32) ∧ busyDecode.rstN = true ∧ busyDecode.host = [] ∧
      (curOf .decode 1#32).rem.toNat ≤ busyDecode.inq.length ∧ 0 ≤ (curOf .decode 1#32).rem.toNat :=
  ⟨busyDecode_inv, rfl, rfl, rfl, by decide +kernel, by decide⟩

/-! The bus. -/

theorem wit_ReadsHaveNoSideEffect :
    (let s := moving base (.read 0x0020#14 .word)
     s.rstN = true ∧ s.host = .read 0x0020#14 .word :: [] ∧ (0x0020#14).toNat % 4 = 0 ∧
       regAt (0x0020#14).toNat = some .total ∧ s.cur = none) ∧
    let s := moving busyDecode (.read 0x000C#14 .word)
    s.rstN = true ∧ s.host = .read 0x000C#14 .word :: [] ∧ (0x000C#14).toNat % 4 = 0 ∧
      regAt (0x000C#14).toNat = some .status ∧ exactWhileBusy .status = true := by decide +kernel
theorem wit_ResultReadsWhileBusyAreUnspecified :
    let s := moving busyDecode (.read 0x0014#14 .word)
    s.rstN = true ∧ s.host = .read 0x0014#14 .word :: [] ∧ (0x0014#14).toNat % 4 = 0 ∧
      regAt (0x0014#14).toNat = some .inConsumed ∧ s.cur ≠ none ∧ exactWhileBusy .inConsumed = false := by decide +kernel
theorem wit_BusErrorsChangeNothing :
    (AccessSize.half ≠ .word ∧ (0x0002#14).toNat % 4 ≠ 0) ∧
    ((0x0048#14).toNat % 4 = 0 ∧ regAt (0x0048#14).toNat = none) ∧
    (regAt (0x0014#14).toNat = some .inConsumed ∧ Reg.inConsumed ∉ [Reg.ctrl, .cmd, .status, .inLen]) ∧
    (regAt (0x0008#14).toNat = some .cmd ∧ busyDecode.cur ≠ none) ∧
    ((moving base (.read 0x0002#14 .word)).rstN = true ∧
      (moving base (.read 0x0002#14 .word)).host = .read 0x0002#14 .word :: [] ∧ access 0x0002#14 .word = .error .sizeAlign) ∧
    (moving base (.write 0x0000#14 .word 1#32)).host = .write 0x0000#14 .word 1#32 :: [] ∧
      writeAccess 0x0000#14 .word base = .error .readOnly := by decide +kernel
theorem wit_LegalWritesSetTheRegister :
    (moving base (.write 0x0004#14 .word 3#32)).rstN = true ∧
    (moving base (.write 0x0004#14 .word 3#32)).host = .write 0x0004#14 .word 3#32 :: [] ∧
    (moving base (.write 0x000C#14 .word 2#32)).host = .write 0x000C#14 .word 2#32 :: [] ∧ (2#32).getLsbD 1 = true ∧
    (moving base (.write 0x000C#14 .word 1#32)).host = .write 0x000C#14 .word 1#32 :: [] ∧ (1#32).getLsbD 1 = false ∧
    (moving busyDecode (.write 0x0010#14 .word 9#32)).host = .write 0x0010#14 .word 9#32 :: [] ∧
    (moving base (.write 0x0008#14 .word 1#32)).host = .write 0x0008#14 .word 1#32 :: [] ∧
    (moving base (.write 0x0008#14 .word 1#32)).cur = none ∧
    ((moving base (.write 0x0020#14 .word 1#32)).host = .write 0x0020#14 .word 1#32 :: [] ∧ (0x0020#14).toNat % 4 = 0 ∧
      regAt (0x0020#14).toNat = some .total ∧ Reg.total ∉ [Reg.ctrl, .cmd, .status, .inLen]) := by decide +kernel
theorem wit_CmdWriteWhileBusyIsLost :
    let s := moving busyDecode (.write 0x0008#14 .word 1#32)
    s.rstN = true ∧ s.cur ≠ none ∧ s.host = .write 0x0008#14 .word 1#32 :: [] := by decide +kernel

/-! Interrupt and reset. -/

theorem wit_IrqIsEnableAndDone :
    (let s := moving base (.write 0x0008#14 .word 1#32)
     s.rstN = true ∧ s.cur = none ∧ ∃ t, step s = .next t) ∧
    (let s := running base .clear 0#32
     s.cur = some (curOf .clear 0#32) ∧ (∃ t, step s = .next t ∧ decide (t.cur = none) = true) ∧
       ∀ rest, s.host ≠ .rstFall :: rest) ∧
    (let s := moving base (.write 0x000C#14 .word 2#32)
     s.rstN = true ∧ (2#32).getLsbD 1 = true ∧ ∃ t, step s = .next t) ∧
    (let s := moving base (.write 0x0004#14 .word 2#32)
     s.rstN = true ∧ ∃ t, step s = .next t) ∧
    ∃ t, step (moving busyDecode .rstFall) = .next t :=
  ⟨⟨rfl, rfl, next_of_isSome (by decide +kernel)⟩,
    ⟨rfl, next_of_check (by decide +kernel), fun rest h => by cases h⟩,
    ⟨rfl, by decide, next_of_isSome (by decide +kernel)⟩, ⟨rfl, next_of_isSome (by decide +kernel)⟩,
    next_of_isSome (by decide +kernel)⟩
theorem wit_ResetSetsEveryElement :
    (moving busyDecode .rstFall).host = .rstFall :: [] ∧ ∃ t, step (moving busyDecode .rstFall) = .next t :=
  ⟨rfl, next_of_isSome (by decide +kernel)⟩
theorem wit_LowResetHoldsTheBlock :
    let s := resetBlock base
    s.rstN = false ∧ s.host = [] ∧ (moving s .core).host = .core :: [] ∧
    (moving s (.read 0#14 .word)).host = .read 0#14 .word :: [] ∧
    (moving s (.write 4#14 .word 1#32)).host = .write 4#14 .word 1#32 :: [] ∧
    (moving s .rstRise).host = .rstRise :: [] := ⟨rfl, rfl, rfl, rfl, rfl, rfl⟩

/-! Invariants. -/

theorem wit_StepKeepsStatusInvariant : StatusInv busyDecode ∧ ∃ t, step busyDecode = .next t :=
  ⟨busyDecode_status, next_of_isSome (by decide +kernel)⟩
theorem wit_StepKeepsCounterInvariant : CounterInv busyDecode ∧ ∃ t, step busyDecode = .next t :=
  ⟨busyDecode_counters, next_of_isSome (by decide +kernel)⟩
theorem wit_StepKeepsOutputInvariant : CounterInv busyDecode ∧ OutputInv busyDecode ∧ ∃ t, step busyDecode = .next t :=
  ⟨busyDecode_counters, busyDecode_output, next_of_isSome (by decide +kernel)⟩
theorem wit_StepKeepsPhaseInvariant : CounterInv busyDecode ∧ PhaseInv busyDecode ∧ ∃ t, step busyDecode = .next t :=
  ⟨busyDecode_counters, busyDecode_phase, next_of_isSome (by decide +kernel)⟩
theorem wit_StepKeepsResetInvariant : ResetInv (resetBlock base) ∧ (resetBlock base).rstN = false ∧
    ∃ t, step (resetBlock base) = .next t :=
  ⟨fun _ => rfl, rfl, next_of_isSome (by decide +kernel)⟩
theorem wit_InvariantStatesNeverFault : CounterInv busyDecode ∧ PhaseInv busyDecode :=
  ⟨busyDecode_counters, busyDecode_phase⟩

end Sys2Proof.Tests
end

section
/-! PROOFS. The emission loop of ENCODE (44 R109). -/

namespace Sys2Proof.Machine

/-- The byte of eight bits holds the first of them as its most significant bit (00 R8). -/
theorem getElem?_eq_byteOf_getLsbD (p : BitString) (hp : p.length = 8) (k : Nat) (hk : k < 8) :
    p[k]? = some ((byteOf p).getLsbD (7 - k)) := by
  have h := bitsOf_getElem? 8 (byteOf p) k hk
  rwa [bitsOf_byteOf p hp] at h

/-- Settles O30: a string of at least eight bits is its first eight followed by the rest, and the packing of such an append is
the byte of the first part before the packing of the second. -/
theorem packingTakesEightBitsAtATime : Obligations.PackingTakesEightBitsAtATime := by
  unfold Obligations.PackingTakesEightBitsAtATime
  refine ⟨packBytes_short, fun bits hlen => ?_⟩
  have h8 : (bits.take 8).length = 8 := List.length_take_of_le hlen
  refine ⟨byteOf (bits.take 8), ?_, fun k hk => ?_⟩
  · have h := packBytes_append (bits.take 8) (bits.drop 8) h8
    rwa [List.take_append_drop] at h
  · rw [← List.getElem?_take_of_lt hk]
    exact getElem?_eq_byteOf_getLsbD (bits.take 8) h8 k hk

end Sys2Proof.Machine
end

section
/-! PROOFS. What a step does to the block, said once: a move of the host that leaves it, the fall of rst_n, the issue of a CMD
write, or a core step of the command in progress. -/

namespace Sys2Proof.Machine

/-! ### The address of CMD -/

theorem controlReg_eq_cmd {k : Nat} (h : controlReg k = some .cmd) : k = 2 := by
  unfold controlReg at h
  split at h <;> cases h
  rfl

/-- CMD stands at the offset 8 and nowhere else (20 R44). -/
theorem regAt_eq_cmd {a : Nat} (h : regAt a = some .cmd) : a / 4 = 2 := by
  unfold regAt at h
  by_cases ha : a < 0x200
  · rw [if_pos ha] at h
    exact controlReg_eq_cmd h
  · rw [if_neg ha] at h
    split_ifs at h <;> cases h

/-- A transaction without a bus error is of a whole aligned word of the map (20 R43, R45). -/
theorem access_ok {a : Addr} {n : AccessSize} {r : Reg} (h : access a n = .ok r) :
    n = .word ∧ a.toNat % 4 = 0 ∧ regAt a.toNat = some r := by
  unfold access at h
  split at h
  case isTrue haligned =>
    cases hr : regAt a.toNat with
    | none => rw [hr] at h; cases h
    | some r' => rw [hr] at h; cases h; exact ⟨haligned.1, haligned.2, rfl⟩
  case isFalse => cases h

/-- A write that the bus accepts is of a word that a read may name too (20 R45). -/
theorem access_of_writeAccess {a : Addr} {n : AccessSize} {s : State} {r : Reg} (h : writeAccess a n s = .ok r) :
    access a n = .ok r := by
  unfold writeAccess at h
  cases ha : access a n with
  | error e => rw [ha] at h; cases h
  | ok r' =>
    simp only [ha] at h
    split_ifs at h
    cases h; rfl

/-- An accepted write to CMD is a word write to its address (20 R42, R44). -/
theorem writeAccess_eq_cmd {a : Addr} {n : AccessSize} {s : State} (h : writeAccess a n s = .ok .cmd) :
    a = 0x0008#14 ∧ n = .word := by
  obtain ⟨hword, haligned, hreg⟩ := access_ok (access_of_writeAccess h)
  have hindex := regAt_eq_cmd hreg
  exact ⟨BitVec.eq_of_toNat_eq (by simp; omega), hword⟩

/-! ### The host's own moves -/

/-- `t` differs from `s` only in what the host's own moves write: CTRL, IN_LEN, the streams, rst_n and the model's record of the
host; DONE may be cleared and abandoned bytes withdrawn. -/
structure SameBlock (s t : State) : Prop where
  errcode : t.errcode = s.errcode
  lastcmd : t.lastcmd = s.lastcmd
  phase : t.phase = s.phase
  inConsumed : t.inConsumed = s.inConsumed
  outCount : t.outCount = s.outCount
  total : t.total = s.total
  nsym : t.nsym = s.nsym
  nnodes : t.nnodes = s.nnodes
  root : t.root = s.root
  bitlen : t.bitlen = s.bitlen
  pad : t.pad = s.pad
  trail : t.trail = s.trail
  freq : t.freq = s.freq
  list : t.list = s.list
  node : t.node = s.node
  code : t.code = s.code
  cur : t.cur = s.cur
  rom : t.rom = s.rom
  done : t.done = true → s.done = true
  abandoned : t.abandoned ≤ s.abandoned

/-- Writing only the host's side leaves the block. -/
theorem sameBlock_hostSide (s : State) (tsrc irqEn : Bool) (inLen : Word) (inq outq : List Byte) (rstN : Bool)
    (host : List HostMove) (answer : Option Answer) (taken : List Byte) (nFree : Nat) :
    SameBlock s { s with
      tsrc := tsrc, irqEn := irqEn, inLen := inLen, inq := inq, outq := outq, rstN := rstN, host := host,
      answer := answer, taken := taken, nFree := nFree } := by
  constructor <;> simp

theorem busRead_sameBlock (a : Addr) (n : AccessSize) (s : State) : SameBlock s (busRead a n s) := by
  obtain ⟨x, k, h⟩ := busRead_frame a n s
  rw [h]
  exact sameBlock_hostSide ..

theorem takeByte_sameBlock (s : State) : SameBlock s (takeByte s) := by
  unfold takeByte
  split <;> exact sameBlock_hostSide ..

theorem withdrawByte_sameBlock (s : State) : SameBlock s (withdrawByte s) := by
  unfold withdrawByte
  split <;> constructor <;> simp

/-- A write leaves the block, or it is an accepted write to CMD with no command in progress (20 R48, R49). -/
theorem busWrite_effect {a : Addr} {n : AccessSize} {v : Word} {s t : State} (h : busWrite a n v s = .next t) :
    SameBlock s t ∨
    (a = 0x0008#14 ∧ n = .word ∧ s.cur = none ∧ issueWord v { s with answer := some (.wrote .okay) } = .next t) := by
  rcases busWrite_cases h with rfl | rfl | rfl | rfl | rfl | ⟨hcur, hcmd, hissue⟩
  · exact .inl (sameBlock_hostSide ..)
  · exact .inl (sameBlock_hostSide ..)
  · exact .inl (sameBlock_hostSide ..)
  · exact .inl (by constructor <;> simp)
  · exact .inl (sameBlock_hostSide ..)
  · obtain ⟨ha, hn⟩ := writeAccess_eq_cmd hcmd
    exact .inr ⟨ha, hn, hcur, hissue⟩

/-! ### The step -/

/-- What a step does to the block. -/
inductive StepEffect (s t : State) : Prop where
  /-- the host's own moves, and a turn of the core with nothing to do -/
  | host (same : SameBlock s t)
  /-- rst_n falls -/
  | reset (rest : List HostMove) (move : s.host = .rstFall :: rest) (next : t = resetBlock { s with host := rest })
  /-- a write to CMD that the bus accepts -/
  | issue (w : Word) (rest : List HostMove) (move : s.host = .write 0x0008#14 .word w :: rest) (high : s.rstN = true)
      (idle : s.cur = none)
      (next : issueWord w { s with host := rest, answer := some (.wrote .okay) } = .next t)
  /-- a core step of the command in progress -/
  | core (c : Cur) (rest : List HostMove) (high : s.rstN = true) (running : s.cur = some c)
      (next : exec c.op { s with host := rest } = .next t)

/-- The core's turn, the moves up to it taken from the schedule. -/
theorem coreTurn_effect {s t : State} {rest : List HostMove} (h : coreTurn { s with host := rest } = .next t) :
    StepEffect s t := by
  rcases coreTurn_cases h with rfl | ⟨c, hcur, hhigh, hexec⟩
  · exact .host (sameBlock_hostSide ..)
  · exact .core c rest hhigh hcur hexec

/-- Taking a move from the schedule is on the host's side. -/
theorem SameBlock.of_host {s t : State} {rest : List HostMove} (h : SameBlock { s with host := rest } t) : SameBlock s t :=
  { h with }

/-- What each move of the host does, taken from the schedule. -/
theorem hostMove_effect {m : HostMove} {rest : List HostMove} {s t : State} (hm : s.host = m :: rest)
    (h : hostMove m { s with host := rest } = .next t) : StepEffect s t := by
  cases m with
  | read a n =>
    simp only [hostMove] at h
    split at h <;> cases h
    exact .host (busRead_sameBlock a n _).of_host
  | write a n v =>
    simp only [hostMove] at h
    split at h
    case isTrue hhigh =>
      rcases busWrite_effect h with same | ⟨rfl, rfl, hidle, hissue⟩
      · exact .host same.of_host
      · exact .issue v rest hm hhigh hidle hissue
    case isFalse => cases h
  | offer b => cases h; exact .host (sameBlock_hostSide ..)
  | take => cases h; exact .host (takeByte_sameBlock _).of_host
  | withdraw =>
    simp only [hostMove] at h
    split at h <;> cases h
    exact .host (withdrawByte_sameBlock _).of_host
  | rstFall => cases h; exact .reset rest hm rfl
  | rstRise => cases h; exact .host (sameBlock_hostSide ..)
  | core => exact coreTurn_effect h

/-- Everything a step can do to the block. -/
theorem step_effect {s t : State} (h : step s = .next t) : StepEffect s t := by
  rcases step_cases h with ⟨_, hcore⟩ | ⟨m, rest, hm, hmove⟩
  · exact coreTurn_effect (rest := s.host) hcore
  · exact hostMove_effect hm hmove

end Sys2Proof.Machine
end

section
/-! PROOFS. Every step keeps the bounds of the output (10 R22, R28; 44 R109; 45 R119). -/

namespace Sys2Proof.Machine

/-! ### What the parts of the commands emit -/

/-- `t` comes from `s` by emitting at most `n` bytes; PAD stays in its bound, IN_CONSUMED as it is. -/
structure EmitsAtMost (n : Nat) (s t : State) : Prop where
  pad : s.pad.toNat ≤ 8 → t.pad.toNat ≤ 8
  inConsumed : t.inConsumed = s.inConsumed
  emitted : ∃ k, k ≤ n ∧ t.outCount = s.outCount + BitVec.ofNat 64 k

/-- A part that writes none of the three emits nothing. -/
theorem EmitsAtMost.of_eq {n : Nat} {s t : State} (hp : t.pad = s.pad) (hi : t.inConsumed = s.inConsumed)
    (ho : t.outCount = s.outCount) : EmitsAtMost n s t :=
  ⟨fun h => hp ▸ h, hi, 0, Nat.zero_le n, by simp [ho]⟩

theorem EmitsAtMost.refl (n : Nat) (s : State) : EmitsAtMost n s s := .of_eq rfl rfl rfl

theorem emitAll_emitsAtMost {n : Nat} (s : State) {bs : List Byte} (h : bs.length ≤ n) : EmitsAtMost n s (emitAll s bs) := by
  rw [emitAll_eq]
  exact ⟨id, rfl, bs.length, h, rfl⟩

/-- A padding is at most 8 (30 R71). -/
theorem padFor_le (n : Nat) : padFor n ≤ 8 := Nat.sub_le ..

/-- The code of an entry has at most 127 bits (10 R34). -/
theorem codeOf_length_le (code : Vector CodeEntry 128) (b : Byte) : (codeOf code b).length ≤ 127 := by
  simp only [codeOf, entryBits, bitsOf_length]
  omega

/-- A code after at most 8 held bits makes at most 16 bytes and leaves fewer than 8 bits (44 R109). -/
theorem packBytes_bounds {held code : BitString} (hh : held.length ≤ 8) (hc : code.length ≤ 127) :
    (packBytes (held ++ code)).1.length ≤ 16 ∧ (packBytes (held ++ code)).2.length ≤ 8 := by
  have hlen := packBytes_length (held ++ code)
  have hrest := (packBytes_spec (held ++ code)).2
  rw [List.length_append] at hlen
  omega

theorem clearBody_emits {c : Cur} {s : State} {q : Cur × State} (h : clearBody c s = .ok q) : EmitsAtMost 1 s q.2 := by
  cases h
  exact ⟨fun _ => Nat.zero_le 8, rfl, 0, by simp⟩

theorem noBeat_emits {b : Byte} {c : Cur} {s : State} {q : Cur × State} (hc : c.acc.length ≤ 8) (h : noBeat b c s = .ok q) :
    q.1.acc.length ≤ 8 ∧ EmitsAtMost 16 s q.2 := by
  cases h
  exact ⟨hc, .refl 16 s⟩

theorem countBeat_emits {b : Byte} {c : Cur} {s : State} {q : Cur × State} (hc : c.acc.length ≤ 8)
    (h : countBeat b c s = .ok q) : q.1.acc.length ≤ 8 ∧ EmitsAtMost 16 s q.2 := by
  rcases countBeat_cases b c s with ⟨_, e⟩ | ⟨_, _, e⟩ | ⟨_, _, e⟩ <;> rw [e] at h <;> cases h
  · exact ⟨hc, .refl 16 s⟩
  · exact ⟨hc, .refl 16 s⟩
  · exact ⟨hc, .of_eq rfl rfl rfl⟩

theorem countFinish_emits {c : Cur} {s : State} {q : Cur × State} (h : countFinish c s = .ok q) : EmitsAtMost 1 s q.2 := by
  rcases countFinish_cases c s with ⟨_, e⟩ | ⟨_, e⟩ <;> rw [e] at h <;> cases h
  · exact .of_eq rfl rfl rfl
  · exact .refl 1 s

theorem buildTreeBody_emits {c : Cur} {s : State} {q : Cur × State} (h : buildTreeBody c s = .ok q) :
    EmitsAtMost 1 s q.2 := by
  obtain ⟨r, _, _, e⟩ := buildTreeBody_ok h
  rw [e]
  exact ⟨fun _ => Nat.zero_le 8, rfl, 0, by simp⟩

/-- BUILD_TABLE writes a padding into PAD (43 R105). -/
theorem buildTableBody_emits {c : Cur} {s : State} {q : Cur × State} (h : buildTableBody c s = .ok q) :
    EmitsAtMost 1 s q.2 := by
  obtain ⟨code, _, _, e⟩ := buildTableBody_ok h
  rw [e]
  refine ⟨fun _ => ?_, rfl, 0, by simp⟩
  exact (BitVec.toNat_ofNat _ _ ▸ Nat.mod_le ..).trans (padFor_le _)

theorem encodeBeat_emits {b : Byte} {c : Cur} {s : State} {q : Cur × State} (hc : c.acc.length ≤ 8)
    (h : encodeBeat b c s = .ok q) : q.1.acc.length ≤ 8 ∧ EmitsAtMost 16 s q.2 := by
  rcases encodeBeat_cases b c s with ⟨_, e⟩ | ⟨_, _, _, _, e, _⟩ | ⟨_, _, e⟩ <;> rw [e] at h <;> cases h
  · exact ⟨hc, .refl 16 s⟩
  · exact ⟨Nat.zero_le 8, .refl 16 s⟩
  · obtain ⟨hbytes, hheld⟩ := packBytes_bounds hc (codeOf_length_le s.code b)
    exact ⟨hheld, emitAll_emitsAtMost s hbytes⟩

theorem encodeFinish_emits {c : Cur} {s : State} {q : Cur × State} (hc : c.acc.length ≤ 8)
    (h : encodeFinish c s = .ok q) : EmitsAtMost 1 s q.2 := by
  rcases encodeFinish_cases c s with ⟨_, e⟩ | ⟨_, _, _, e, _⟩ <;> rw [e] at h <;> cases h
  · exact .refl 1 s
  · have hlen := packBytes_length c.acc
    exact emitAll_emitsAtMost s (by omega)

theorem decodeBeat_emits {b : Byte} {c : Cur} {s : State} {q : Cur × State} (hc : c.acc.length ≤ 8)
    (h : decodeBeat b c s = .ok q) : q.1.acc.length ≤ 8 ∧ EmitsAtMost 16 s q.2 := by
  obtain ⟨bs, n, k, hlen, rfl⟩ := decodeBeat_ok h
  exact ⟨hc, emitAll_emitsAtMost s (by omega)⟩

theorem decodeFinish_emits {c : Cur} {s : State} {q : Cur × State} (h : decodeFinish c s = .ok q) :
    EmitsAtMost 1 s q.2 := by
  obtain ⟨e, he, _⟩ := decodeFinish_eq c s
  rw [he] at h
  cases h
  exact .of_eq rfl rfl rfl

/-! ### The command, from its parts -/

/-- With OUT_COUNT zero, as a reset and an issue leave it, only PAD and the accumulator are left to bound. -/
theorem OutputInv.of_outCount_zero {s : State} (hpad : s.pad.toNat ≤ 8) (hheld : ∀ c, s.cur = some c → c.acc.length ≤ 8)
    (hout : s.outCount = 0#64) : OutputInv s where
  pad := hpad
  held := hheld
  running _ _ := by simp [hout]
  bound := by simp [hout]

/-- The bounds rest on PAD, the two counters and the record of the command alone. -/
theorem OutputInv.sameBlock {s t : State} (h : OutputInv s) (k : SameBlock s t) : OutputInv t where
  pad := k.pad ▸ h.pad
  held c hc := h.held c (k.cur ▸ hc)
  running c hc := k.outCount ▸ k.inConsumed ▸ h.running c (k.cur ▸ hc)
  bound := k.outCount ▸ k.inConsumed ▸ h.bound

/-- OUT_COUNT does not overflow while it is at most 16 bytes per byte consumed (10 R22). -/
theorem outCount_add {m : Word} {n : DWord} {k : Nat} (h : n.toNat ≤ 16 * m.toNat) (hk : k ≤ 16) :
    (n + BitVec.ofNat 64 k).toNat = n.toNat + k := by
  have hm := m.isLt
  rw [BitVec.toNat_add, BitVec.toNat_ofNat]
  omega

/-- The last core step: at most one byte more, and no command left (40 R78, 44 R110). -/
theorem complete_outputInv {s : State} {q : Cur × State} (hpad : s.pad.toNat ≤ 8)
    (hrun : s.outCount.toNat ≤ 16 * s.inConsumed.toNat) (h : EmitsAtMost 1 s q.2) : OutputInv (complete q.1 q.2) := by
  obtain ⟨k, hk, hout⟩ := h.emitted
  have hcount : q.2.outCount.toNat ≤ 16 * q.2.inConsumed.toNat + 1 := by
    rw [hout, h.inConsumed, outCount_add hrun (by omega)]
    omega
  exact { pad := h.pad hpad, held := nofun, running := nofun, bound := hcount }

/-- A beat: one byte consumed, at most sixteen emitted (40 R76, 44 R109). -/
theorem beat_outputInv {s : State} {c : Cur} {rest : List Byte} {q : Cur × State} (hpad : s.pad.toNat ≤ 8)
    (hrun : s.outCount.toNat ≤ 16 * s.inConsumed.toNat) (hroom : s.inConsumed.toNat + 1 < 2 ^ 32)
    (hheld : q.1.acc.length ≤ 8) (h : EmitsAtMost 16 (takeBeat c rest s).2 q.2) :
    OutputInv { q.2 with cur := some q.1 } := by
  obtain ⟨k, hk, hout⟩ := h.emitted
  have hconsumed : q.2.inConsumed.toNat = s.inConsumed.toNat + 1 := by
    rw [h.inConsumed]
    exact BitVec.toNat_add_of_lt hroom
  have hcount : q.2.outCount.toNat ≤ 16 * q.2.inConsumed.toNat := by
    rw [hout, hconsumed]
    have := outCount_add hrun hk
    simp only [takeBeat]
    omega
  exact {
    pad := h.pad hpad
    held := fun c hc => by cases hc; exact hheld
    running := fun _ _ => hcount
    bound := Nat.le_succ_of_le hcount }

/-- A command keeps the bounds when its parts do: Start emits nothing, the Beat at most sixteen bytes, the Body at most one. -/
theorem command_outputInv {i : Instr} {start : Cur → State → Cur × State}
    {beat : Byte → Cur → State → Except Fault (Cur × State)} {finish : Cur → State → Except Fault (Cur × State)}
    (hstart : ∀ c s, s.pad.toNat ≤ 8 → c.acc = [] → (start c s).1.acc.length ≤ 8 ∧ EmitsAtMost 0 s (start c s).2)
    (hbeat : ∀ b c s q, c.acc.length ≤ 8 → beat b c s = .ok q → q.1.acc.length ≤ 8 ∧ EmitsAtMost 16 s q.2)
    (hfinish : ∀ c s q, c.acc.length ≤ 8 → finish c s = .ok q → EmitsAtMost 1 s q.2)
    {s t : State} (hroom : ∀ c, s.cur = some c → s.inConsumed.toNat + c.rem.toNat < 2 ^ 32) (ho : OutputInv s)
    (h : command i start beat finish s = .next t) : OutputInv t := by
  rcases command_cases h with ⟨hidle, rfl⟩ | ⟨c, _, _, rfl⟩ | ⟨c, hcur, _, hcore⟩
  · by_cases hcheck : issueCheck i (beginIssue (opcode i) s) = .none
    · rw [issue_accepted hcheck]
      obtain ⟨hheld, hemit⟩ := hstart (newCur i (beginIssue (opcode i) s)) (beginIssue (opcode i) s) ho.pad rfl
      obtain ⟨k, hk, hout⟩ := hemit.emitted
      obtain rfl : k = 0 := Nat.le_zero.mp hk
      exact .of_outCount_zero (hemit.pad ho.pad) (fun c hc => by cases hc; exact hheld) hout
    · rw [issue_rejected hcheck]
      exact .of_outCount_zero ho.pad ho.held rfl
  · exact ho
  · have hheld := ho.held c hcur
    have hrun := ho.running c hcur
    rcases coreStep_cases hcore with ⟨_, q, hq, rfl⟩ | ⟨_, _, rfl⟩ | ⟨hrem, b, rest, q, _, hq, rfl⟩
    · exact complete_outputInv ho.pad hrun (hfinish c s q hheld hq)
    · exact ho
    · have hone : 1 ≤ c.rem.toNat := Nat.one_le_iff_ne_zero.mpr fun h0 => hrem (BitVec.eq_of_toNat_eq h0)
      have := hroom c hcur
      obtain ⟨hheld', hemit⟩ := hbeat b (takeBeat c rest s).1 _ q hheld hq
      exact beat_outputInv ho.pad hrun (by omega) hheld' hemit

theorem noStart_emits (c : Cur) (s : State) (_ : s.pad.toNat ≤ 8) (hc : c.acc = []) :
    (noStart c s).1.acc.length ≤ 8 ∧ EmitsAtMost 0 s (noStart c s).2 :=
  ⟨by simp [noStart, hc], .refl 0 s⟩

/-- Every command keeps the bounds of the output. -/
theorem exec_outputInv {i : Instr} {s t : State} (h : exec i s = .next t)
    (hroom : ∀ c, s.cur = some c → s.inConsumed.toNat + c.rem.toNat < 2 ^ 32) (ho : OutputInv s) : OutputInv t := by
  cases i with
  | clear =>
    exact command_outputInv noStart_emits (fun _ _ _ _ => noBeat_emits) (fun _ _ _ _ => clearBody_emits) hroom ho h
  | count =>
    refine command_outputInv (fun c s _ hc => ?_) (fun _ _ _ _ => countBeat_emits) (fun _ _ _ _ => countFinish_emits) hroom ho h
    exact ⟨by simp [countStart, hc], fun _ => Nat.zero_le 8, rfl, 0, by simp [countStart]⟩
  | buildTree =>
    exact command_outputInv noStart_emits (fun _ _ _ _ => noBeat_emits) (fun _ _ _ _ => buildTreeBody_emits) hroom ho h
  | buildTable =>
    exact command_outputInv noStart_emits (fun _ _ _ _ => noBeat_emits) (fun _ _ _ _ => buildTableBody_emits) hroom ho h
  | encode =>
    refine command_outputInv (fun c s hp _ => ?_) (fun _ _ _ _ => encodeBeat_emits) (fun _ _ _ => encodeFinish_emits) hroom ho h
    refine ⟨?_, .refl 0 s⟩
    simp only [encodeStart, prefixFor_length]
    omega
  | decode =>
    refine command_outputInv (fun c s _ hc => ?_) (fun _ _ _ _ => decodeBeat_emits) (fun _ _ _ _ => decodeFinish_emits) hroom ho h
    exact ⟨by simp [decodeStart, hc], .refl 0 s⟩

/-- An issue, accepted or rejected, keeps the bounds of the output. -/
theorem issueWord_outputInv {w : Word} {s t : State} (h : issueWord w s = .next t) (hidle : s.cur = none)
    (ho : OutputInv s) : OutputInv t := by
  rcases issueWord_cases h with ⟨i, _, hexec⟩ | ⟨_, _, rfl⟩
  · exact exec_outputInv hexec (fun c hc => by rw [hidle] at hc; cases hc) ho
  · exact .of_outCount_zero ho.pad ho.held rfl

/-- Settles O57: the host's moves leave the bounds, reset and issue zero OUT_COUNT, and a core step consumes one byte for the at
most 16 it emits, or completes with at most one more. -/
theorem stepKeepsOutputInvariant : Obligations.StepKeepsOutputInvariant := by
  unfold Obligations.StepKeepsOutputInvariant
  intro s t hcount ho hstep
  cases step_effect hstep with
  | host same => exact ho.sameBlock same
  | reset rest _ next =>
    rw [next]
    exact .of_outCount_zero (Nat.zero_le 8) nofun rfl
  | issue w rest _ _ idle next => exact issueWord_outputInv next idle (ho.sameBlock (sameBlock_hostSide ..))
  | core c rest _ _ next => exact exec_outputInv next hcount.room (ho.sameBlock (sameBlock_hostSide ..))

end Sys2Proof.Machine
end

section
/-! PROOFS. Rules of the whole machine: what starts a command, and what no step writes (10 R12, R16, R35). -/

namespace Sys2Proof.Machine

/-- With no command in progress exec is an issue, whose Start names the same command (40 R74). -/
theorem exec_idle (i : Instr) {s : State} (h : s.cur = none) :
    ∃ start : Cur → State → Cur × State, (∀ c s, (start c s).1.op = c.op) ∧ exec i s = .next (issue i start s) := by
  cases i
  case clear => exact ⟨noStart, fun _ _ => rfl, command_issue h⟩
  case count => exact ⟨countStart, fun _ _ => rfl, command_issue h⟩
  case buildTree => exact ⟨noStart, fun _ _ => rfl, command_issue h⟩
  case buildTable => exact ⟨noStart, fun _ _ => rfl, command_issue h⟩
  case encode => exact ⟨encodeStart, fun _ _ => rfl, command_issue h⟩
  case decode => exact ⟨decodeStart, fun _ _ => rfl, command_issue h⟩

/-- An issue from an idle block rejects the command or starts it. -/
theorem exec_idle_cur {i : Instr} {s t : State} (h : exec i s = .next t) (hidle : s.cur = none) :
    t.cur = none ∨ ∃ c, t.cur = some c ∧ c.op = i := by
  obtain ⟨start, hop, hexec⟩ := exec_idle i hidle
  obtain rfl : issue i start s = t := Host.Outcome.next.inj (hexec.symm.trans h)
  by_cases hcheck : issueCheck i (beginIssue (opcode i) s) = .none
  · rw [issue_accepted hcheck]
    exact .inr ⟨_, rfl, hop _ _⟩
  · rw [issue_rejected hcheck]
    exact .inl hidle

/-- Settles O11: of the effects of a step, only an issue leads from no command to one, and it is of the word written. -/
theorem onlyACmdWriteStartsACommand : Obligations.OnlyACmdWriteStartsACommand := by
  unfold Obligations.OnlyACmdWriteStartsACommand
  intro s t hidle hstep hbusy
  cases step_effect hstep with
  | host same => exact absurd (same.cur.trans hidle) hbusy
  | reset _ _ next => exact absurd (congrArg State.cur next) hbusy
  | core c _ _ running _ => cases hidle.symm.trans running
  | issue w rest move high _ next =>
    rcases issueWord_cases next with ⟨i, hdecode, hexec⟩ | ⟨_, _, rfl⟩
    · exact ⟨w, i, rest, move, high, hdecode, (exec_idle_cur hexec hidle).resolve_left hbusy⟩
    · exact absurd hidle hbusy

/-- No step writes the ROM. -/
theorem step_rom {s t : State} (h : step s = .next t) : t.rom = s.rom := by
  cases step_effect h with
  | host same => exact same.rom
  | reset _ _ next => rw [next, resetBlock_rom]
  | core _ _ _ _ next => exact (exec_frame next).rom
  | issue _ _ _ _ _ next =>
    rcases issueWord_cases next with ⟨_, _, hexec⟩ | ⟨_, _, rfl⟩
    · exact (exec_frame hexec).rom
    · rfl

/-- The entries of the ROM from ROM_NNODES up are all zero (45 R114 condition 5). -/
theorem rom_zero_of_nnodes_le (r : TreeRom) (n : Fin 255) (h : r.val.nnodes.toNat ≤ n.val) :
    r.val.nodes[n.val] = zeroNode := by
  have hzero : zeroFrom r.val.nodes r.val.nnodes = true := (Bool.and_eq_true_iff.mp r.property).2
  have hmem : r.val.nodes[n.val] ∈ r.val.nodes.toList.drop r.val.nnodes.toNat :=
    List.mem_drop_iff_getElem.mpr ⟨n.val - r.val.nnodes.toNat, by simp; omega, by simp [h]⟩
  exact beq_iff_eq.mp (List.all_eq_true.mp hzero _ hmem)

/-- Settles O43: no effect of a step writes the ROM, whose type carries WF_ROM, and ID is computed. -/
theorem romAndIdAreConstant : Obligations.RomAndIdAreConstant := by
  unfold Obligations.RomAndIdAreConstant
  refine ⟨fun _ _ => step_rom, fun _ => rfl, fun s n hn => ?_⟩
  have hzero : s.rom.val.nodes[n.val] = zeroNode :=
    rom_zero_of_nnodes_le s.rom n (by rwa [readReg, BitVec.toNat_setWidth_of_le (by decide)] at hn)
  exact ⟨hzero, by simp only [readReg, hzero]; rfl, by simp only [readReg, hzero]; rfl⟩

end Sys2Proof.Machine
end

section
/-! PROOFS. The words of the registers (10 R17 to R31; 20 R46, R53). -/

namespace Sys2Proof.Machine

/-- ERR reads 1 exactly when there is an error code (10 R19). -/
theorem errFlag_eq (s : State) : errFlag s = decide (s.errcode ≠ .none) := by
  unfold errFlag
  cases s.errcode <;> rfl

/-- The flags of STATUS stand at bits 0 to 2, bit 3 is reserved (10 R19). -/
theorem statusWord_flags (s : State) :
    (statusWord s).getLsbD 0 = busy s ∧ (statusWord s).getLsbD 1 = s.done ∧ (statusWord s).getLsbD 2 = errFlag s ∧
      (statusWord s).getLsbD 3 = false := by
  simp only [statusWord, BitVec.getLsbD_append]
  simp

/-- The fields of STATUS from bit 4 up (10 R19). -/
theorem statusWord_fields (s : State) :
    (statusWord s).extractLsb' 4 2 = phaseBits s.phase ∧ (statusWord s).extractLsb' 6 2 = 0#2 ∧
      (statusWord s).extractLsb' 8 4 = errBits s.errcode ∧ (statusWord s).extractLsb' 12 4 = s.lastcmd ∧
      (statusWord s).extractLsb' 16 16 = 0#16 := by
  simp (disch := decide) only [statusWord, BitVec.extractLsb'_append_eq_of_le, BitVec.extractLsb'_append_eq_of_add_le]
  simp

/-- CTRL reads TSRC at bit 0 and IRQ_EN at bit 1 (10 R17). -/
theorem ctrlWord_toNat (s : State) : (ctrlWord s).toNat = s.tsrc.toNat + 2 * s.irqEn.toNat := by
  unfold ctrlWord
  cases s.tsrc <;> cases s.irqEn <;> rfl

/-- A 64-bit result is its high word times 2^32 plus its low word (20 R53). -/
theorem high_low_toNat (v : DWord) : (v.extractLsb' 32 32).toNat * 2 ^ 32 + (v.extractLsb' 0 32).toNat = v.toNat := by
  have hv := v.isLt
  simp only [BitVec.extractLsb'_toNat, Nat.shiftRight_eq_div_pow]
  omega

/-- Settles O7: the codes and the plain registers by the definition of a read, STATUS, CTRL and the wide words by their layout. -/
theorem statusAndWideWords : Obligations.StatusAndWideWords := by
  unfold Obligations.StatusAndWideWords
  refine ⟨⟨rfl, rfl, rfl, rfl⟩, ⟨rfl, rfl, rfl, rfl, rfl, rfl, rfl, rfl⟩, fun s => ?_, fun s => ?_⟩
  · have narrow {n : Nat} (v : BitVec n) (hn : n ≤ 32) : (v.setWidth 32).toNat = v.toNat := BitVec.toNat_setWidth_of_le hn
    exact ⟨ctrlWord_toNat s, rfl, rfl, rfl, rfl, narrow _ (by decide), narrow _ (by decide), narrow _ (by decide),
      narrow _ (by decide), narrow _ (by decide), narrow _ (by decide), narrow _ (by decide), fun _ => rfl⟩
  · obtain ⟨hbusy, hdone, herr, hreserved⟩ := statusWord_flags s
    obtain ⟨hphase, hreserved6, herrcode, hlastcmd, hreserved16⟩ := statusWord_fields s
    exact ⟨hbusy, hdone, herr.trans (errFlag_eq s), hreserved, hphase, hreserved6, herrcode, hlastcmd, hreserved16, rfl,
      high_low_toNat s.outCount, high_low_toNat s.bitlen, rfl, rfl⟩

end Sys2Proof.Machine
end

section
/-! PROOFS. Reset (10 R40; 70 R141). -/

namespace Sys2Proof.Machine

/-- Settles O52: the fall of rst_n is `resetBlock`, every element of which has the value listed. -/
theorem resetSetsEveryElement : Obligations.ResetSetsEveryElement := by
  unfold Obligations.ResetSetsEveryElement
  intro s rest hmove
  rw [step_move hmove]
  refine ⟨rfl, fun t ht => ?_⟩
  obtain rfl : resetBlock { s with host := rest } = t := Host.Outcome.next.inj ht
  exact ⟨rfl, rfl, rfl, rfl⟩

/-- With no command in progress STATUS has nothing to agree with. -/
theorem statusInv_of_idle {s : State} (h : s.cur = none) : StatusInv s where
  quiet c hc := by rw [h] at hc; cases hc
  named c hc := by rw [h] at hc; cases hc

/-- With no command in progress only the sum of FREQ is left of the counters. -/
theorem counterInv_of_idle {s : State} (h : s.cur = none)
    (hsum : (symbols.map fun x => (freqAt s.freq x).toNat).sum = s.total.toNat) : CounterInv s where
  sum := hsum
  room c hc := by rw [h] at hc; cases hc
  frameless c hc := by rw [h] at hc; cases hc
  counted c hc := by rw [h] at hc; cases hc
  framed c hc := by rw [h] at hc; cases hc

theorem reset_phaseInv : PhaseInv State.reset where
  unbuilt _ := ⟨rfl, rfl, rfl, rfl, rfl⟩
  built h := by cases h
  untabled _ := ⟨rfl, rfl, rfl⟩
  tabled h := by cases h
  allowed c hc := by cases hc
  walker c hc := by cases hc

/-- Settles O54: at reset no command is in progress, every count is 0, nothing is built, and rst_n is high. -/
theorem invariantHoldsAtReset : Obligations.InvariantHoldsAtReset where
  status := statusInv_of_idle rfl
  counters := counterInv_of_idle rfl (by simp [State.reset, freqAt])
  output := .of_outCount_zero (Nat.zero_le 8) nofun rfl
  phase := reset_phaseInv
  reset h := by cases h

end Sys2Proof.Machine
end

section
/-! PROOFS. The map from mapped words to offsets and back (20 R44). -/

namespace Sys2Proof.Machine

/-! ### The window that an offset falls in -/

theorem regAt_freqWindow {a : Nat} (x : Fin 128) (h : a = 0x0200 + 4 * x.val) : regAt a = some (.freq x) := by
  have hindex : (a - 0x200) / 4 = x.val := by omega
  simp only [regAt, hindex, show ¬a < 0x200 by omega, show a < 0x400 by omega, if_false, dif_pos]

theorem regAt_listWindow {a : Nat} (i : Fin 128) (h : a / 8 = 0x80 + i.val) :
    regAt a = some (if a % 8 = 0 then .listW0 i else .listW1 i) := by
  have hindex : (a - 0x400) / 8 = i.val := by omega
  simp only [regAt, hindex, show ¬a < 0x200 by omega, show ¬a < 0x400 by omega, show a < 0x800 by omega, if_false, dif_pos,
    dif_neg, not_false_eq_true, apply_ite some]

theorem regAt_nodeWindow {a : Nat} (n : Fin 255) (h : a / 8 = 0x100 + n.val) :
    regAt a = some (if a % 8 = 0 then .nodeW0 n else .nodeW1 n) := by
  have hindex : (a - 0x800) / 8 = n.val := by omega
  simp only [regAt, hindex, show ¬a < 0x200 by omega, show ¬a < 0x400 by omega, show ¬a < 0x800 by omega,
    show a < 0xFF8 by omega, if_false, dif_pos, dif_neg, not_false_eq_true, apply_ite some]

theorem regAt_codeWindow {a : Nat} (x : Fin 128) (k : Fin 5) (h : a = 0x1000 + 32 * x.val + 4 * k.val) :
    regAt a = some (.code x k) := by
  have hindex : (a - 0x1000) / 32 = x.val := by omega
  have hword : a % 32 / 4 = k.val := by omega
  simp only [regAt, hindex, hword, show ¬a < 0x200 by omega, show ¬a < 0x400 by omega, show ¬a < 0x800 by omega,
    show ¬a < 0xFF8 by omega, show ¬a < 0x1000 by omega, show a < 0x2000 by omega, k.isLt, if_false, dif_pos, dif_neg,
    not_false_eq_true]

theorem regAt_romWindow {a : Nat} (n : Fin 255) (h : a / 8 = 0x400 + n.val) :
    regAt a = some (if a % 8 = 0 then .romW0 n else .romW1 n) := by
  have hindex : (a - 0x2000) / 8 = n.val := by omega
  simp only [regAt, hindex, show ¬a < 0x200 by omega, show ¬a < 0x400 by omega, show ¬a < 0x800 by omega,
    show ¬a < 0xFF8 by omega, show ¬a < 0x1000 by omega, show ¬a < 0x2000 by omega, show a < 0x27F8 by omega,
    if_false, dif_pos, dif_neg, not_false_eq_true, apply_ite some]

/-! ### The round trips -/

/-- The offset of a mapped word maps back to the word. -/
theorem regAt_regOffset (r : Reg) : regAt (regOffset r) = some r := by
  cases r with
  | freq x => exact regAt_freqWindow x rfl
  | listW0 i => simp only [regOffset]; rw [regAt_listWindow i (by omega), if_pos (by omega)]
  | listW1 i => simp only [regOffset]; rw [regAt_listWindow i (by omega), if_neg (by omega)]
  | nodeW0 n => simp only [regOffset]; rw [regAt_nodeWindow n (by omega), if_pos (by omega)]
  | nodeW1 n => simp only [regOffset]; rw [regAt_nodeWindow n (by omega), if_neg (by omega)]
  | code x k => exact regAt_codeWindow x k rfl
  | romW0 n => simp only [regOffset]; rw [regAt_romWindow n (by omega), if_pos (by omega)]
  | romW1 n => simp only [regOffset]; rw [regAt_romWindow n (by omega), if_neg (by omega)]
  | _ => rfl

theorem regOffset_of_controlReg {k : Nat} {r : Reg} (h : controlReg k = some r) : regOffset r = 4 * k := by
  unfold controlReg at h
  split at h <;> cases h <;> rfl

/-- An aligned address that maps to a word is its offset. -/
theorem regOffset_of_regAt {a : Nat} {r : Reg} (haligned : a % 4 = 0) (h : regAt a = some r) : regOffset r = a := by
  unfold regAt at h
  by_cases ha : a < 0x200
  · rw [if_pos ha] at h
    rw [regOffset_of_controlReg h]
    omega
  · rw [if_neg ha] at h
    split_ifs at h <;> cases h <;> simp only [regOffset] <;> omega

theorem regOffset_aligned (r : Reg) : regOffset r % 4 = 0 := by
  cases r <;> simp only [regOffset] <;> omega

theorem regOffset_lt (r : Reg) : regOffset r < 2 ^ 14 := by
  cases r <;> simp only [regOffset] <;> omega

/-! ### The reserved ranges -/

/-- An aligned address of a reserved range maps to no word: a word there would have it as its offset. -/
theorem regAt_none {a : Nat} (haligned : a % 4 = 0) (h : ∀ r, regOffset r ≠ a) : regAt a = none :=
  Option.eq_none_iff_forall_ne_some.mpr fun r hr => h r (regOffset_of_regAt haligned hr)

/-- Settles O4: the offsets by definition; the round trips window by window. -/
theorem registerMapRoundTrip : Obligations.RegisterMapRoundTrip := by
  unfold Obligations.RegisterMapRoundTrip
  refine ⟨by decide, fun _ => ⟨rfl, rfl, rfl, fun _ => rfl⟩, fun _ => ⟨rfl, rfl, rfl, rfl⟩,
    fun r => ⟨regOffset_aligned r, regOffset_lt r, regAt_regOffset r⟩, fun _ _ => regOffset_of_regAt,
    fun a haligned h => ?_⟩
  refine regAt_none haligned fun r hr => ?_
  cases r <;> simp only [regOffset] at hr <;> omega

end Sys2Proof.Machine
end

section
/-! PROOFS. The byte streams: what each step does to INQ, OUTQ and the bytes taken (20 R54, R55; 70 R143). -/

namespace Sys2Proof.Machine

/-! ### What a command emits -/

theorem outq_prefix_emitAll (s : State) (bs : List Byte) : s.outq <+: (emitAll s bs).outq := by
  rw [emitAll_eq]
  exact List.prefix_append ..

/-- A command only appends to OUTQ when its parts do. -/
theorem command_outq {i : Instr} {start : Cur → State → Cur × State}
    {beat : Byte → Cur → State → Except Fault (Cur × State)} {finish : Cur → State → Except Fault (Cur × State)}
    (hstart : ∀ c s, s.outq <+: (start c s).2.outq)
    (hbeat : ∀ b c s q, beat b c s = .ok q → s.outq <+: q.2.outq)
    (hfinish : ∀ c s q, finish c s = .ok q → s.outq <+: q.2.outq)
    {s t : State} (h : command i start beat finish s = .next t) : s.outq <+: t.outq := by
  rcases command_cases h with ⟨_, rfl⟩ | ⟨_, _, _, rfl⟩ | ⟨c, _, _, hcore⟩
  · by_cases hcheck : issueCheck i (beginIssue (opcode i) s) = .none
    · rw [issue_accepted hcheck]
      exact hstart _ (beginIssue (opcode i) s)
    · rw [issue_rejected hcheck]
      exact List.prefix_rfl
  · exact List.prefix_rfl
  · rcases coreStep_cases hcore with ⟨_, q, hq, rfl⟩ | ⟨_, _, rfl⟩ | ⟨_, b, rest, q, _, hq, rfl⟩
    · exact hfinish c s q hq
    · exact List.prefix_rfl
    · exact hbeat b _ (takeBeat c rest s).2 q hq

theorem noBeat_outq (b : Byte) (c : Cur) (s : State) (q : Cur × State) (h : noBeat b c s = .ok q) : s.outq <+: q.2.outq := by
  cases h
  exact List.prefix_rfl

/-- Every command only appends to OUTQ (40 R77). -/
theorem exec_outq {i : Instr} {s t : State} (h : exec i s = .next t) : s.outq <+: t.outq := by
  cases i with
  | clear =>
    refine command_outq (fun _ _ => List.prefix_rfl) noBeat_outq (fun c s q hq => ?_) h
    cases hq
    exact List.prefix_rfl
  | count =>
    refine command_outq (fun _ _ => List.prefix_rfl) (fun b c s q hq => ?_) (fun c s q hq => ?_) h
    · rcases countBeat_cases b c s with ⟨_, e⟩ | ⟨_, _, e⟩ | ⟨_, _, e⟩ <;> rw [e] at hq <;> cases hq <;>
        exact List.prefix_rfl
    · rcases countFinish_cases c s with ⟨_, e⟩ | ⟨_, e⟩ <;> rw [e] at hq <;> cases hq <;>
        exact List.prefix_rfl
  | buildTree =>
    refine command_outq (fun _ _ => List.prefix_rfl) noBeat_outq (fun c s q hq => ?_) h
    obtain ⟨_, _, _, e⟩ := buildTreeBody_ok hq
    rw [e]
  | buildTable =>
    refine command_outq (fun _ _ => List.prefix_rfl) noBeat_outq (fun c s q hq => ?_) h
    obtain ⟨_, _, _, e⟩ := buildTableBody_ok hq
    rw [e]
  | encode =>
    refine command_outq (fun _ _ => List.prefix_rfl) (fun b c s q hq => ?_) (fun c s q hq => ?_) h
    · rcases encodeBeat_cases b c s with ⟨_, e⟩ | ⟨_, _, _, _, e, _⟩ | ⟨_, _, e⟩ <;> rw [e] at hq <;> cases hq
      · exact List.prefix_rfl
      · exact List.prefix_rfl
      · exact outq_prefix_emitAll s _
    · rcases encodeFinish_cases c s with ⟨_, e⟩ | ⟨_, _, _, e, _⟩ <;> rw [e] at hq <;> cases hq
      · exact List.prefix_rfl
      · exact outq_prefix_emitAll s _
  | decode =>
    refine command_outq (fun _ _ => List.prefix_rfl) (fun b c s q hq => ?_) (fun c s q hq => ?_) h
    · obtain ⟨bs, _, _, _, rfl⟩ := decodeBeat_ok hq
      exact outq_prefix_emitAll s bs
    · obtain ⟨_, he, _⟩ := decodeFinish_eq c s
      rw [he] at hq
      cases hq
      exact List.prefix_rfl

/-! ### What a step does to the streams -/

/-- The output in the order emitted: the bytes the host has taken, then those still in OUTQ (20 R55). -/
def outputBytes (s : State) : List Byte := s.taken ++ s.outq

theorem takeByte_cons {s : State} {b : Byte} {bs : List Byte} (h : s.outq = b :: bs) :
    takeByte s = { s with outq := bs, taken := s.taken ++ [b] } := by
  rw [takeByte, h]

theorem takeByte_nil {s : State} (h : s.outq = []) : takeByte s = s := by
  rw [takeByte, h]

theorem withdrawByte_cons {s : State} {b : Byte} {bs : List Byte} (h : s.inq = b :: bs) :
    withdrawByte s = { s with inq := bs, abandoned := s.abandoned - 1 } := by
  rw [withdrawByte, h]

theorem withdrawByte_nil {s : State} (h : s.inq = []) : withdrawByte s = s := by
  rw [withdrawByte, h]

theorem withdrawByte_outputBytes (s : State) : outputBytes (withdrawByte s) = outputBytes s := by
  cases h : s.inq with
  | nil => rw [withdrawByte_nil h]
  | cons b bs => rw [withdrawByte_cons h]; rfl

/-- From `s` to `t` nothing leaves or enters INQ, and the output only grows. -/
structure SameInput (s t : State) : Prop where
  inq : t.inq = s.inq
  grows : outputBytes s <+: outputBytes t

theorem SameInput.of_eq {s t : State} (hi : t.inq = s.inq) (ho : outputBytes t = outputBytes s) : SameInput s t :=
  ⟨hi, ho ▸ List.prefix_rfl⟩

theorem busRead_sameInput (a : Addr) (n : AccessSize) (s : State) : SameInput s (busRead a n s) := by
  obtain ⟨x, k, h⟩ := busRead_frame a n s
  rw [h]
  exact .of_eq rfl rfl

/-- A taken byte stays in the output: it moves from the head of OUTQ to the end of the bytes taken (20 R55). -/
theorem takeByte_sameInput (s : State) : SameInput s (takeByte s) := by
  cases h : s.outq with
  | nil => rw [takeByte_nil h]; exact .of_eq rfl rfl
  | cons b bs => rw [takeByte_cons h]; exact .of_eq rfl (by simp [outputBytes, h])

theorem exec_grows {i : Instr} {s t : State} (h : exec i s = .next t) : outputBytes s <+: outputBytes t := by
  rw [outputBytes, outputBytes, (exec_frame h).taken]
  exact (List.prefix_append_right_inj _).mpr (exec_outq h)

/-- An issue takes no byte (40 R74). -/
theorem issueWord_sameInput {w : Word} {s t : State} (h : issueWord w s = .next t) (hidle : s.cur = none) :
    SameInput s t := by
  rcases issueWord_cases h with ⟨i, _, hexec⟩ | ⟨_, _, rfl⟩
  · refine ⟨(exec_inq hexec).resolve_right ?_, exec_grows hexec⟩
    rintro ⟨c, _, hcur, _⟩
    cases hidle.symm.trans hcur
  · exact .of_eq rfl rfl

theorem busWrite_sameInput {a : Addr} {n : AccessSize} {v : Word} {s t : State} (h : busWrite a n v s = .next t) :
    SameInput s t := by
  rcases busWrite_cases h with rfl | rfl | rfl | rfl | rfl | ⟨hidle, _, hissue⟩
  · exact .of_eq rfl rfl
  · exact .of_eq rfl rfl
  · exact .of_eq rfl rfl
  · exact .of_eq rfl rfl
  · exact .of_eq rfl rfl
  · exact { issueWord_sameInput hissue hidle with }

/-- What a step does to the streams. -/
inductive StreamEffect (s t : State) : Prop where
  /-- INQ stays, the output only grows -/
  | kept (same : SameInput s t)
  /-- the host offers a byte -/
  | offer (b : Byte) (rest : List HostMove) (move : s.host = .offer b :: rest)
      (next : t = { s with host := rest, inq := s.inq ++ [b] })
  /-- the host withdraws a byte of an abandoned frame -/
  | withdraw (rest : List HostMove) (move : s.host = .withdraw :: rest) (left : s.abandoned ≠ 0)
      (next : t = withdrawByte { s with host := rest })
  /-- rst_n falls -/
  | reset (rest : List HostMove) (move : s.host = .rstFall :: rest) (inq : t.inq = s.inq)
  /-- a core step of the command in progress -/
  | core (c : Cur) (rest : List HostMove) (high : s.rstN = true) (running : s.cur = some c)
      (next : exec c.op { s with host := rest } = .next t)

/-- The core's turn, the moves up to it taken from the schedule. -/
theorem coreTurn_streams {s t : State} {rest : List HostMove} (h : coreTurn { s with host := rest } = .next t) :
    StreamEffect s t := by
  rcases coreTurn_cases h with rfl | ⟨c, hcur, hhigh, hexec⟩
  · exact .kept (.of_eq rfl rfl)
  · exact .core c rest hhigh hcur hexec

/-- Taking a move from the schedule leaves the streams. -/
theorem SameInput.of_host {s t : State} {rest : List HostMove} (h : SameInput { s with host := rest } t) : SameInput s t :=
  ⟨h.inq, h.grows⟩

/-- What each move of the host does to the streams, taken from the schedule. -/
theorem hostMove_streams {m : HostMove} {rest : List HostMove} {s t : State} (hm : s.host = m :: rest)
    (h : hostMove m { s with host := rest } = .next t) : StreamEffect s t := by
  cases m with
  | read a n =>
    simp only [hostMove] at h
    split at h <;> cases h
    exact .kept (busRead_sameInput a n _).of_host
  | write a n v =>
    simp only [hostMove] at h
    split at h
    case isTrue => exact .kept (busWrite_sameInput h).of_host
    case isFalse => cases h
  | offer b => cases h; exact .offer b rest hm rfl
  | take => cases h; exact .kept (takeByte_sameInput _).of_host
  | withdraw =>
    simp only [hostMove] at h
    split at h <;> cases h
    exact .withdraw rest hm ‹_› rfl
  | rstFall => cases h; exact .reset rest hm rfl
  | rstRise => cases h; exact .kept (.of_eq rfl rfl)
  | core => exact coreTurn_streams h

/-- Everything a step can do to the streams. -/
theorem step_streams {s t : State} (h : step s = .next t) : StreamEffect s t := by
  rcases step_cases h with ⟨_, hcore⟩ | ⟨m, rest, hm, hmove⟩
  · exact coreTurn_streams (rest := s.host) hcore
  · exact hostMove_streams hm hmove

/-! ### The statement -/

/-- What changes INQ: an offer, a withdrawal with no stream command in progress, or a stream command that takes its byte. -/
theorem step_inq {s t : State} (hcount : CounterInv s) (h : step s = .next t) (hne : t.inq ≠ s.inq) :
    (∃ b rest, s.host = .offer b :: rest ∧ t.inq = s.inq ++ [b]) ∨
    (∃ b rest, s.host = .withdraw :: rest ∧ s.abandoned ≠ 0 ∧ (∀ c, s.cur = some c → takesFrame c.op = false) ∧
      s.inq = b :: t.inq) ∨
    ∃ c b, s.cur = some c ∧ takesFrame c.op = true ∧ c.rem ≠ 0#32 ∧ s.rstN = true ∧ s.inq = b :: t.inq := by
  cases step_streams h with
  | kept same => exact absurd same.inq hne
  | offer b rest move next => exact .inl ⟨b, rest, move, by rw [next]⟩
  | withdraw rest move left next =>
    have hframeless (c : Cur) (hc : s.cur = some c) : takesFrame c.op = false :=
      Bool.eq_false_iff.mpr fun htakes => left (hcount.framed c hc htakes)
    cases hq : s.inq with
    | nil => exact absurd (by rw [next, withdrawByte_nil (s := { s with host := rest }) hq]) hne
    | cons b bs =>
      refine .inr (.inl ⟨b, rest, move, left, hframeless, ?_⟩)
      rw [next, withdrawByte_cons (s := { s with host := rest }) hq]
  | reset rest _ inq => exact absurd inq hne
  | core c rest high running next =>
    rcases exec_inq next with hsame | ⟨c', b, hcur, _, hrem, hin⟩
    · exact absurd hsame hne
    · obtain rfl : c' = c := Option.some.inj (hcur.symm.trans running)
      have htakes : takesFrame c'.op = true := Bool.not_eq_false _ ▸ mt (hcount.frameless c' running) hrem
      exact .inr (.inr ⟨c', b, running, htakes, hrem, high, hin⟩)

/-- But for reset the output only grows (20 R55, R57). -/
theorem step_grows {s t : State} (h : step s = .next t) (hreset : ∀ rest, s.host ≠ .rstFall :: rest) :
    outputBytes s <+: outputBytes t := by
  cases step_streams h with
  | kept same => exact same.grows
  | offer b rest move next => rw [next]; exact List.prefix_rfl
  | withdraw rest move left next => rw [next, withdrawByte_outputBytes]; exact List.prefix_rfl
  | reset rest move _ => exact absurd move (hreset rest)
  | core c rest _ _ next => exact exec_grows (s := { s with host := rest }) next

/-- Settles O44: each move of the host by its definition, and the two laws of the streams from what a step can do to them. -/
theorem streamsKeepTheirOrder : Obligations.StreamsKeepTheirOrder := by
  unfold Obligations.StreamsKeepTheirOrder
  refine ⟨fun s rest => ?_, fun _ _ => step_inq, fun _ _ => step_grows⟩
  intro s'
  refine ⟨fun b hmove => ?_, fun b bs hmove hout => ?_, fun hmove hout => ?_, fun b bs hmove hleft hin => ?_,
    fun hmove hleft hin => ?_, fun hmove hnone => ?_⟩ <;> rw [step_move hmove]
  · rfl
  · rw [hostMove, takeByte_cons (s := s') hout]
  · rw [hostMove, takeByte_nil (s := s') hout]
  · rw [hostMove, if_neg hleft, withdrawByte_cons (s := s') hin]
  · rw [hostMove, if_neg hleft, withdrawByte_nil (s := s') hin]
  · rw [hostMove, if_pos hnone]

end Sys2Proof.Machine
end

section
/-! PROOFS. The register bus: the bus errors, reads and writes (20 R42 to R50). -/

namespace Sys2Proof.Machine

/-! ### Access -/

/-- An access of the size or alignment that the bus does not have (20 R43). -/
theorem access_sizeAlign {a : Addr} {n : AccessSize} (h : n ≠ .word ∨ a.toNat % 4 ≠ 0) : access a n = .error .sizeAlign :=
  if_neg (not_and_or.mpr h)

theorem access_reserved {a : Addr} (haligned : a.toNat % 4 = 0) (h : regAt a.toNat = none) :
    access a .word = .error .reserved := by
  simp [access, haligned, h]

theorem access_mapped {a : Addr} {r : Reg} (haligned : a.toNat % 4 = 0) (h : regAt a.toNat = some r) :
    access a .word = .ok r := by
  simp [access, haligned, h]

/-- The four registers that a write may name (20 R44). -/
theorem writable_iff (r : Reg) : writable r = true ↔ r ∈ [Reg.ctrl, .cmd, .status, .inLen] := by
  cases r <;> simp [writable]

/-- The words whose reads are exact while a command is in progress (20 R50). -/
theorem exactWhileBusy_iff (r : Reg) : exactWhileBusy r = true ↔
    r ∈ [Reg.id, .ctrl, .cmd, .status, .inLen, .romNnodes, .romRoot] ∨ ∃ n, r = .romW0 n ∨ r = .romW1 n := by
  cases r <;> simp [exactWhileBusy]

theorem busy_iff (s : State) : busy s = true ↔ s.cur ≠ none := by
  rw [busy, Option.isSome_iff_ne_none]

section
variable {a : Addr} {n : AccessSize} {r : Reg} {s : State}

theorem writeAccess_error {e : BusError} (h : access a n = .error e) : writeAccess a n s = .error e := by
  rw [writeAccess, h]

theorem writeAccess_readOnly (h : access a n = .ok r) (hr : r ∉ [Reg.ctrl, .cmd, .status, .inLen]) :
    writeAccess a n s = .error .readOnly := by
  have hro : writable r = false := Bool.eq_false_iff.mpr (mt (writable_iff r).mp hr)
  simp [writeAccess, h, hro]

theorem writeAccess_busy (h : access a n = .ok .cmd) (hbusy : s.cur ≠ none) : writeAccess a n s = .error .busy := by
  simp [writeAccess, h, writable, (busy_iff s).mpr hbusy]

/-- A writable register other than CMD is open to a write whether or not a command is in progress (20 R48). -/
theorem writeAccess_ok (h : access a n = .ok r) (hr : writable r = true) (hcmd : r ≠ .cmd) : writeAccess a n s = .ok r := by
  simp [writeAccess, h, hr, hcmd]

/-! ### Reads -/

/-- No register shows the schedule. -/
theorem readReg_host (r : Reg) (s : State) (rest : List HostMove) : readReg r { s with host := rest } = readReg r s := by
  cases r <;> rfl

theorem busRead_error {e : BusError} (h : access a n = .error e) :
    busRead a n s = { s with answer := some (.read .slverr 0#32) } := by
  rw [busRead, h]

theorem busRead_exact (h : access a n = .ok r) (hexact : s.cur = none ∨ exactWhileBusy r = true) :
    busRead a n s = { s with answer := some (.read .okay (readReg r s)) } := by
  rcases hexact with hidle | hexact
  · simp [busRead, h, busy, hidle]
  · simp [busRead, h, hexact]

theorem busRead_free (h : access a n = .ok r) (hbusy : s.cur ≠ none) (hfree : exactWhileBusy r = false) :
    busRead a n s = { s with answer := some (.read .okay (Config.freeWord s.nFree)), nFree := s.nFree + 1 } := by
  simp [busRead, h, (busy_iff s).mpr hbusy, hfree]

/-! ### Writes -/

theorem busWrite_error {v : Word} {e : BusError} (h : writeAccess a n s = .error e) :
    busWrite a n v s = .next { s with answer := some (.wrote .slverr) } := by
  rw [busWrite, h]

theorem busWrite_ok {v : Word} (h : writeAccess a n s = .ok r) :
    busWrite a n v s = writeReg r v { s with answer := some (.wrote .okay) } := by
  rw [busWrite, h]

end

/-! ### Transactions as steps -/

section
variable {s : State} {a : Addr} {n : AccessSize} {v : Word} {rest : List HostMove}

theorem step_read (hhigh : s.rstN = true) (hmove : s.host = .read a n :: rest) :
    step s = .next (busRead a n { s with host := rest }) := by
  rw [step_move hmove]
  exact if_pos hhigh

theorem step_write (hhigh : s.rstN = true) (hmove : s.host = .write a n v :: rest) :
    step s = busWrite a n v { s with host := rest } := by
  rw [step_move hmove]
  exact if_pos hhigh

/-- A read that is exact answers OKAY and the current value (20 R47). -/
theorem step_read_exact {r : Reg} (hhigh : s.rstN = true) (hmove : s.host = .read a .word :: rest)
    (haligned : a.toNat % 4 = 0) (hreg : regAt a.toNat = some r) (hexact : s.cur = none ∨ exactWhileBusy r = true) :
    step s = .next { s with host := rest, answer := some (.read .okay (readReg r s)) } := by
  rw [step_read hhigh hmove, busRead_exact (s := { s with host := rest }) (access_mapped haligned hreg) hexact,
    readReg_host]

/-- A write that the bus refuses answers SLVERR and changes nothing else (20 R45). -/
theorem step_write_error {e : BusError} (hhigh : s.rstN = true) (hmove : s.host = .write a n v :: rest)
    (h : writeAccess a n s = .error e) :
    step s = .next { s with host := rest, answer := some (.wrote .slverr) } := by
  rw [step_write hhigh hmove]
  exact busWrite_error h

/-- A write to a register that is open to it at any time sets that register (20 R48). -/
theorem step_write_reg {r : Reg} (hhigh : s.rstN = true) (hmove : s.host = .write a .word v :: rest)
    (haccess : access a .word = .ok r) (hr : writable r = true) (hcmd : r ≠ .cmd) :
    step s = writeReg r v { s with host := rest, answer := some (.wrote .okay) } := by
  rw [step_write hhigh hmove]
  exact busWrite_ok (writeAccess_ok haccess hr hcmd)

end

/-! ### The statements -/

/-- Settles O46: a legal read is exact, and CMD reads as 0 by definition. -/
theorem readsHaveNoSideEffect : Obligations.ReadsHaveNoSideEffect :=
  ⟨fun _ _ _ _ => step_read_exact, fun _ => rfl⟩

/-- Settles O47: while busy a result word is read as the next free value, and every other legal read is exact. -/
theorem resultReadsWhileBusyAreUnspecified : Obligations.ResultReadsWhileBusyAreUnspecified := by
  unfold Obligations.ResultReadsWhileBusyAreUnspecified
  refine ⟨fun s a r rest hhigh hmove haligned hreg hbusy hfree => ⟨Config.freeWord s.nFree, ?_⟩,
    fun _ _ _ _ => step_read_exact, exactWhileBusy_iff⟩
  rw [step_read hhigh hmove, busRead_free (s := { s with host := rest }) (access_mapped haligned hreg) hbusy hfree]

/-- Settles O48: the four errors in their order, and that a refused transaction writes only the answer. -/
theorem busErrorsChangeNothing : Obligations.BusErrorsChangeNothing := by
  unfold Obligations.BusErrorsChangeNothing
  intro s a n
  refine ⟨fun h => ?_, ?_, ?_, ?_, fun e rest hhigh hmove herr => ?_, fun _ _ _ => step_write_error⟩
  · exact ⟨access_sizeAlign h, writeAccess_error (access_sizeAlign h)⟩
  · rintro rfl haligned hnone
    exact ⟨access_reserved haligned hnone, writeAccess_error (access_reserved haligned hnone)⟩
  · rintro r rfl haligned hreg hr
    exact writeAccess_readOnly (access_mapped haligned hreg) hr
  · rintro rfl haligned hreg hbusy
    exact writeAccess_busy (access_mapped haligned hreg) hbusy
  · rw [step_read hhigh hmove, busRead_error herr]

/-- Settles O49: the write of each register at its address, an issue for CMD; every other word is read-only. -/
theorem legalWritesSetTheRegister : Obligations.LegalWritesSetTheRegister := by
  unfold Obligations.LegalWritesSetTheRegister
  intro s v rest hhigh s'
  have hctrl : access 0x0004#14 .word = .ok .ctrl := by decide
  have hstatus : access 0x000C#14 .word = .ok .status := by decide
  have hinLen : access 0x0010#14 .word = .ok .inLen := by decide
  refine ⟨fun hmove => ?_, fun hmove hone => ?_, fun hmove hzero => ?_, fun hmove => ?_, fun hidle hmove => ?_,
    fun a r haligned hreg hr hmove => ?_⟩
  · exact step_write_reg hhigh hmove hctrl rfl nofun
  · rw [step_write_reg hhigh hmove hstatus rfl nofun, writeReg, if_pos hone]
  · rw [step_write_reg hhigh hmove hstatus rfl nofun, writeReg, if_neg (Bool.eq_false_iff.mp hzero)]
  · exact step_write_reg hhigh hmove hinLen rfl nofun
  · rw [step_write hhigh hmove]
    exact busWrite_cmd v hidle
  · exact step_write_error hhigh hmove (writeAccess_readOnly (access_mapped haligned hreg) hr)

/-- Settles O50: while a command is in progress the bus refuses a write to CMD as BUSY. -/
theorem cmdWriteWhileBusyIsLost : Obligations.CmdWriteWhileBusyIsLost := by
  unfold Obligations.CmdWriteWhileBusyIsLost
  intro s w rest hhigh hbusy hmove
  have hcmd : access 0x0008#14 .word = .ok .cmd := by decide
  exact step_write_error hhigh hmove (writeAccess_busy hcmd hbusy)

end Sys2Proof.Machine
end

section
/-! PROOFS. Command words and commands (30 R63 to R66). -/

namespace Sys2Proof.Machine

/-! ### The fields of a command word -/

@[simp] theorem opField_append (rsv : BitVec 28) (op : BitVec 4) : opField (rsv ++ op) = op :=
  BitVec.extractLsb'_append_eq_right

@[simp] theorem rsvField_append (rsv : BitVec 28) (op : BitVec 4) : rsvField (rsv ++ op) = rsv :=
  BitVec.extractLsb'_append_eq_left

/-- A command word is RSV followed by OP (30 R63). -/
theorem rsvField_append_opField (w : Word) : rsvField w ++ opField w = w :=
  BitVec.extractLsb'_append_extractLsb' (w := 28) (len := 4)

/-! ### The decoder, by cases of a word -/

theorem commandOfOp_eq_none_iff (op : BitVec 4) : commandOfOp op = none ↔ ¬(1 ≤ op.toNat ∧ op.toNat ≤ 6) := by
  revert op
  decide

theorem decode_eq_ok_iff {w : Word} {i : Instr} :
    decode w = .ok i ↔ rsvField w = 0#28 ∧ commandOfOp (opField w) = some i := by
  by_cases hr : rsvField w = 0#28
  · cases hop : commandOfOp (opField w) <;> simp [decode, hr, hop]
  · simp [decode, hr]

/-- An opcode that the map does not list is illegal by name (30 R64, R65). -/
theorem decode_unnamed {w : Word} (hr : rsvField w = 0#28) (hop : ¬(1 ≤ (opField w).toNat ∧ (opField w).toNat ≤ 6)) :
    decode w = .error .unnamedOpcode := by
  simp [decode, hr, (commandOfOp_eq_none_iff _).mpr hop]

/-- A listed opcode names a command, the one with that opcode (30 R64, R65). -/
theorem decode_named {w : Word} (hr : rsvField w = 0#28) (hop : 1 ≤ (opField w).toNat ∧ (opField w).toNat ≤ 6) :
    ∃ i, decode w = .ok i ∧ opcode i = opField w := by
  have hsome : commandOfOp (opField w) ≠ none := fun h => (commandOfOp_eq_none_iff _).mp h hop
  obtain ⟨i, hi⟩ := Option.ne_none_iff_exists'.mp hsome
  have hdecode : decode w = .ok i := decode_eq_ok_iff.mpr ⟨hr, hi⟩
  exact ⟨i, hdecode, opcode_of_decode hdecode⟩

theorem decode_reserved {w : Word} (hr : rsvField w ≠ 0#28) : decode w = .error .reservedBits := if_neg hr

/-- Every command has the law of its constructor (30 R64, R65). -/
theorem encoding_statement (i : Instr) : Laws.Encoding.Statement i := by
  cases i with
  | clear => exact Laws.Encoding.clear
  | count => exact Laws.Encoding.count
  | buildTree => exact Laws.Encoding.buildTree
  | buildTable => exact Laws.Encoding.buildTable
  | encode => exact Laws.Encoding.encode
  | decode => exact Laws.Encoding.decode

theorem decode_encode (i : Instr) : decode (encode i) = .ok i := by
  obtain ⟨-, -, hdecode⟩ := encoding_statement i
  exact hdecode

/-- A word that decodes to a command has RSV 0 and the command's opcode, so it is the command's word. -/
theorem encode_of_decode {w : Word} {i : Instr} (h : decode w = .ok i) : encode i = w := by
  obtain ⟨hr, -⟩ := decode_eq_ok_iff.mp h
  calc encode i = 0#28 ++ opcode i := rfl
    _ = rsvField w ++ opField w := by rw [hr, opcode_of_decode h]
    _ = w := rsvField_append_opField w

/-! ### The issue of an illegal word -/

/-- The issue of an illegal word is a rejection as ILLEGAL_CMD (30 R65, 40 R75). -/
theorem issueWord_illegal {w : Word} {e : DecodeError} (s : State) (h : decode w = .error e) :
    issueWord w s = .next (rejected s (opField w) .illegalCmd) := by
  rw [issueWord, h]
  rfl

/-! ### The statements -/

/-- Settles O2: the law of each command one way; the two fields of the word the other way. -/
theorem commandWordsRoundTrip : Obligations.CommandWordsRoundTrip := by
  unfold Obligations.CommandWordsRoundTrip
  refine ⟨fun i => ?_, fun _ _ => encode_of_decode⟩
  obtain ⟨hwf, -, hdecode⟩ := encoding_statement i
  exact ⟨hwf, hdecode⟩

/-- Settles O3: the three cases of a word, and the write of an illegal word as a rejected issue. -/
theorem everyWordIsACommandOrIllegal : Obligations.EveryWordIsACommandOrIllegal := by
  unfold Obligations.EveryWordIsACommandOrIllegal
  refine ⟨fun _ hr hlo hhi => decode_named hr ⟨hlo, hhi⟩, fun _ => decode_unnamed, fun _ => decode_reserved,
    fun s w e rest hhigh hidle hmove hdecode => ?_⟩
  rw [step_write hhigh hmove, busWrite_cmd w (s := { s with host := rest }) hidle]
  exact issueWord_illegal _ hdecode

/-- Settles O1: the words of the six commands decode to them; an opcode from 7 up, or 0, is not in the map. -/
theorem opcodeMapDecodes : Obligations.OpcodeMapDecodes := by
  unfold Obligations.OpcodeMapDecodes
  refine ⟨decode_encode .clear, decode_encode .count, decode_encode .buildTree, decode_encode .buildTable,
    decode_encode .encode, decode_encode .decode, decode_unnamed (by decide) (by decide), fun op hop => ?_⟩
  refine decode_unnamed (rsvField_append _ _) ?_
  rw [opField_append]
  omega

end Sys2Proof.Machine
end

section
/-! PROOFS. The words of the LIST, NODE, CODE and ROM windows (30 R68 to R70). -/

namespace Sys2Proof.Machine

/-- The number of two fields side by side: the low one is below its power of two, so they do not overlap. -/
theorem toNat_append_eq_add {m n : Nat} (hi : BitVec m) (lo : BitVec n) : (hi ++ lo).toNat = hi.toNat * 2 ^ n + lo.toNat := by
  rw [BitVec.toNat_append, ← Nat.shiftLeft_add_eq_or_of_lt lo.isLt, Nat.shiftLeft_eq]

/-- Word 0 of a node record as a sum of its fields (30 R69). -/
theorem nodeWord0_toNat (r : NodeRec) :
    (nodeWord0 r).toNat =
      r.valid.toNat * 2 ^ 31 + r.leaf.toNat * 2 ^ 30 + r.sym.toNat * 2 ^ 16 + r.right.toNat * 2 ^ 8 + r.left.toNat := by
  simp only [nodeWord0, toNat_append_eq_add, BitVec.toNat_ofBool, BitVec.toNat_ofNat]
  omega

/-- A word with a flag at bit 31, reserved bits 0, and a 7-bit field at bit 0, as of LIST and of CODE (30 R68, R70). -/
theorem flag_field_toNat (flag : Bool) (field : BitVec 7) :
    (BitVec.ofBool flag ++ 0#24 ++ field).toNat = flag.toNat * 2 ^ 31 + field.toNat := by
  simp only [toNat_append_eq_add, BitVec.toNat_ofBool, BitVec.toNat_ofNat]
  omega

/-- Words 1 to 4 of a CODE entry hold VAL, 32 bits each from the low end; bit 31 of word 4, past VAL, is 0 (30 R70). -/
theorem codeWord_getLsbD (e : CodeEntry) {k : Fin 5} {j : Nat} (hk : 1 ≤ k.val) (hj : j < 32) :
    (codeWord e k).getLsbD j = e.val.getLsbD (32 * (k.val - 1) + j) := by
  have hfits : 32 * (k.val - 1) + j < 128 := by omega
  rw [codeWord, if_neg (by omega)]
  simp [hj, hfits]

/-- Settles O5: word 0 by the sum of its fields, in both windows; word 1 and the offsets by definition. -/
theorem nodeRecordWords : Obligations.NodeRecordWords := by
  unfold Obligations.NodeRecordWords
  exact fun _ _ => ⟨nodeWord0_toNat _, rfl, nodeWord0_toNat _, rfl, rfl, rfl, rfl, rfl⟩

/-- Settles O6: the words by their fields; the bit string is the low LEN bits of VAL, the highest first. -/
theorem listAndCodeWords : Obligations.ListAndCodeWords := by
  unfold Obligations.ListAndCodeWords
  exact fun _ _ => ⟨flag_field_toNat _ _, rfl, rfl, rfl, fun _ => rfl, flag_field_toNat _ _, fun _ _ => codeWord_getLsbD _,
    bitsOf_length _ _, bitsOf_getElem? _ _⟩

end Sys2Proof.Machine
end

section
/-! PROOFS. Control: the steps that run a command, its end, accepted issues and the data-path clear (40 R74 to R80). -/

namespace Sys2Proof.Machine

/-! ### Steps that run a command -/

/-- An accepted write of a command's word to CMD is exec of the command (40 R74). -/
theorem issueWord_command {w : Word} {i : Instr} (s : State) (h : decode w = .ok i) : issueWord w s = exec i s := by
  rw [issueWord, h]

/-- With rst_n high the core's turn is exec of the command in progress (40 R76). -/
theorem coreTurn_running {s : State} {c : Cur} (hhigh : s.rstN = true) (hcur : s.cur = some c) :
    coreTurn s = exec c.op s := by
  rw [coreTurn, hcur]
  exact if_pos hhigh

/-- Settles O8: the bus accepts the write while no command is in progress, and the word names the command. -/
theorem stepRunsTheWrittenCommand : Obligations.StepRunsTheWrittenCommand := by
  unfold Obligations.StepRunsTheWrittenCommand
  intro s w i rest hhigh hidle hmove hdecode
  rw [step_write hhigh hmove, busWrite_cmd w (s := { s with host := rest }) hidle]
  exact issueWord_command _ hdecode

/-- Settles O9: either way the step is the core's turn. -/
theorem stepRunsTheCommandInProgress : Obligations.StepRunsTheCommandInProgress := by
  unfold Obligations.StepRunsTheCommandInProgress
  intro s c hhigh hcur
  refine ⟨fun hquiet => ?_, fun rest hmove => ?_⟩
  · rw [step_quiet hquiet]
    exact coreTurn_running hhigh hcur
  · rw [step_move hmove]
    exact coreTurn_running (s := { s with host := rest }) hhigh hcur

/-! ### The end of a command -/

/-- In progress itself, exec of a command is a core step with that command's Beat and Body (40 R76). -/
theorem exec_running {s : State} {c : Cur} (h : s.cur = some c) :
    ∃ beat finish, exec c.op s = coreStep beat finish c s := by
  cases hop : c.op
  case clear => exact ⟨noBeat, clearBody, command_running h hop⟩
  case count => exact ⟨countBeat, countFinish, command_running h hop⟩
  case buildTree => exact ⟨noBeat, buildTreeBody, command_running h hop⟩
  case buildTable => exact ⟨noBeat, buildTableBody, command_running h hop⟩
  case encode => exact ⟨encodeBeat, encodeFinish, command_running h hop⟩
  case decode => exact ⟨decodeBeat, decodeFinish, command_running h hop⟩

/-- A core step that leaves no command in progress is the completion, with all bytes of the frame taken (40 R76, R78). -/
theorem exec_ends {s t : State} {c : Cur} (hcur : s.cur = some c) (h : exec c.op s = .next t) (hend : t.cur = none) :
    c.rem = 0#32 ∧ t.done = true := by
  obtain ⟨beat, finish, hexec⟩ := exec_running hcur
  rw [hexec] at h
  rcases coreStep_cases h with ⟨hrem, _, _, rfl⟩ | ⟨_, _, rfl⟩ | ⟨_, _, _, _, _, _, rfl⟩
  · exact ⟨hrem, rfl⟩
  · cases hcur.symm.trans hend
  · cases hend

/-- Settles O12: of the effects of a step, only the fall of rst_n and a completing core step leave no command in progress. -/
theorem onlyCompletionOrResetEndsACommand : Obligations.OnlyCompletionOrResetEndsACommand := by
  unfold Obligations.OnlyCompletionOrResetEndsACommand
  intro s t c hcur hstep hend
  cases step_effect hstep with
  | host same => cases hcur.symm.trans (same.cur.symm.trans hend)
  | reset rest move _ => exact .inl ⟨rest, move⟩
  | issue _ _ _ _ idle _ => cases hcur.symm.trans idle
  | core c' rest _ running next =>
    obtain rfl : c' = c := Option.some.inj (running.symm.trans hcur)
    obtain ⟨hrem, hdone⟩ := exec_ends (s := { s with host := rest }) hcur next hend
    refine .inr ⟨hrem, hdone, ?_⟩
    rw [irq, hdone, (exec_frame next).irqEn, Bool.and_true]

/-! ### Accepted issues -/

/-- A tree is built in TREE_BUILT and TABLE_READY (10 R36). -/
theorem treeReady_iff (p : Phase) : treeReady p = true ↔ p = .treeBuilt ∨ p = .tableReady := by
  cases p <;> decide

/-- The check of an issue reads none of the fields that the issue writes before it (40 R74, R75). -/
theorem issueCheck_beginIssue (i : Instr) (op : BitVec 4) (s : State) : issueCheck i (beginIssue op s) = issueCheck i s := by
  cases i <;> rfl

/-- Settles O14: the check of each command passes, and what Start leaves is the state named. -/
theorem acceptedIssueStartsTheCommand : Obligations.AcceptedIssueStartsTheCommand := by
  unfold Obligations.AcceptedIssueStartsTheCommand
  intro s hidle
  have accepted {i : Instr} {start beat finish} (h : issueCheck i s = .none) : command i start beat finish s = .next _ :=
    (command_issue hidle).trans (congrArg _ (issue_accepted ((issueCheck_beginIssue i (opcode i) s).trans h)))
  refine ⟨accepted rfl, accepted rfl, fun hphase htotal => accepted ?_, fun hphase => accepted ?_,
    fun hphase => accepted ?_, fun hphase => accepted ?_⟩
  · simp [issueCheck, hphase, htotal]
  · simp [issueCheck, (treeReady_iff _).mpr hphase]
  · simp [issueCheck, hphase]
  · rcases hphase with htsrc | hphase
    · simp [issueCheck, htsrc]
    · simp [issueCheck, (treeReady_iff _).mpr hphase]

/-! ### The data-path clear -/

/-- A reset leaves the data path clear (40 R79). -/
theorem datapathClear_resetBlock (s : State) : datapathClear (resetBlock s) = resetBlock s := rfl

/-- Settles O15: the clear and reset by definition, CLEAR's core step as its completion, COUNT's issue by O14. -/
theorem clearClearsTheDataPath : Obligations.ClearClearsTheDataPath := by
  unfold Obligations.ClearClearsTheDataPath
  refine ⟨fun _ => rfl, fun s c hend => ?_, fun s hidle => ?_, fun s rest hmove => ?_⟩
  · exact (command_running hend.running hend.op).trans (coreStep_finish (p := (c, datapathClear s)) hend.rem rfl)
  · obtain ⟨_, hcount, _⟩ := acceptedIssueStartsTheCommand s hidle
    exact hcount
  · exact ⟨_, step_move hmove, datapathClear_resetBlock _⟩

end Sys2Proof.Machine
end

section
/-! PROOFS. The tree below a node, written out as a term: what the check of a tree, a path and a leaf mean in it
(45 R114, R118). -/

namespace Sys2Proof.Machine

/-- A binary tree of node indices, each leaf with its symbol. -/
inductive NodeTree where
  /-- a leaf -/
  | leaf (n : NodeIx) (x : Sym)
  /-- an internal node with its children of edge 0 and of edge 1 -/
  | inner (n : NodeIx) (l r : NodeTree)

namespace NodeTree

/-- The index of the root. -/
def index : NodeTree → NodeIx
  | leaf n _ => n
  | inner n _ _ => n

/-- The indices of all nodes, each node before its children. -/
def indices : NodeTree → List NodeIx
  | leaf n _ => [n]
  | inner n l r => n :: (l.indices ++ r.indices)

/-- The leaves, each with its symbol, from left to right. -/
def leaves : NodeTree → List (NodeIx × Sym)
  | leaf n x => [(n, x)]
  | inner _ l r => l.leaves ++ r.leaves

/-- The symbols of the leaves, from left to right. -/
def syms (T : NodeTree) : List Sym := T.leaves.map Prod.snd

/-- The subtree that a path leads to; none where the path goes on below a leaf. -/
def sub : NodeTree → BitString → Option NodeTree
  | T, [] => some T
  | leaf _ _, _ :: _ => none
  | inner _ l r, x :: p => (if x then r else l).sub p

/-- The nodes of the tree stand in the array `t` as valid records with these children and symbols (10 R33). -/
def StandsIn (t : Nodes) : NodeTree → Prop
  | leaf n x => ∃ r, nodeAt t n = some r ∧ r.valid = true ∧ r.leaf = true ∧ r.sym = x ∧ r.left = 0#8 ∧ r.right = 0#8
  | inner n l r =>
    (∃ rec, nodeAt t n = some rec ∧ rec.valid = true ∧ rec.leaf = false ∧ rec.left = l.index ∧ rec.right = r.index) ∧
      l.StandsIn t ∧ r.StandsIn t

/-! ### Indices -/

theorem index_mem_indices (T : NodeTree) : T.index ∈ T.indices := by
  cases T <;> exact List.mem_cons_self

theorem one_le_indices_length (T : NodeTree) : 1 ≤ T.indices.length :=
  List.length_pos_of_mem T.index_mem_indices

/-- Whether a tree stands in an array depends on its own nodes alone. -/
theorem StandsIn.congr {t t' : Nodes} {T : NodeTree} (h : T.StandsIn t) (heq : ∀ n ∈ T.indices, nodeAt t' n = nodeAt t n) :
    T.StandsIn t' := by
  induction T with
  | leaf n x =>
    obtain ⟨r, hr, hfields⟩ := h
    exact ⟨r, (heq n List.mem_cons_self).trans hr, hfields⟩
  | inner n l r ihl ihr =>
    obtain ⟨⟨rec, hrec, hfields⟩, hl, hr⟩ := h
    refine ⟨⟨rec, (heq n List.mem_cons_self).trans hrec, hfields⟩, ihl hl fun m hm => heq m ?_,
      ihr hr fun m hm => heq m ?_⟩
    · exact List.mem_cons_of_mem n (List.mem_append_left _ hm)
    · exact List.mem_cons_of_mem n (List.mem_append_right _ hm)

/-! ### Paths -/

/-- A path in the array is the path in the term (45 R118). -/
theorem descend_index {t : Nodes} {T : NodeTree} (h : T.StandsIn t) (p : BitString) :
    descend t T.index p = (T.sub p).map index := by
  induction p generalizing T with
  | nil => cases T <;> rfl
  | cons x p ih =>
    cases T with
    | leaf n y =>
      obtain ⟨r, hr, _, hleaf, _⟩ := h
      simp [descend, index, sub, hr, hleaf]
    | inner n l r =>
      obtain ⟨⟨rec, hrec, _, hleaf, hleft, hright⟩, hl, hr⟩ := h
      cases x
      · simpa [descend, index, sub, hrec, hleaf, hleft] using ih hl
      · simpa [descend, index, sub, hrec, hleaf, hright] using ih hr

theorem StandsIn.sub {t : Nodes} {T U : NodeTree} {p : BitString} (h : T.StandsIn t) (hp : T.sub p = some U) :
    U.StandsIn t := by
  induction p generalizing T with
  | nil => cases T <;> cases hp <;> exact h
  | cons x p ih =>
    cases T with
    | leaf n y => cases hp
    | inner n l r =>
      obtain ⟨_, hl, hr⟩ := h
      cases x
      · exact ih hl hp
      · exact ih hr hp

/-- A path of `k` bits passes `k` nodes that are not in the subtree it leads to. -/
theorem length_add_indices_le {T U : NodeTree} {p : BitString} (hp : T.sub p = some U) :
    p.length + U.indices.length ≤ T.indices.length := by
  induction p generalizing T with
  | nil => cases T <;> cases hp <;> simp
  | cons x p ih =>
    cases T with
    | leaf n y => cases hp
    | inner n l r =>
      have := ih hp
      simp only [indices, List.length_cons, List.length_append]
      cases x <;> simp at this <;> omega

theorem sub_index_mem {T U : NodeTree} {p : BitString} (hp : T.sub p = some U) : U.index ∈ T.indices := by
  induction p generalizing T with
  | nil => cases T <;> cases hp <;> exact index_mem_indices _
  | cons x p ih =>
    cases T with
    | leaf n y => cases hp
    | inner n l r =>
      refine List.mem_cons_of_mem n (List.mem_append.mpr ?_)
      cases x
      · exact .inl (ih hp)
      · exact .inr (ih hp)

/-- A path of at least one bit leads below the root. -/
theorem sub_cons_index_ne {T U : NodeTree} {x : Bool} {p : BitString} (hT : T.indices.Nodup) (hp : T.sub (x :: p) = some U) :
    U.index ≠ T.index := by
  cases T with
  | leaf n y => cases hp
  | inner n l r =>
    have hbelow : U.index ∈ l.indices ++ r.indices := by
      cases x
      · exact List.mem_append_left _ (sub_index_mem (T := l) hp)
      · exact List.mem_append_right _ (sub_index_mem (T := r) hp)
    exact fun heq => (List.nodup_cons.mp hT).1 (show (inner n l r).index ∈ _ from heq ▸ hbelow)

/-- Where no index stands twice, no node is reached along two paths (45 R114 condition 4). -/
theorem path_unique {T U V : NodeTree} {p q : BitString} (hT : T.indices.Nodup) (hp : T.sub p = some U)
    (hq : T.sub q = some V) (huv : U.index = V.index) : p = q := by
  induction p generalizing T q with
  | nil =>
    obtain rfl : T = U := by cases T <;> cases hp <;> rfl
    cases q with
    | nil => rfl
    | cons y q => exact absurd huv.symm (sub_cons_index_ne hT hq)
  | cons x p ih =>
    cases q with
    | nil =>
      obtain rfl : T = V := by cases T <;> cases hq <;> rfl
      exact absurd huv (sub_cons_index_ne hT hp)
    | cons y q =>
      cases T with
      | leaf n z => cases hp
      | inner n l r =>
        obtain ⟨hl, hr, hlr⟩ := List.nodup_append.mp (List.nodup_cons.mp hT).2
        cases x <;> cases y
        · exact congrArg _ (ih hl hp hq)
        · exact absurd huv (hlr _ (sub_index_mem (T := l) hp) _ (sub_index_mem (T := r) hq))
        · exact absurd huv.symm (hlr _ (sub_index_mem (T := l) hq) _ (sub_index_mem (T := r) hp))
        · exact congrArg _ (ih hr hp hq)

/-! ### Leaves -/

theorem leaf_mem_leaves {T : NodeTree} {p : BitString} {n : NodeIx} {x : Sym} (hp : T.sub p = some (leaf n x)) :
    (n, x) ∈ T.leaves := by
  induction p generalizing T with
  | nil =>
    obtain rfl : T = leaf n x := by cases T <;> cases hp; rfl
    exact List.mem_cons_self
  | cons y p ih =>
    cases T with
    | leaf m z => cases hp
    | inner m l r =>
      refine List.mem_append.mpr ?_
      cases y
      · exact .inl (ih hp)
      · exact .inr (ih hp)

/-- A path to a leaf in the array leads to that leaf of the term. -/
theorem sub_of_leafPath {t : Nodes} {T : NodeTree} {p : BitString} {x : Sym} (h : T.StandsIn t)
    (hp : LeafPath t T.index p x) : ∃ n, T.sub p = some (leaf n x) := by
  obtain ⟨n, r, hdesc, hr, hleaf, hsym⟩ := hp
  rw [descend_index h] at hdesc
  obtain ⟨U, hU, rfl⟩ := Option.map_eq_some_iff.mp hdesc
  have hstands := h.sub hU
  cases U with
  | leaf n y =>
    obtain ⟨r', hr', _, _, hsym', _⟩ := hstands
    obtain rfl : r = r' := Option.some.inj (hr.symm.trans hr')
    obtain rfl : y = x := hsym'.symm.trans hsym
    exact ⟨n, hU⟩
  | inner n l r' =>
    obtain ⟨⟨rec, hrec, _, hinner, _⟩, _⟩ := hstands
    obtain rfl : r = rec := Option.some.inj (hr.symm.trans hrec)
    exact absurd hleaf (by simp [hinner])

/-- Where no index and no symbol stands twice, no symbol stands at two leaves (42 R98). -/
theorem distinctLeaves {t : Nodes} {T : NodeTree} (h : T.StandsIn t) (hindices : T.indices.Nodup) (hsyms : T.syms.Nodup) :
    DistinctLeaves t T.index := by
  intro p q x hp hq
  obtain ⟨n, hn⟩ := sub_of_leafPath h hp
  obtain ⟨m, hm⟩ := sub_of_leafPath h hq
  have heq : (n, x) = (m, x) := List.inj_on_of_nodup_map hsyms (leaf_mem_leaves hn) (leaf_mem_leaves hm) rfl
  exact path_unique hindices hn hm (congrArg Prod.fst heq)

end NodeTree

/-! ### The check of a tree -/

/-- Distinct indices below `k` are at most `k`. -/
theorem length_le_of_nodup_below {l : List NodeIx} {k : Nat} (h : l.Nodup) (hbelow : ∀ n ∈ l, n.toNat < k) :
    l.length ≤ k := by
  have hnodup : (l.map BitVec.toNat).Nodup := h.map fun _ _ => BitVec.eq_of_toNat_eq
  have hsub : l.map BitVec.toNat ⊆ List.range k := by
    intro i hi
    obtain ⟨n, hn, rfl⟩ := List.mem_map.mp hi
    exact List.mem_range.mpr (hbelow n hn)
  simpa using (hnodup.subperm hsub).length_le

/-- Distinct indices below `nn`, none of them seen before. -/
def Fresh (nn : Nat) (seen l : List NodeIx) : Prop := l.Nodup ∧ ∀ n ∈ l, n.toNat < nn ∧ n ∉ seen

theorem fresh_cons_iff {nn : Nat} {seen l : List NodeIx} {n : NodeIx} :
    Fresh nn seen (n :: l) ↔ (n.toNat < nn ∧ n ∉ seen) ∧ Fresh nn (n :: seen) l := by
  simp only [Fresh, List.nodup_cons, List.mem_cons]
  grind

/-- One node of the walk: a new valid record below `nn`, a leaf without children, or an internal node whose children are walked
next (45 R114 conditions 3 and 4). -/
theorem reachOk_cons_iff {t : Nodes} {nn fuel : Nat} {n : NodeIx} {stack seen : List NodeIx} :
    reachOk t nn (fuel + 1) (n :: stack) seen = true ↔
      (n.toNat < nn ∧ n ∉ seen) ∧ ∃ r, nodeAt t n = some r ∧ r.valid = true ∧
        (r.leaf = true ∧ r.left = 0#8 ∧ r.right = 0#8 ∧ reachOk t nn fuel stack (n :: seen) = true ∨
          r.leaf = false ∧ reachOk t nn fuel (r.left :: r.right :: stack) (n :: seen) = true) := by
  rw [reachOk]
  cases nodeAt t n with
  | none => simp
  | some r => cases hleaf : r.leaf <;> simp [hleaf, and_assoc]

/-- The trees `F` stand in the array with their roots on the stack, and their nodes are new and no more than the fuel. -/
structure Walkable (t : Nodes) (nn fuel : Nat) (stack seen : List NodeIx) (F : List NodeTree) : Prop where
  roots : F.map NodeTree.index = stack
  standsIn : ∀ T ∈ F, T.StandsIn t
  fresh : Fresh nn seen (F.flatMap NodeTree.indices)
  few : (F.flatMap NodeTree.indices).length ≤ fuel

section
variable {t : Nodes} {nn fuel : Nat} {n : NodeIx} {stack seen : List NodeIx} {F : List NodeTree}

theorem walkable_nil : Walkable t nn fuel [] seen [] := ⟨rfl, nofun, ⟨.nil, nofun⟩, Nat.zero_le fuel⟩

/-- A leaf on the stack is walked by taking it off. -/
theorem walkable_leaf_iff {x : Sym} :
    Walkable t nn (fuel + 1) (n :: stack) seen (.leaf n x :: F) ↔
      (n.toNat < nn ∧ n ∉ seen) ∧ (NodeTree.leaf n x).StandsIn t ∧ Walkable t nn fuel stack (n :: seen) F := by
  constructor
  · rintro ⟨hroots, hstands, hfresh, hfew⟩
    obtain ⟨hnew, hfresh⟩ := fresh_cons_iff.mp hfresh
    obtain ⟨hleaf, hstands⟩ := List.forall_mem_cons.mp hstands
    exact ⟨hnew, hleaf, (List.cons.inj hroots).2, hstands, hfresh, Nat.le_of_succ_le_succ hfew⟩
  · rintro ⟨hnew, hleaf, hroots, hstands, hfresh, hfew⟩
    exact ⟨congrArg (n :: ·) hroots, List.forall_mem_cons.mpr ⟨hleaf, hstands⟩, fresh_cons_iff.mpr ⟨hnew, hfresh⟩,
      Nat.succ_le_succ hfew⟩

/-- An internal node on the stack is walked by putting its children in its place. -/
theorem walkable_inner_iff {L R : NodeTree} {r : NodeRec} (hr : nodeAt t n = some r) (hvalid : r.valid = true)
    (hinner : r.leaf = false) :
    Walkable t nn (fuel + 1) (n :: stack) seen (.inner n L R :: F) ↔
      (n.toNat < nn ∧ n ∉ seen) ∧ Walkable t nn fuel (r.left :: r.right :: stack) (n :: seen) (L :: R :: F) := by
  have hnodes : (NodeTree.inner n L R :: F).flatMap NodeTree.indices = n :: (L :: R :: F).flatMap NodeTree.indices := by
    simp [NodeTree.indices]
  constructor
  · rintro ⟨hroots, hstands, hfresh, hfew⟩
    rw [hnodes] at hfresh hfew
    obtain ⟨hnew, hfresh⟩ := fresh_cons_iff.mp hfresh
    obtain ⟨⟨⟨r', hr', _, _, hleft, hright⟩, hL, hR⟩, hF⟩ := List.forall_mem_cons.mp hstands
    obtain rfl : r = r' := Option.some.inj (hr.symm.trans hr')
    refine ⟨hnew, ?_, ?_, hfresh, Nat.le_of_succ_le_succ hfew⟩
    · rw [hleft, hright, ← (List.cons.inj hroots).2]; rfl
    · exact List.forall_mem_cons.mpr ⟨hL, List.forall_mem_cons.mpr ⟨hR, hF⟩⟩
  · rintro ⟨hnew, hroots, hstands, hfresh, hfew⟩
    obtain ⟨hL, hstands⟩ := List.forall_mem_cons.mp hstands
    obtain ⟨hR, hF⟩ := List.forall_mem_cons.mp hstands
    simp only [List.map_cons, List.cons.injEq] at hroots
    obtain ⟨hleft, hright, hstack⟩ := hroots
    refine ⟨congrArg (n :: ·) hstack, List.forall_mem_cons.mpr ⟨?_, hF⟩, ?_, ?_⟩
    · exact ⟨⟨r, hr, hvalid, hinner, hleft.symm, hright.symm⟩, hL, hR⟩
    · exact hnodes ▸ fresh_cons_iff.mpr ⟨hnew, hfresh⟩
    · exact hnodes ▸ Nat.succ_le_succ hfew

/-- The walk of the check succeeds exactly where the nodes on its stack are the roots of such trees (45 R114). -/
theorem reachOk_iff : reachOk t nn fuel stack seen = true ↔ ∃ F, Walkable t nn fuel stack seen F := by
  induction fuel generalizing stack seen with
  | zero =>
    cases stack with
    | nil => exact iff_of_true rfl ⟨[], walkable_nil⟩
    | cons n stack =>
      refine iff_of_false nofun ?_
      rintro ⟨_ | ⟨T, F⟩, hroots, _, _, hfew⟩
      · cases hroots
      · have := T.one_le_indices_length
        rw [List.flatMap_cons, List.length_append] at hfew
        omega
  | succ fuel ih =>
    cases stack with
    | nil => exact iff_of_true rfl ⟨[], walkable_nil⟩
    | cons n stack =>
      rw [reachOk_cons_iff]
      constructor
      · rintro ⟨hnew, r, hr, hvalid, ⟨hleaf, hleft, hright, hrest⟩ | ⟨hinner, hrest⟩⟩
        · obtain ⟨F, hF⟩ := ih.mp hrest
          exact ⟨.leaf n r.sym :: F, walkable_leaf_iff.mpr ⟨hnew, ⟨r, hr, hvalid, hleaf, rfl, hleft, hright⟩, hF⟩⟩
        · obtain ⟨F, hF⟩ := ih.mp hrest
          obtain ⟨L, F, rfl, _, hroots⟩ := List.map_eq_cons_iff.mp hF.roots
          obtain ⟨R, F, rfl, _, _⟩ := List.map_eq_cons_iff.mp hroots
          exact ⟨.inner n L R :: F, (walkable_inner_iff hr hvalid hinner).mpr ⟨hnew, hF⟩⟩
      · rintro ⟨F, hF⟩
        obtain ⟨T, F, rfl, rfl, _⟩ := List.map_eq_cons_iff.mp hF.roots
        cases T with
        | leaf n x =>
          obtain ⟨hnew, ⟨r, hr, hvalid, hleaf, _, hleft, hright⟩, hrest⟩ := walkable_leaf_iff.mp hF
          exact ⟨hnew, r, hr, hvalid, .inl ⟨hleaf, hleft, hright, ih.mpr ⟨F, hrest⟩⟩⟩
        | inner n L R =>
          obtain ⟨⟨r, hr, hvalid, hinner, _⟩, _⟩ := hF.standsIn _ List.mem_cons_self
          obtain ⟨hnew, hrest⟩ := (walkable_inner_iff hr hvalid hinner).mp hF
          exact ⟨hnew, r, hr, hvalid, .inr ⟨hinner, ih.mpr ⟨L :: R :: F, hrest⟩⟩⟩

end

/-- The tree stands in the array on distinct indices below `nn`. -/
structure NodeTree.Fits (T : NodeTree) (t : Nodes) (nn : NodeIx) : Prop where
  standsIn : T.StandsIn t
  nodup : T.indices.Nodup
  below : ∀ n ∈ T.indices, n.toNat < nn.toNat

theorem NodeTree.Fits.length_le {T : NodeTree} {t : Nodes} {nn : NodeIx} (h : T.Fits t nn) : T.indices.length ≤ nn.toNat :=
  length_le_of_nodup_below h.nodup h.below

/-- The walk of the check from one root succeeds exactly where the root is that of a tree that fits the array. -/
theorem reachOk_root_iff {t : Nodes} {nn root : NodeIx} :
    reachOk t nn.toNat 255 [root] [] = true ↔ ∃ T : NodeTree, T.index = root ∧ T.Fits t nn := by
  rw [reachOk_iff]
  constructor
  · rintro ⟨F, hroots, hstands, ⟨hnodup, hbelow⟩, _⟩
    obtain ⟨T, rfl, hroot⟩ := List.map_eq_singleton_iff.mp hroots
    rw [List.flatMap_singleton] at hnodup hbelow
    exact ⟨T, hroot, hstands T List.mem_cons_self, hnodup, fun n hn => (hbelow n hn).1⟩
  · rintro ⟨T, hroot, hfits⟩
    refine ⟨[T], congrArg (fun n => [n]) hroot, List.forall_mem_singleton.mpr hfits.standsIn, ?_, ?_⟩ <;>
      rw [List.flatMap_singleton]
    · exact ⟨hfits.nodup, fun n hn => ⟨hfits.below n hn, nofun⟩⟩
    · have := hfits.length_le
      have := nn.isLt
      omega

theorem rootInternal_iff {t : Nodes} {root : NodeIx} :
    rootInternal t root = true ↔ ∃ r, nodeAt t root = some r ∧ r.valid = true ∧ r.leaf = false := by
  rw [rootInternal]
  cases nodeAt t root <;> simp

/-- Conditions 1 to 4 of WF_ROM hold exactly where the root is the internal root of a tree that fits the array (45 R114). -/
theorem wfTree_iff {t : Nodes} {nn root : NodeIx} :
    wfTree t nn root = true ↔ ∃ L R, (NodeTree.inner root L R).Fits t nn := by
  simp only [wfTree, Bool.and_eq_true, decide_eq_true_eq, rootInternal_iff, reachOk_root_iff]
  constructor
  · rintro ⟨⟨_, r, hr, _, hinner⟩, T, rfl, hfits⟩
    cases T with
    | leaf n x =>
      obtain ⟨r', hr', _, hleaf, _⟩ := hfits.standsIn
      obtain rfl : r = r' := Option.some.inj (hr.symm.trans hr')
      cases hinner.symm.trans hleaf
    | inner n L R => exact ⟨L, R, hfits⟩
  · rintro ⟨L, R, hfits⟩
    obtain ⟨⟨r, hr, hvalid, hinner, _⟩, _⟩ := hfits.standsIn
    refine ⟨⟨⟨?_, hfits.below root List.mem_cons_self⟩, r, hr, hvalid, hinner⟩, _, rfl, hfits⟩
    have hlen := hfits.length_le
    have := L.one_le_indices_length
    have := R.one_le_indices_length
    rw [NodeTree.indices, List.length_cons, List.length_append] at hlen
    omega

/-- In a strict tree of `nn` nodes every path has fewer than `nn` bits (45 R118). -/
theorem path_length_lt {t : Nodes} {nn root n : NodeIx} {p : BitString} (h : wfTree t nn root = true)
    (hp : descend t root p = some n) : p.length < nn.toNat := by
  obtain ⟨L, R, hfits⟩ := wfTree_iff.mp h
  rw [← show (NodeTree.inner root L R).index = root from rfl, NodeTree.descend_index hfits.standsIn] at hp
  obtain ⟨U, hU, _⟩ := Option.map_eq_some_iff.mp hp
  have := NodeTree.length_add_indices_le hU
  have := U.one_le_indices_length
  have := hfits.length_le
  omega

end Sys2Proof.Machine
end

section
/-! PROOFS. The two-queue merge of BUILD_TREE makes one tree of the listed symbols (42 R90 to R98). -/

namespace Sys2Proof.Machine

/-! ### The frequency list -/

theorem symbols_length : symbols.length = 128 := by
  rw [symbols, List.length_map, List.length_range]

/-- The counted entries stand in the order of the symbols (42 R90). -/
theorem countedEntries_fst (freq : Vector Word 128) :
    (countedEntries freq).map Prod.fst = symbols.filter fun x => decide (freqAt freq x ≠ 0#32) := by
  rw [countedEntries, List.map_filterMap, ← List.filterMap_eq_filter]
  congr 1
  funext x
  by_cases h : freqAt freq x = 0#32 <;> simp [h, Option.guard]

/-- The entry injected beside a single one has another symbol (42 R90). -/
theorem inject_fst_nodup {l : List (Sym × Word)} (h : (l.map Prod.fst).Nodup) : ((inject l).map Prod.fst).Nodup := by
  match l, h with
  | [], h => exact h
  | [e], _ => simp [inject]
  | _ :: _ :: _, h => exact h

theorem inject_length {l : List (Sym × Word)} (h : l ≠ []) : (inject l).length = max 2 l.length := by
  match l, h with
  | [e], _ => rfl
  | _ :: _ :: _, _ => simp [inject]

/-- No symbol is listed twice (42 R90). -/
theorem frequencyList_fst_nodup (freq : Vector Word 128) : ((frequencyList freq).map Prod.fst).Nodup := by
  have hcounted : ((countedEntries freq).map Prod.fst).Nodup := by
    rw [countedEntries_fst]
    exact symbols_nodup.filter _
  exact ((sortEntries_perm _).map Prod.fst).nodup_iff.mpr (inject_fst_nodup hcounted)

/-- With a symbol counted, the list has 2 to 128 entries (42 R90). -/
theorem frequencyList_length {freq : Vector Word 128} {x : Sym} (h : freqAt freq x ≠ 0#32) :
    2 ≤ (frequencyList freq).length ∧ (frequencyList freq).length ≤ 128 := by
  have hne : countedEntries freq ≠ [] := List.ne_nil_of_mem (mem_countedEntries.mpr ⟨rfl, h⟩)
  have hfew : (countedEntries freq).length ≤ 128 := by
    rw [← List.length_map Prod.fst, countedEntries_fst, ← symbols_length]
    exact List.length_filter_le ..
  have hlen : (frequencyList freq).length = max 2 (countedEntries freq).length :=
    (sortEntries_perm _).length_eq.trans (inject_length hne)
  omega

/-! ### The queues -/

/-- The nodes in the queues of the merge: the leaves not taken yet, then the target queue (10 R38). -/
def available (l : Nat) (q : MergeState) : List Nat := List.range' q.sh (l - q.sh) ++ q.tgt

theorem available_length (l : Nat) (q : MergeState) : (available l q).length = l - q.sh + q.tgt.length := by
  rw [available, List.length_append, List.length_range']

theorem available_push (l a : Nat) (q : MergeState) :
    available l { q with tgt := q.tgt ++ [a] } = available l q ++ [a] :=
  (List.append_assoc ..).symm

theorem range'_head {sh l : Nat} (h : sh < l) : List.range' sh (l - sh) = sh :: List.range' (sh + 1) (l - (sh + 1)) := by
  rw [show l - sh = l - (sh + 1) + 1 by omega, List.range'_succ]

/-- What `dq` takes leaves the queues (42 R94). -/
theorem available_dq {l a : Nat} {q q' : MergeState} (h : dq l q = (some a, q')) :
    (available l q).Perm (a :: available l q') := by
  unfold dq at h
  split at h
  case h_1 htgt =>
    split at h <;> cases h
    simp [available, htgt, range'_head ‹_›]
  case h_2 b ts htgt =>
    split at h
    case isTrue hsource =>
      split at h <;> cases h
      · simp [available, range'_head hsource]
      · simp [available, htgt]
    case isFalse =>
      cases h
      simp [available, htgt]

/-- `dq` takes nothing only from empty queues, and leaves them (42 R94). -/
theorem dq_none {l : Nat} {q q' : MergeState} (h : dq l q = (none, q')) : q' = q ∧ l ≤ q.sh := by
  unfold dq at h
  split at h
  case h_1 htgt =>
    split at h <;> cases h
    exact ⟨rfl, by omega⟩
  case h_2 => split_ifs at h <;> cases h

theorem dq_keeps {l : Nat} {o : Option Nat} {q q' : MergeState} (h : dq l q = (o, q')) :
    q'.node = q.node ∧ q'.nxt = q.nxt := by
  obtain ⟨hnode, hnxt, _⟩ := dq_frame l q
  rw [h] at hnode hnxt
  exact ⟨hnode, hnxt⟩

/-! ### The forest in the queues -/

/-- A list whose image is a reordered `b :: m` is a reordered list with an element over `b` first. -/
theorem exists_perm_cons_of_map_perm {α β : Type} {f : α → β} {l : List α} {b : β} {m : List β}
    (h : (l.map f).Perm (b :: m)) : ∃ a l', l.Perm (a :: l') ∧ f a = b ∧ (l'.map f).Perm m := by
  obtain ⟨a, ha, rfl⟩ := List.mem_map.mp (h.mem_iff.mpr List.mem_cons_self)
  obtain ⟨u, v, rfl⟩ := List.append_of_mem ha
  refine ⟨a, u ++ v, List.perm_middle, rfl, List.Perm.cons_inv (a := f a) (.trans ?_ h)⟩
  rw [← List.map_cons]
  exact List.perm_middle.symm.map f

/-- The merge state of a list: the queues hold the roots of trees that stand in the node array on distinct indices below `nxt`,
whose leaves have the listed symbols; each merge makes one node and one tree less (42 R93, R98). -/
structure Forest (es : List (Sym × Word)) (q : MergeState) (F : List NodeTree) : Prop where
  roots : (F.map fun T => T.index.toNat).Perm (available es.length q)
  standsIn : ∀ T ∈ F, T.StandsIn q.node
  nodup : (F.flatMap NodeTree.indices).Nodup
  below : ∀ n ∈ F.flatMap NodeTree.indices, n.toNat < q.nxt
  syms : (F.flatMap NodeTree.syms).Perm (es.map Prod.fst)
  size : q.nxt + F.length = 2 * es.length

section
variable {es : List (Sym × Word)} {q q' : MergeState} {F G : List NodeTree}

/-- The order of the trees does not matter, nor which queue holds a root. -/
theorem Forest.reorder (h : Forest es q F) (hFG : F.Perm G) (hnode : q'.node = q.node) (hnxt : q'.nxt = q.nxt)
    (havail : (available es.length q).Perm (available es.length q')) : Forest es q' G where
  roots := ((hFG.map _).symm.trans h.roots).trans havail
  standsIn T hT := hnode ▸ h.standsIn T (hFG.mem_iff.mpr hT)
  nodup := (hFG.flatMap_right _).nodup_iff.mp h.nodup
  below n hn := hnxt ▸ h.below n ((hFG.flatMap_right _).mem_iff.mpr hn)
  syms := (hFG.flatMap_right _).symm.trans h.syms
  size := by rw [hnxt, ← hFG.length_eq]; exact h.size

/-- The merge starts with every entry as a leaf of its own (42 R96 steps 1 and 2). -/
def leafTrees (es : List (Sym × Word)) : List NodeTree := es.zipIdx.map fun e => .leaf (BitVec.ofNat 8 e.2) e.1.1

theorem leafTrees_indices (hmany : es.length ≤ 128) :
    ((leafTrees es).flatMap NodeTree.indices).map BitVec.toNat = List.range' 0 es.length := by
  rw [← List.zipIdx_map_snd, leafTrees, List.flatMap_map]
  simp only [NodeTree.indices, ← List.map_eq_flatMap, List.map_map]
  refine List.map_congr_left fun e he => ?_
  have := List.snd_lt_of_mem_zipIdx he
  simp
  omega

theorem leafTrees_standIn (hmany : es.length ≤ 128) : ∀ T ∈ leafTrees es, T.StandsIn (mergeStart es).node := by
  intro T hT
  obtain ⟨⟨e, i⟩, he, rfl⟩ := List.mem_map.mp hT
  have hi := List.mem_zipIdx_iff_getElem?.mp he
  obtain ⟨hlt, _⟩ := List.getElem?_eq_some_iff.mp hi
  refine ⟨leafOf e, ?_, rfl, rfl, rfl, rfl, rfl⟩
  have h8 : (BitVec.ofNat 8 i).toNat = i := by simp; omega
  rw [nodeAt, h8, mergeStart, writeFrom_getElem?, if_pos (by simp; omega)]
  simp [hi]

theorem forest_start (hmany : es.length ≤ 128) : Forest es (mergeStart es) (leafTrees es) := by
  have hindices := leafTrees_indices hmany
  constructor
  case roots =>
    have hroots : (leafTrees es).map (fun T => T.index.toNat) = List.range' 0 es.length := by
      rw [← hindices, leafTrees, List.flatMap_map]
      simp only [NodeTree.indices, ← List.map_eq_flatMap, List.map_map]
      rfl
    rw [hroots]
    simp [available, mergeStart]
  case standsIn => exact leafTrees_standIn hmany
  case nodup => exact .of_map BitVec.toNat (hindices ▸ List.nodup_range')
  case below =>
    intro n hn
    have hmem := hindices ▸ List.mem_map_of_mem (f := BitVec.toNat) hn
    simpa [mergeStart] using hmem
  case syms =>
    rw [leafTrees, List.flatMap_map]
    simp only [NodeTree.syms, NodeTree.leaves, List.map_cons, List.map_nil, ← List.map_eq_flatMap]
    have hfst := congrArg (List.map Prod.fst) (List.zipIdx_map_fst 0 es)
    rw [List.map_map] at hfst
    exact .of_eq hfst
  case size => simp [mergeStart, leafTrees]; omega

/-- `Merge` leaves every record but the new one (42 R95). -/
theorem mergeNodes_kept {a b : Nat} {n : NodeIx} (h : n.toNat ≠ q.nxt) :
    nodeAt (mergeNodes a b q).node n = nodeAt q.node n :=
  Vector.getElem?_setIfInBounds_ne h.symm

/-- `Merge` writes its record at the next free index (42 R95). -/
theorem mergeNodes_new {a b : Nat} {n : NodeIx} (h : n.toNat = q.nxt) (hroom : q.nxt < 255) :
    nodeAt (mergeNodes a b q).node n = some (mergedNode q.node a b) := by
  simp [nodeAt, mergeNodes, h, hroom]

/-- `Merge` of two trees of the forest (42 R95). -/
theorem Forest.merge {a b : Nat} (h : Forest es q F) (hmany : es.length ≤ 128)
    (havail : (available es.length q).Perm (a :: b :: available es.length q')) (hnode : q'.node = q.node)
    (hnxt : q'.nxt = q.nxt) : ∃ G, Forest es (mergeNodes a b q') G ∧ G.length + 1 = F.length := by
  obtain ⟨A, F1, hA, rfl, hF1⟩ := exists_perm_cons_of_map_perm (h.roots.trans havail)
  obtain ⟨B, F2, hB, rfl, hF2⟩ := exists_perm_cons_of_map_perm hF1
  have hperm : F.Perm (A :: B :: F2) := hA.trans (hB.cons A)
  have hAB : Forest es q (A :: B :: F2) := h.reorder hperm rfl rfl .rfl
  have hlen := hperm.length_eq
  have hsize := h.size
  simp only [List.length_cons] at hlen
  have hroom : q.nxt < 255 := by omega
  have h8 : (BitVec.ofNat 8 q.nxt).toNat = q.nxt := by rw [BitVec.toNat_ofNat]; omega
  have hnodes : (.inner (BitVec.ofNat 8 q.nxt) A B :: F2).flatMap NodeTree.indices =
      BitVec.ofNat 8 q.nxt :: (A :: B :: F2).flatMap NodeTree.indices := by simp [NodeTree.indices]
  have hkept : ∀ T ∈ A :: B :: F2, T.StandsIn (mergeNodes A.index.toNat B.index.toNat q').node := by
    intro T hT
    refine (hAB.standsIn T hT).congr fun n hn => ?_
    have hlt := hAB.below n (List.mem_flatMap_of_mem hT hn)
    exact (mergeNodes_kept (by omega)).trans (congrArg (nodeAt · n) hnode)
  refine ⟨.inner (BitVec.ofNat 8 q.nxt) A B :: F2, ?_, by rw [List.length_cons]; omega⟩
  constructor
  case roots =>
    have hpush : available es.length (mergeNodes A.index.toNat B.index.toNat q') = available es.length q' ++ [q.nxt] :=
      hnxt ▸ available_push es.length q'.nxt q'
    rw [hpush, List.map_cons, NodeTree.index, h8]
    exact (hF2.cons q.nxt).trans (List.perm_append_singleton ..).symm
  case standsIn =>
    rw [List.forall_mem_cons, List.forall_mem_cons] at hkept
    obtain ⟨hAin, hBin, hF⟩ := hkept
    refine List.forall_mem_cons.mpr ⟨⟨⟨_, mergeNodes_new ?_ ?_, rfl, rfl, ?_, ?_⟩, hAin, hBin⟩, hF⟩
    · omega
    · omega
    · simp [mergedNode]
    · simp [mergedNode]
  case nodup =>
    rw [hnodes]
    refine List.nodup_cons.mpr ⟨fun hmem => ?_, hAB.nodup⟩
    have := hAB.below _ hmem
    omega
  case below =>
    rw [hnodes]
    have hnxt' : (mergeNodes A.index.toNat B.index.toNat q').nxt = q.nxt + 1 := congrArg (· + 1) hnxt
    refine List.forall_mem_cons.mpr ⟨by omega, fun n hn => ?_⟩
    have := hAB.below n hn
    omega
  case syms =>
    refine .trans ?_ hAB.syms
    simp [NodeTree.syms, NodeTree.leaves]
  case size => simp [mergeNodes, hnxt]; omega

theorem Forest.length_eq (h : Forest es q F) : F.length = (available es.length q).length := by
  rw [← h.roots.length_eq, List.length_map]

theorem drainSource_done {l : Nat} (fuel : Nat) (h : l ≤ q.sh) : drainSource l fuel q = q := by
  cases fuel with
  | zero => rfl
  | succ fuel => rw [drainSource, if_neg (by omega)]

/-- A turn of the first loop that takes two nodes merges them (42 R96 step 3). -/
theorem drainSource_merge {l fuel a b : Nat} {q1 q2 : MergeState} (hsource : q.sh < l) (h1 : dq l q = (some a, q1))
    (h2 : dq l q1 = (some b, q2)) : drainSource l (fuel + 1) q = drainSource l fuel (mergeNodes a b q2) := by
  simp [drainSource, hsource, h1, h2]

/-- A turn of the first loop that takes a lone node puts it into the target queue (42 R97). -/
theorem drainSource_lone {l fuel a : Nat} {q1 q2 : MergeState} (hsource : q.sh < l) (h1 : dq l q = (some a, q1))
    (h2 : dq l q1 = (none, q2)) : drainSource l (fuel + 1) q = drainSource l fuel { q2 with tgt := q2.tgt ++ [a] } := by
  simp [drainSource, hsource, h1, h2]

/-- The first loop keeps the forest and ends with every leaf taken, its bound being at least the number of trees
(42 R96 step 3; log 16). -/
theorem drainSource_forest (hmany : es.length ≤ 128) (fuel : Nat) (h : Forest es q F) (hfuel : F.length ≤ fuel) :
    ∃ G, Forest es (drainSource es.length fuel q) G ∧ es.length ≤ (drainSource es.length fuel q).sh := by
  induction fuel generalizing q F with
  | zero =>
    have hnone := h.length_eq
    rw [available_length] at hnone
    exact ⟨F, h, by rw [drainSource]; omega⟩
  | succ fuel ih =>
    by_cases hsource : q.sh < es.length
    case neg =>
      have hdone : es.length ≤ q.sh := by omega
      rw [drainSource_done _ hdone]
      exact ⟨F, h, hdone⟩
    case pos =>
      rcases h1 : dq es.length q with ⟨_ | a, q1⟩
      case none =>
        obtain ⟨_, hdone⟩ := dq_none h1
        omega
      case some =>
        obtain ⟨hnode1, hnxt1⟩ := dq_keeps h1
        rcases h2 : dq es.length q1 with ⟨_ | b, q2⟩
        case none =>
          obtain ⟨rfl, hdone⟩ := dq_none h2
          have hlone := (available_dq h1).trans (List.perm_append_singleton a (available es.length q2)).symm
          rw [← available_push] at hlone
          rw [drainSource_lone hsource h1 h2, drainSource_done (q := { q2 with tgt := q2.tgt ++ [a] }) fuel hdone]
          exact ⟨F, h.reorder .rfl hnode1 hnxt1 hlone, hdone⟩
        case some =>
          obtain ⟨hnode2, hnxt2⟩ := dq_keeps h2
          have havail := (available_dq h1).trans ((available_dq h2).cons a)
          obtain ⟨G, hG, hlen⟩ := h.merge hmany havail (hnode2.trans hnode1) (hnxt2.trans hnxt1)
          rw [drainSource_merge hsource h1 h2]
          exact ih hG (by omega)

/-- The second loop keeps the forest, every leaf being taken (42 R96 step 4). -/
theorem drainTarget_forest (hmany : es.length ≤ 128) (fuel : Nat) (h : Forest es q F) (hsource : es.length ≤ q.sh) :
    ∃ G, Forest es (drainTarget fuel q) G ∧ es.length ≤ (drainTarget fuel q).sh := by
  induction fuel generalizing q F with
  | zero => exact ⟨F, h, hsource⟩
  | succ fuel ih =>
    rw [drainTarget]
    split
    case h_1 a b ts htgt =>
      have havail : (available es.length q).Perm (a :: b :: available es.length { q with tgt := ts }) := by
        simp [available, htgt, Nat.sub_eq_zero_of_le hsource]
      obtain ⟨G, hG, _⟩ := h.merge hmany havail rfl rfl
      exact ih hG hsource
    case h_2 => exact ⟨F, h, hsource⟩

end

/-- The merge that leaves a single node in its queues leaves one tree of all the listed symbols below it (42 R96 step 5). -/
theorem twoQueue_tree {es : List (Sym × Word)} {r : Nat} (hmany : es.length ≤ 128) (htgt : (twoQueue es).tgt = [r]) :
    ∃ T : NodeTree, T.index.toNat = r ∧ Forest es (twoQueue es) [T] := by
  obtain ⟨F, hF, hsource⟩ := drainSource_forest hmany es.length (forest_start hmany) (by simp [leafTrees])
  obtain ⟨G, hG, hsource⟩ := drainTarget_forest hmany es.length hF hsource
  have hroots := hG.roots
  rw [show available es.length _ = [r] by simp [available, Nat.sub_eq_zero_of_le hsource, ← htgt, twoQueue]] at hroots
  obtain ⟨T, rfl, hT⟩ := List.map_eq_singleton_iff.mp (List.perm_singleton.mp hroots)
  exact ⟨T, hT, hG⟩

/-- The merge of 2 to 128 entries of distinct symbols leaves a strict tree of `2 L - 1` nodes, no symbol at two leaves
(42 R98). -/
theorem twoQueue_wf {es : List (Sym × Word)} {r : Nat} (hsome : 2 ≤ es.length) (hmany : es.length ≤ 128)
    (hsyms : (es.map Prod.fst).Nodup) (htgt : (twoQueue es).tgt = [r]) :
    (twoQueue es).nxt + 1 = 2 * es.length ∧
      wfTree (twoQueue es).node (BitVec.ofNat 8 (twoQueue es).nxt) (BitVec.ofNat 8 r) = true ∧
      DistinctLeaves (twoQueue es).node (BitVec.ofNat 8 r) := by
  obtain ⟨T, rfl, hforest⟩ := twoQueue_tree hmany htgt
  obtain ⟨_, hstands, hnodup, hbelow, hperm, hsize⟩ := hforest
  rw [List.flatMap_singleton] at hnodup hbelow hperm
  rw [List.length_singleton] at hsize
  have hstands := hstands T List.mem_cons_self
  rw [BitVec.ofNat_toNat, BitVec.setWidth_eq]
  refine ⟨hsize, ?_, NodeTree.distinctLeaves hstands hnodup (hperm.nodup_iff.mpr hsyms)⟩
  have h8 : (BitVec.ofNat 8 (twoQueue es).nxt).toNat = (twoQueue es).nxt := by rw [BitVec.toNat_ofNat]; omega
  cases T with
  | leaf n x =>
    have hone : 1 = (es.map Prod.fst).length := hperm.length_eq
    rw [List.length_map] at hone
    omega
  | inner n L R => exact wfTree_iff.mpr ⟨L, R, hstands, hnodup, fun m hm => h8.symm ▸ hbelow m hm⟩

end Sys2Proof.Machine
end

section
/-! PROOFS. Every step keeps what the phase says of the data path (10 R24 to R36; 40 R75, R81; 45 R118). -/

namespace Sys2Proof.Machine

/-! ### The invariant, of the data path and of the command in progress -/

/-- What the phase says of the data path itself: the part of `PhaseInv` that does not speak of a command. -/
structure DataPathInv (s : State) : Prop where
  unbuilt : treeReady s.phase = false → s.nsym = 0#8 ∧ s.nnodes = 0#8 ∧ s.root = 0#8 ∧
    s.list = Vector.replicate 128 zeroEntry ∧ s.node = Vector.replicate 255 zeroNode
  built : treeReady s.phase = true → s.total ≠ 0#32 ∧ s.nnodes.toNat + 1 = 2 * s.nsym.toNat ∧
    wfTree s.node s.nnodes s.root = true ∧ DistinctLeaves s.node s.root
  untabled : s.phase ≠ .tableReady → s.code = Vector.replicate 128 zeroCode ∧ s.bitlen = 0#64 ∧ s.pad = 0#4
  tabled : s.phase = .tableReady → traverse s.node s.root = .ok s.code ∧
    s.bitlen = BitVec.ofNat 64 (payloadLength s.freq s.code) ∧
    s.pad = BitVec.ofNat 4 (padFor (payloadLength s.freq s.code))

/-- The phases in which a command may be in progress (40 R75). -/
def MayRun (i : Instr) (tsrc : Bool) (s : State) : Prop :=
  match i with
  | .clear => True
  | .count => s.phase = .idle
  | .buildTree => s.phase ≠ .idle ∧ s.total ≠ 0#32
  | .buildTable => treeReady s.phase = true
  | .encode => s.phase = .tableReady
  | .decode => tsrc = true → treeReady s.phase = true

/-- What holds of the data path and of the command `c` while it is in progress. -/
structure RunningInv (c : Cur) (s : State) : Prop extends DataPathInv s where
  allowed : MayRun c.op c.tsrc s
  walker : c.op = .decode → InternalAt (treeNodes c.tsrc s) (treeRoot c.tsrc s) c.wnode c.pend.toNat

theorem RunningInv.allowed_of_op {c : Cur} {s : State} {i : Instr} (h : RunningInv c s) (hop : c.op = i) :
    MayRun i c.tsrc s :=
  hop ▸ h.allowed

theorem phaseInv_iff {s : State} : PhaseInv s ↔ DataPathInv s ∧ ∀ c, s.cur = some c → RunningInv c s := by
  constructor
  · rintro ⟨hunbuilt, hbuilt, huntabled, htabled, hallowed, hwalker⟩
    have hpath : DataPathInv s := ⟨hunbuilt, hbuilt, huntabled, htabled⟩
    exact ⟨hpath, fun c hc => ⟨hpath, hallowed c hc, hwalker c hc⟩⟩
  · rintro ⟨⟨hunbuilt, hbuilt, huntabled, htabled⟩, hrun⟩
    exact ⟨hunbuilt, hbuilt, huntabled, htabled, fun c hc => (hrun c hc).allowed, fun c hc => (hrun c hc).walker⟩

/-! ### What leaves the data path -/

/-- The data path, and the ROM, are the same in `t` as in `s`. -/
structure SameDataPath (s t : State) : Prop where
  phase : t.phase = s.phase
  total : t.total = s.total
  nsym : t.nsym = s.nsym
  nnodes : t.nnodes = s.nnodes
  root : t.root = s.root
  bitlen : t.bitlen = s.bitlen
  pad : t.pad = s.pad
  freq : t.freq = s.freq
  list : t.list = s.list
  node : t.node = s.node
  code : t.code = s.code
  rom : t.rom = s.rom

theorem SameDataPath.emitAll (s : State) (bs : List Byte) : SameDataPath s (emitAll s bs) := by
  rw [emitAll_eq]
  constructor <;> rfl

theorem SameBlock.sameDataPath {s t : State} (h : SameBlock s t) : SameDataPath s t := { h with }

theorem SameDataPath.treeNodes {s t : State} (h : SameDataPath s t) (src : Bool) : treeNodes src t = treeNodes src s := by
  rw [Machine.treeNodes, Machine.treeNodes, h.node, h.rom]

theorem SameDataPath.treeRoot {s t : State} (h : SameDataPath s t) (src : Bool) : treeRoot src t = treeRoot src s := by
  rw [Machine.treeRoot, Machine.treeRoot, h.root, h.rom]

theorem DataPathInv.same {s t : State} (h : DataPathInv s) (k : SameDataPath s t) : DataPathInv t where
  unbuilt := by simpa only [k.phase, k.nsym, k.nnodes, k.root, k.list, k.node] using h.unbuilt
  built := by simpa only [k.phase, k.total, k.nsym, k.nnodes, k.root, k.node] using h.built
  untabled := by simpa only [k.phase, k.code, k.bitlen, k.pad] using h.untabled
  tabled := by simpa only [k.phase, k.node, k.root, k.code, k.bitlen, k.pad, k.freq] using h.tabled

theorem MayRun.same {i : Instr} {src : Bool} {s t : State} (h : MayRun i src s) (k : SameDataPath s t) : MayRun i src t := by
  cases i
  case clear => trivial
  all_goals simpa only [MayRun, k.phase, k.total] using h

theorem RunningInv.same {c : Cur} {s t : State} (h : RunningInv c s) (k : SameDataPath s t) : RunningInv c t where
  toDataPathInv := h.toDataPathInv.same k
  allowed := h.allowed.same k
  walker := by simpa only [k.treeNodes, k.treeRoot] using h.walker

theorem PhaseInv.same {s t : State} (h : PhaseInv s) (k : SameDataPath s t) (hcur : t.cur = s.cur) : PhaseInv t := by
  obtain ⟨hpath, hrun⟩ := phaseInv_iff.mp h
  exact phaseInv_iff.mpr ⟨hpath.same k, fun c hc => (hrun c (hcur ▸ hc)).same k⟩

/-- While nothing is built the counts may change, and the phase short of TREE_BUILT. -/
theorem DataPathInv.unready {s : State} {phase : Phase} {total : Word} {freq : Vector Word 128} (h : DataPathInv s)
    (hs : treeReady s.phase = false) (hphase : treeReady phase = false) :
    DataPathInv { s with phase := phase, total := total, freq := freq } where
  unbuilt _ := h.unbuilt hs
  built hready := by cases hphase.symm.trans hready
  untabled _ := h.untabled fun htabled => by rw [htabled] at hs; cases hs
  tabled htabled := by obtain rfl : phase = .tableReady := htabled; cases hphase

/-- A clear data path holds nothing (40 R79). -/
theorem datapathClear_inv (s : State) : DataPathInv (datapathClear s) where
  unbuilt _ := ⟨rfl, rfl, rfl, rfl, rfl⟩
  built := nofun
  untabled _ := ⟨rfl, rfl, rfl⟩
  tabled := nofun

/-! ### Issue -/

/-- A command that passes its check may be in progress, but for COUNT, which first clears the data path (40 R75). -/
theorem mayRun_of_issueCheck {i : Instr} {s : State} (h : issueCheck i s = .none) (hcount : i ≠ .count) :
    MayRun i s.tsrc s := by
  cases i with
  | clear => trivial
  | count => exact absurd rfl hcount
  | buildTree => simp only [issueCheck] at h; split_ifs at h with h1 h2; exact ⟨h1, h2⟩
  | buildTable => simp only [issueCheck] at h; split_ifs at h with h1; exact h1
  | encode => simp only [issueCheck] at h; split_ifs at h with h1; exact h1
  | decode =>
    simp only [issueCheck] at h
    split_ifs at h with h1
    intro htsrc
    simpa [htsrc] using h1

/-- A command other than DECODE keeps no walker. -/
theorem RunningInv.of_ne_decode {c : Cur} {s : State} (h : DataPathInv s) (hallowed : MayRun c.op c.tsrc s)
    (hop : c.op ≠ .decode) : RunningInv c s :=
  ⟨h, hallowed, fun hdecode => absurd hdecode hop⟩

/-- In a phase that allows DECODE its tree is strict: the one built, or the ROM (45 R114, R115). -/
theorem selectedTree_wf {s : State} {src : Bool} (h : DataPathInv s) (hallowed : MayRun .decode src s) :
    ∃ nn, wfTree (treeNodes src s) nn (treeRoot src s) = true := by
  cases src with
  | true =>
    obtain ⟨_, _, hwf, _⟩ := h.built (hallowed rfl)
    exact ⟨s.nnodes, hwf⟩
  | false => exact ⟨s.rom.val.nnodes, (Bool.and_eq_true_iff.mp s.rom.property).1⟩

/-- The walker starts at the root, which is an internal node at depth 0 (45 R116). -/
theorem internalAt_root {t : Nodes} {nn root : NodeIx} (h : wfTree t nn root = true) : InternalAt t root root 0 := by
  obtain ⟨L, R, hfits⟩ := wfTree_iff.mp h
  obtain ⟨⟨r, hr, _, hinner, _⟩, _⟩ := hfits.standsIn
  exact ⟨[], r, rfl, rfl, hr, hinner⟩

/-- From an internal node an edge to an internal node leads one deeper; the depth stays below 255 (45 R118). -/
theorem internalAt_child {t : Nodes} {nn root n : NodeIx} {k : Nat} {r r' : NodeRec} {x : Bool} (hwf : wfTree t nn root = true)
    (h : InternalAt t root n k) (hr : nodeAt t n = some r) (hr' : nodeAt t (if x then r.right else r.left) = some r')
    (hinner : r'.leaf = false) : InternalAt t root (if x then r.right else r.left) (k + 1) ∧ k + 1 < 255 := by
  obtain ⟨p, r₀, hp, rfl, hr₀, hinner₀⟩ := h
  obtain rfl : r = r₀ := Option.some.inj (hr.symm.trans hr₀)
  have hpath : descend t root (p ++ [x]) = some (if x then r.right else r.left) := by
    rw [descend_append, hp]
    simp [descend, hr, hinner₀]
  have hlen := path_length_lt hwf hpath
  have := nn.isLt
  rw [List.length_append, List.length_singleton] at hlen
  exact ⟨⟨p ++ [x], r', hpath, List.length_append, hr', hinner⟩, by omega⟩

/-! ### Beats and the last core step -/

theorem clearBody_inv {c : Cur} {s : State} {q : Cur × State} (h : clearBody c s = .ok q) : DataPathInv q.2 := by
  cases h
  exact datapathClear_inv s

theorem countBeat_inv {b : Byte} {c : Cur} {s : State} {q : Cur × State} (hop : c.op = .count) (hrun : RunningInv c s)
    (h : countBeat b c s = .ok q) : RunningInv q.1 q.2 := by
  have hidle : s.phase = .idle := hrun.allowed_of_op hop
  rcases countBeat_cases b c s with ⟨_, e⟩ | ⟨_, _, e⟩ | ⟨_, _, e⟩ <;> rw [e] at h <;> cases h
  · exact hrun
  · exact { hrun with }
  · have hpath : DataPathInv (countSymbol (b.setWidth 7) s) :=
      hrun.toDataPathInv.unready (phase := s.phase) (by rw [hidle]; rfl) (by rw [hidle]; rfl)
    refine .of_ne_decode hpath ?_ (by simp [hop])
    rw [hop]
    exact hidle

theorem countFinish_inv {c : Cur} {s : State} {q : Cur × State} (hop : c.op = .count) (hrun : RunningInv c s)
    (h : countFinish c s = .ok q) : DataPathInv q.2 := by
  have hidle : s.phase = .idle := hrun.allowed_of_op hop
  rcases countFinish_cases c s with ⟨_, e⟩ | ⟨_, e⟩ <;> rw [e] at h <;> cases h
  · exact hrun.toDataPathInv.unready (by rw [hidle]; rfl) rfl
  · exact hrun.toDataPathInv

/-- Where FREQ sums to a TOTAL that is not 0 some symbol is counted. -/
theorem exists_counted {s : State} (hcount : CounterInv s) (htotal : s.total ≠ 0#32) : ∃ x, freqAt s.freq x ≠ 0#32 := by
  by_contra hnone
  refine htotal (BitVec.eq_of_toNat_eq (hcount.sum.symm.trans (List.sum_eq_zero fun n hn => ?_)))
  obtain ⟨x, _, rfl⟩ := List.mem_map.mp hn
  rw [not_not.mp (not_exists.mp hnone x)]
  rfl

/-- BUILD_TREE leaves a strict tree of the counted symbols (42 R98). -/
theorem buildTreeBody_inv {c : Cur} {s : State} {q : Cur × State} (hcount : CounterInv s) (htotal : s.total ≠ 0#32)
    (h : buildTreeBody c s = .ok q) : DataPathInv q.2 := by
  obtain ⟨r, htgt, _, e⟩ := buildTreeBody_ok h
  obtain ⟨x, hx⟩ := exists_counted hcount htotal
  obtain ⟨hsome, hmany⟩ := frequencyList_length hx
  obtain ⟨hsize, hwf, hdistinct⟩ := twoQueue_wf hsome hmany (frequencyList_fst_nodup s.freq) htgt
  have hnnodes : (BitVec.ofNat 8 (twoQueue (frequencyList s.freq)).nxt).toNat + 1 =
      2 * (BitVec.ofNat 8 (frequencyList s.freq).length).toNat := by
    simp only [BitVec.toNat_ofNat]
    omega
  rw [e]
  exact {
    unbuilt := nofun
    built := fun _ => ⟨htotal, hnnodes, hwf, hdistinct⟩
    untabled := fun _ => ⟨rfl, rfl, rfl⟩
    tabled := nofun }

/-- BUILD_TABLE leaves the table of the tree (43 R101). -/
theorem buildTableBody_inv {c : Cur} {s : State} {q : Cur × State} (hop : c.op = .buildTable) (hrun : RunningInv c s)
    (h : buildTableBody c s = .ok q) : DataPathInv q.2 := by
  have hready : treeReady s.phase = true := hrun.allowed_of_op hop
  obtain ⟨code, htraverse, _, e⟩ := buildTableBody_ok h
  rw [e]
  exact {
    unbuilt := nofun
    built := fun _ => hrun.built hready
    untabled := fun hne => absurd rfl hne
    tabled := fun _ => ⟨htraverse, rfl, rfl⟩ }

theorem encodeBeat_inv {b : Byte} {c : Cur} {s : State} {q : Cur × State} (hrun : RunningInv c s)
    (h : encodeBeat b c s = .ok q) : RunningInv q.1 q.2 := by
  rcases encodeBeat_cases b c s with ⟨_, e⟩ | ⟨_, _, _, _, e, _⟩ | ⟨_, _, e⟩ <;> rw [e] at h <;> cases h
  · exact hrun
  · exact { hrun with }
  · exact { hrun.same (.emitAll s _) with }

theorem encodeFinish_inv {c : Cur} {s : State} {q : Cur × State} (hrun : RunningInv c s)
    (h : encodeFinish c s = .ok q) : DataPathInv q.2 := by
  rcases encodeFinish_cases c s with ⟨_, e⟩ | ⟨_, _, _, e, _⟩ <;> rw [e] at h <;> cases h
  · exact hrun.toDataPathInv
  · exact hrun.toDataPathInv.same (.emitAll s _)

section
variable {x : Bool} {c : Cur} {s : State} {r r' : NodeRec}

/-- A bit that leads to a leaf emits its symbol and returns to the root (45 R118). -/
theorem walkBit_leaf (hr : nodeAt (treeNodes c.tsrc s) c.wnode = some r)
    (hr' : nodeAt (treeNodes c.tsrc s) (if x then r.right else r.left) = some r') (hleaf : r'.leaf = true) :
    walkBit x c s =
      .ok ({ c with wnode := treeRoot c.tsrc s, pend := 0#8 }, emit s (r'.sym.setWidth 8)) := by
  simp [walkBit, hr, hr', hleaf]

/-- A bit that leads to an internal node moves the walker there (45 R118). -/
theorem walkBit_inner (hr : nodeAt (treeNodes c.tsrc s) c.wnode = some r)
    (hr' : nodeAt (treeNodes c.tsrc s) (if x then r.right else r.left) = some r') (hinner : r'.leaf = false) :
    walkBit x c s = .ok ({ c with wnode := if x then r.right else r.left, pend := c.pend + 1#8 }, s) := by
  simp [walkBit, hr, hr', hinner]

/-- A walked bit leaves the walker at an internal node whose depth is the pending bits (45 R118). -/
theorem walkBit_inv {q : Cur × State} (hop : c.op = .decode) (hrun : RunningInv c s) (h : walkBit x c s = .ok q) :
    q.1.op = .decode ∧ RunningInv q.1 q.2 := by
  obtain ⟨nn, hwf⟩ := selectedTree_wf hrun.toDataPathInv (hrun.allowed_of_op hop)
  obtain ⟨_, r, _, _, hr, _⟩ := hrun.walker hop
  cases hr' : nodeAt (treeNodes c.tsrc s) (if x then r.right else r.left) with
  | none => simp [walkBit, hr, hr'] at h
  | some r' =>
    cases hleaf : r'.leaf with
    | true =>
      cases (walkBit_leaf hr hr' hleaf).symm.trans h
      have hrooted : RunningInv { c with wnode := treeRoot c.tsrc s, pend := 0#8 } s :=
        ⟨hrun.toDataPathInv, hrun.allowed, fun _ => internalAt_root hwf⟩
      exact ⟨hop, hrooted.same (.emitAll s [r'.sym.setWidth 8])⟩
    | false =>
      cases (walkBit_inner hr hr' hleaf).symm.trans h
      obtain ⟨hchild, hdepth⟩ := internalAt_child hwf (hrun.walker hop) hr hr' hleaf
      have hpend : (c.pend + 1#8).toNat = c.pend.toNat + 1 := BitVec.toNat_add_of_lt (by simp; omega)
      exact ⟨hop, hrun.toDataPathInv, hrun.allowed, fun _ => hpend ▸ hchild⟩

end

theorem walkBits_inv {xs : BitString} {c : Cur} {s : State} {q : Cur × State} (hop : c.op = .decode) (hrun : RunningInv c s)
    (h : walkBits xs c s = .ok q) : RunningInv q.1 q.2 := by
  induction xs generalizing c s with
  | nil => cases h; exact hrun
  | cons x xs ih =>
    rw [walkBits] at h
    cases hbit : walkBit x c s with
    | error f => rw [hbit] at h; cases h
    | ok p =>
      rw [hbit] at h
      obtain ⟨hop', hrun'⟩ := walkBit_inv hop hrun hbit
      exact ih hop' hrun' h

theorem decodeBeat_inv {b : Byte} {c : Cur} {s : State} {q : Cur × State} (hop : c.op = .decode) (hrun : RunningInv c s)
    (h : decodeBeat b c s = .ok q) : RunningInv q.1 q.2 :=
  walkBits_inv (c := { c with first := false }) hop { hrun with } h

theorem decodeFinish_inv {c : Cur} {s : State} {q : Cur × State} (hrun : RunningInv c s)
    (h : decodeFinish c s = .ok q) : DataPathInv q.2 := by
  obtain ⟨_, he, _⟩ := decodeFinish_eq c s
  rw [he] at h
  cases h
  exact { hrun.toDataPathInv with }

/-! ### The command, from its parts -/

/-- With no command in progress only the data path is left to speak of. -/
theorem PhaseInv.of_idle {s : State} (h : DataPathInv s) (hcur : s.cur = none) : PhaseInv s :=
  phaseInv_iff.mpr ⟨h, fun c hc => by cases hcur.symm.trans hc⟩

/-- With `c` in progress the invariant is that of `c`. -/
theorem PhaseInv.of_running {c : Cur} {s : State} (h : RunningInv c s) (hcur : s.cur = some c) : PhaseInv s := by
  refine phaseInv_iff.mpr ⟨h.toDataPathInv, fun c' hc => ?_⟩
  obtain rfl : c = c' := Option.some.inj (hcur.symm.trans hc)
  exact h

/-- A command keeps the invariant when its Start, Beat and Body do. -/
theorem command_phaseInv {i : Instr} {start : Cur → State → Cur × State}
    {beat : Byte → Cur → State → Except Fault (Cur × State)} {finish : Cur → State → Except Fault (Cur × State)}
    {s t : State}
    (hstart : ∀ c s, c.op = i → c.tsrc = s.tsrc → issueCheck i s = .none → DataPathInv s →
      RunningInv (start c s).1 (start c s).2)
    (hbeat : ∀ b c s q, c.op = i → RunningInv c s → beat b c s = .ok q → RunningInv q.1 q.2)
    (hfinish : ∀ c q, c.op = i → RunningInv c s → finish c s = .ok q → DataPathInv q.2)
    (hinv : PhaseInv s) (h : command i start beat finish s = .next t) : PhaseInv t := by
  obtain ⟨hpath, hrun⟩ := phaseInv_iff.mp hinv
  rcases command_cases h with ⟨hidle, rfl⟩ | ⟨_, _, _, rfl⟩ | ⟨c, hcur, hop, hcore⟩
  · have hbegin : DataPathInv (beginIssue (opcode i) s) := { hpath with }
    by_cases hcheck : issueCheck i (beginIssue (opcode i) s) = .none
    · rw [issue_accepted hcheck]
      have hstarted := hstart (newCur i (beginIssue (opcode i) s)) (beginIssue (opcode i) s) rfl rfl hcheck hbegin
      exact .of_running { hstarted with } rfl
    · rw [issue_rejected hcheck]
      exact .of_idle { hbegin with } hidle
  · exact hinv
  · have hrun := hrun c hcur
    rcases coreStep_cases hcore with ⟨_, q, hq, rfl⟩ | ⟨_, _, rfl⟩ | ⟨_, b, rest, q, _, hq, rfl⟩
    · exact .of_idle { hfinish c q hop hrun hq with } rfl
    · exact hinv
    · have htaken : RunningInv (takeBeat c rest s).1 (takeBeat c rest s).2 := { hrun with }
      exact .of_running { hbeat b (takeBeat c rest s).1 _ q hop htaken hq with } rfl

theorem noStart_inv {i : Instr} (hcount : i ≠ .count) (hdecode : i ≠ .decode) (c : Cur) (s : State) (hop : c.op = i)
    (htsrc : c.tsrc = s.tsrc) (hcheck : issueCheck i s = .none) (h : DataPathInv s) :
    RunningInv (noStart c s).1 (noStart c s).2 := by
  refine .of_ne_decode h ?_ (hop ▸ hdecode)
  exact hop ▸ htsrc ▸ mayRun_of_issueCheck hcheck hcount

theorem noBeat_inv {b : Byte} {c : Cur} {s : State} {q : Cur × State} (hrun : RunningInv c s) (h : noBeat b c s = .ok q) :
    RunningInv q.1 q.2 := by
  cases h
  exact hrun

/-- Every command keeps what the phase says. -/
theorem exec_phaseInv {i : Instr} {s t : State} (h : exec i s = .next t) (hcount : CounterInv s) (hinv : PhaseInv s) :
    PhaseInv t := by
  cases i with
  | clear =>
    exact command_phaseInv (noStart_inv (i := .clear) nofun nofun) (fun _ _ _ _ _ => noBeat_inv)
      (fun _ _ _ _ => clearBody_inv) hinv h
  | count =>
    refine command_phaseInv (fun c s hop _ _ _ => ?_) (fun _ _ _ _ => countBeat_inv) (fun _ _ => countFinish_inv) hinv h
    have hcountOp : (countStart c s).1.op = .count := hop
    exact .of_ne_decode (datapathClear_inv s) (by rw [hcountOp]; rfl) (by rw [hcountOp]; nofun)
  | buildTree =>
    refine command_phaseInv (noStart_inv (i := .buildTree) nofun nofun) (fun _ _ _ _ _ => noBeat_inv)
      (fun c q hop hrun hq => ?_) hinv h
    obtain ⟨_, htotal⟩ := hrun.allowed_of_op hop
    exact buildTreeBody_inv hcount htotal hq
  | buildTable =>
    exact command_phaseInv (noStart_inv (i := .buildTable) nofun nofun) (fun _ _ _ _ _ => noBeat_inv)
      (fun _ _ => buildTableBody_inv) hinv h
  | encode =>
    refine command_phaseInv (fun c s hop htsrc hcheck hpath => ?_) (fun _ _ _ _ _ => encodeBeat_inv)
      (fun _ _ _ => encodeFinish_inv) hinv h
    exact { noStart_inv (i := .encode) nofun nofun c s hop htsrc hcheck hpath with }
  | decode =>
    refine command_phaseInv (fun c s hop htsrc hcheck hpath => ?_) (fun _ _ _ _ => decodeBeat_inv)
      (fun _ _ _ => decodeFinish_inv) hinv h
    have hallowed : MayRun .decode c.tsrc s := htsrc ▸ mayRun_of_issueCheck hcheck nofun
    obtain ⟨nn, hwf⟩ := selectedTree_wf hpath hallowed
    exact ⟨hpath, hop ▸ hallowed, fun _ => internalAt_root hwf⟩

/-- Settles O58: the host's moves leave the data path and the command, reset clears the data path, and every command keeps
what the phase says: BUILD_TREE by the forest of its merge, BUILD_TABLE by its own traversal, DECODE by the strict tree it walks. -/
theorem stepKeepsPhaseInvariant : Obligations.StepKeepsPhaseInvariant := by
  unfold Obligations.StepKeepsPhaseInvariant
  intro s t hcount hinv hstep
  cases step_effect hstep with
  | host same => exact hinv.same same.sameDataPath same.cur
  | reset rest _ next =>
    rw [next, ← datapathClear_resetBlock]
    exact .of_idle (datapathClear_inv _) rfl
  | issue w rest _ _ idle next =>
    rcases issueWord_cases next with ⟨i, _, hexec⟩ | ⟨_, _, rfl⟩
    · exact exec_phaseInv hexec { hcount with } { hinv with }
    · exact { hinv with }
  | core c rest _ _ next => exact exec_phaseInv next { hcount with } { hinv with }

end Sys2Proof.Machine
end

section
/-! PROOFS. COUNT: its beat, its last step, and a whole run over a frame (41 R83 to R87). -/

namespace Sys2Proof.Machine

/-! ### The counts -/

/-- Counting a symbol adds one to its own count alone (41 R85). -/
theorem freqAt_countSymbol (x y : Sym) (s : State) :
    freqAt (countSymbol x s).freq y = if y = x then freqAt s.freq x + 1#32 else freqAt s.freq y := by
  rw [freqAt, countSymbol_freq, Vector.getElem_set]
  simp only [BitVec.toNat_inj, eq_comm (a := x), freqAt]

/-- A byte below 128 is the symbol `x` exactly when it is `x` as a byte. -/
theorem setWidth_eq_iff {b : Byte} (h : b.toNat < 128) (x : Sym) : x = b.setWidth 7 ↔ b = x.setWidth 8 := by
  have hx := x.isLt
  rw [← BitVec.toNat_inj, ← BitVec.toNat_inj, BitVec.toNat_setWidth, BitVec.toNat_setWidth]
  omega

/-- Counting a byte and then the bytes `l` is counting them together. -/
theorem freqAt_countSymbol_add {b : Byte} (hb : b.toNat < 128) (x : Sym) (s : State) (l : List Byte) :
    freqAt (countSymbol (b.setWidth 7) s).freq x + BitVec.ofNat 32 (l.count (x.setWidth 8)) =
      freqAt s.freq x + BitVec.ofNat 32 ((b :: l).count (x.setWidth 8)) := by
  rw [freqAt_countSymbol, List.count_cons, Nat.add_comm, BitVec.ofNat_add, ← BitVec.add_assoc]
  by_cases hx : x = b.setWidth 7
  · have hbyte : b = x.setWidth 8 := (setWidth_eq_iff hb x).mp hx
    rw [if_pos hx, if_pos (beq_iff_eq.mpr hbyte), ← hx]
  · have hbyte : b ≠ x.setWidth 8 := mt (setWidth_eq_iff hb x).mpr hx
    rw [if_neg hx, if_neg (mt beq_iff_eq.mp hbyte), BitVec.add_zero]

/-! ### One core step -/

/-- A beat of COUNT is its Beat on the state with the byte taken (40 R76). -/
theorem exec_count_beat {s : State} {c : Cur} {b : Byte} {rest : List Byte} {q : Cur × State} (h : AtByte s c .count b rest)
    (hq : countBeat b (takeBeat c rest s).1 (takeBeat c rest s).2 = .ok q) :
    exec .count s = .next { q.2 with cur := some q.1 } :=
  (command_running h.running h.op).trans (coreStep_beat h.rem h.offered hq)

section
variable {s : State} {c : Cur} {b : Byte} {rest : List Byte}

theorem exec_count_after_error (h : AtByte s c .count b rest) (herr : c.err ≠ .none) :
    exec .count s = .next (tookByte s rest { c with rem := c.rem - 1#32 }) :=
  exec_count_beat h (if_pos herr)

theorem exec_count_range (h : AtByte s c .count b rest) (herr : c.err = .none) (hb : 128 ≤ b.toNat) :
    exec .count s = .next (tookByte s rest { c with rem := c.rem - 1#32, err := .range }) := by
  have hbeat : countBeat b (takeBeat c rest s).1 (takeBeat c rest s).2 =
      .ok ({ (takeBeat c rest s).1 with err := .range }, (takeBeat c rest s).2) := by
    simp [countBeat, takeBeat, herr, hb, cmdError]
  exact exec_count_beat h hbeat

theorem exec_count_symbol (h : AtByte s c .count b rest) (herr : c.err = .none) (hb : b.toNat < 128) :
    exec .count s = .next (countSymbol (b.setWidth 7) (tookByte s rest { c with rem := c.rem - 1#32 })) := by
  have hbeat : countBeat b (takeBeat c rest s).1 (takeBeat c rest s).2 =
      .ok ((takeBeat c rest s).1, countSymbol (b.setWidth 7) (takeBeat c rest s).2) := by
    simp [countBeat, takeBeat, herr, Nat.not_le.mpr hb]
  exact exec_count_beat h hbeat

end

/-- Settles O16: the three branches of the beat, the counts of the third by `freqAt_countSymbol`. -/
theorem countBeatCountsTheByte : Obligations.CountBeatCountsTheByte := by
  unfold Obligations.CountBeatCountsTheByte
  intro s c b rest hbyte
  refine ⟨exec_count_after_error hbyte, exec_count_range hbyte, fun herr hb => ?_⟩
  refine ⟨_, exec_count_symbol hbyte herr hb, rfl, ?_, fun y hy => ?_⟩
  · exact (freqAt_countSymbol ..).trans (if_pos rfl)
  · exact (freqAt_countSymbol ..).trans (if_neg hy)

/-- Settles O17: the two branches of the last step, each with the completion. -/
theorem countFinishSetsThePhase : Obligations.CountFinishSetsThePhase := by
  unfold Obligations.CountFinishSetsThePhase
  intro s c hend
  have hexec {p : Cur × State} (hp : countFinish c s = .ok p) : exec .count s = .next (complete p.1 p.2) :=
    (command_running hend.running hend.op).trans (coreStep_finish hend.rem hp)
  refine ⟨fun herr => ?_, fun herr => hexec (if_neg herr)⟩
  rw [hexec (if_pos herr), complete, completed, herr]

/-! ### A whole frame -/

/-- COUNT is in progress with `frame` still to take, all of it offered, and no move of the host to come. -/
structure Counting (s : State) (c : Cur) (frame rest : List Byte) : Prop where
  running : s.cur = some c
  op : c.op = .count
  high : s.rstN = true
  quiet : s.host = []
  offered : s.inq = frame ++ rest
  length : frame.length = c.rem.toNat

/-- The bytes of a frame that COUNT counts: those before the first one of 128 or more (41 R85). -/
def countedBytes (frame : List Byte) : List Byte := frame.takeWhile fun b => decide (b.toNat < 128)

/-- `s` after the rest of COUNT, but for the counts: `n` bytes consumed, `rest` left, the error `e` (41 R86, 40 R78). -/
def afterCount (s : State) (rest : List Byte) (n : Word) (e : ErrCode) : State :=
  { completed s e with
    inq := rest, inConsumed := s.inConsumed + n, phase := if e = .none then .freqDone else s.phase }

section
variable {s : State} {c : Cur} {b : Byte} {frame rest : List Byte}

theorem countedBytes_of_lt (h : b.toNat < 128) : countedBytes (b :: frame) = b :: countedBytes frame :=
  List.takeWhile_cons_of_pos (decide_eq_true h)

theorem countedBytes_of_le (h : 128 ≤ b.toNat) : countedBytes (b :: frame) = [] :=
  List.takeWhile_cons_of_neg (by simpa using h)

theorem Counting.atEnd (h : Counting s c [] rest) : AtEnd s c .count :=
  ⟨h.running, h.op, BitVec.eq_of_toNat_eq h.length.symm⟩

theorem Counting.atByte (h : Counting s c (b :: frame) rest) : AtByte s c .count b (frame ++ rest) := by
  refine ⟨h.running, h.op, fun hrem => ?_, h.offered⟩
  have hlen := h.length
  rw [hrem] at hlen
  cases hlen

/-- A beat leaves the frame without its byte, whatever it does to the error. -/
theorem Counting.tookByte (h : Counting s c (b :: frame) rest) (e : ErrCode) :
    Counting (tookByte s (frame ++ rest) { c with rem := c.rem - 1#32, err := e })
      { c with rem := c.rem - 1#32, err := e } frame rest := by
  refine ⟨rfl, h.op, h.high, h.quiet, rfl, ?_⟩
  have hlen := h.length
  rw [List.length_cons] at hlen
  bv_omega

theorem Counting.countSymbol (h : Counting s c frame rest) (x : Sym) : Counting (countSymbol x s) c frame rest :=
  { h with }

/-- While COUNT is in progress each turn is its core step. -/
theorem Counting.turns_succ {t : State} (h : Counting s c frame rest) (k : Nat) (hexec : exec .count s = .next t) :
    turns (k + 1) s = turns k t := by
  have hstep : step s = exec c.op s := (stepRunsTheCommandInProgress s c h.high h.running).1 h.quiet
  rw [turns, hstep, h.op, hexec]

/-- The last step of COUNT, from a frame all taken. -/
theorem Counting.turns_finish (h : Counting s c [] rest) : turns 1 s = .next (afterCount s rest c.rem c.err) := by
  obtain ⟨hdone, hfailed⟩ := countFinishSetsThePhase s c h.atEnd
  have hrest : s.inq = rest := h.offered
  have hconsumed : s.inConsumed + c.rem = s.inConsumed := by rw [h.atEnd.rem, BitVec.add_zero]
  by_cases herr : c.err = .none
  · rw [h.turns_succ 0 (hdone herr), afterCount, hconsumed, ← hrest, if_pos herr, herr]
    rfl
  · rw [h.turns_succ 0 (hfailed herr), afterCount, hconsumed, ← hrest, if_neg herr]
    rfl

/-- A byte taken by a beat is one of those the rest of COUNT would have taken. -/
theorem afterCount_tookByte (s : State) (c : Cur) (rest rest' : List Byte) (n : Word) (e : ErrCode) :
    afterCount (tookByte s rest' c) rest (n - 1#32) e = afterCount s rest n e := by
  have hsum : s.inConsumed + 1#32 + (n - 1#32) = s.inConsumed + n := by bv_omega
  simp only [afterCount, tookByte, completed, hsum]

/-- The rest of COUNT leaves all but the counts as it would without the symbol counted. -/
theorem afterCount_countSymbol (s : State) (x : Sym) (rest : List Byte) (n : Word) (e : ErrCode) (freq : Vector Word 128)
    (total : Word) : { afterCount (countSymbol x s) rest n e with freq := freq, total := total } =
      { afterCount s rest n e with freq := freq, total := total } := rfl

/-- After an error COUNT takes the rest of the frame and counts nothing (41 R85, 60 R125). -/
theorem Counting.turns_after_error (h : Counting s c frame rest) (herr : c.err ≠ .none) :
    turns (frame.length + 1) s = .next (afterCount s rest c.rem c.err) := by
  induction frame generalizing s c with
  | nil => exact h.turns_finish
  | cons b frame ih =>
    rw [List.length_cons, h.turns_succ _ (exec_count_after_error h.atByte herr)]
    exact (ih (h.tookByte c.err) herr).trans (congrArg _ (afterCount_tookByte ..))

/-- Without an error so far COUNT counts the bytes before the first out-of-range byte, and takes the whole frame. -/
theorem Counting.turns_frame (h : Counting s c frame rest) (herr : c.err = .none) :
    ∃ freq : Vector Word 128,
      turns (frame.length + 1) s = .next
        { afterCount s rest c.rem (if countedBytes frame = frame then .none else .range) with
          freq := freq, total := s.total + BitVec.ofNat 32 (countedBytes frame).length } ∧
      ∀ x : Sym, freqAt freq x = freqAt s.freq x + BitVec.ofNat 32 ((countedBytes frame).count (x.setWidth 8)) := by
  induction frame generalizing s c with
  | nil =>
    refine ⟨s.freq, ?_, fun x => by simp [countedBytes]⟩
    rw [List.length_nil, h.turns_finish, herr]
    simp [countedBytes, afterCount, completed]
  | cons b frame ih =>
    by_cases hb : b.toNat < 128
    · obtain ⟨freq, hturns, hfreq⟩ := ih ((h.tookByte c.err).countSymbol (b.setWidth 7)) herr
      rw [countedBytes_of_lt hb]
      refine ⟨freq, ?_, fun x => ?_⟩
      · rw [List.length_cons, h.turns_succ _ (exec_count_symbol h.atByte herr hb)]
        refine hturns.trans (congrArg _ ?_)
        rw [afterCount_countSymbol, afterCount_tookByte, List.length_cons, Nat.add_comm, BitVec.ofNat_add, ← BitVec.add_assoc]
        simp only [List.cons.injEq, true_and]
        rfl
      · exact (hfreq x).trans (freqAt_countSymbol_add hb x _ _)
    · have hb : 128 ≤ b.toNat := Nat.not_lt.mp hb
      rw [countedBytes_of_le hb]
      refine ⟨s.freq, ?_, fun x => (BitVec.add_zero _).symm⟩
      rw [List.length_cons, h.turns_succ _ (exec_count_range h.atByte herr hb)]
      refine ((h.tookByte .range).turns_after_error nofun).trans (congrArg _ ?_)
      refine (afterCount_tookByte ..).trans ?_
      rw [if_neg nofun, List.length_nil, BitVec.add_zero]
      rfl

end

/-- A command that issues runs from the state its issue leaves. -/
theorem runCommand_of_exec {i : Instr} {s t : State} (h : exec i s = .next t) (k : Nat) : runCommand i k s = turns k t := by
  rw [runCommand, h]

/-- `s` after the issue of COUNT, which is accepted in every phase (41 R84). -/
def countIssued (s : State) : State := datapathClear (issued s .count (freshCur s .count s.inLen))

theorem exec_count_issue {s : State} (h : s.cur = none) : exec .count s = .next (countIssued s) := by
  obtain ⟨_, hissue, _⟩ := acceptedIssueStartsTheCommand s h
  exact hissue

/-- What COUNT leaves, but for the counts, seen from the state before its issue. -/
theorem afterCount_issued (s : State) (rest : List Byte) (p : Prop) [Decidable p] :
    afterCount (countIssued s) rest s.inLen (if p then .none else .range) =
      { datapathClear (completed (issued s .count (freshCur s .count s.inLen)) (if p then .none else .range)) with
        inq := rest, inConsumed := s.inLen, phase := if p then .freqDone else .idle } := by
  have hconsumed : (countIssued s).inConsumed + s.inLen = s.inLen := BitVec.zero_add _
  rw [afterCount, hconsumed]
  by_cases hp : p
  · rw [if_pos hp, if_pos hp]
    rfl
  · rw [if_neg hp, if_neg hp]
    rfl

/-- Settles O18: COUNT's issue leaves it counting the whole frame from zero, and no count can pass the length of the frame. -/
theorem countOfAFrame : Obligations.CountOfAFrame := by
  unfold Obligations.CountOfAFrame
  intro s frame rest hready hoffered hlength
  have hcounting : Counting (countIssued s) (freshCur s .count s.inLen) frame rest :=
    ⟨rfl, rfl, hready.high, hready.quiet, hoffered, hlength⟩
  obtain ⟨freq, hturns, hfreq⟩ := hcounting.turns_frame rfl
  have hprefix : (countedBytes frame).length ≤ frame.length := (List.takeWhile_prefix _).length_le
  have hfew (n : Nat) (hn : n ≤ (countedBytes frame).length) : (0#32 + BitVec.ofNat 32 n).toNat = n := by
    rw [BitVec.zero_add, BitVec.toNat_ofNat]
    exact Nat.mod_eq_of_lt (by omega)
  refine ⟨_, (runCommand_of_exec (exec_count_issue hready.idle) _).trans hturns, ?_, hfew _ le_rfl, fun x => ?_⟩
  · exact congrArg (fun u : State => { u with freq := freq, total := 0#32 + BitVec.ofNat 32 (countedBytes frame).length })
      (afterCount_issued s rest (countedBytes frame = frame))
  · have hzero : freqAt (countIssued s).freq x = 0#32 := Vector.getElem_replicate _
    rw [hfreq, hzero]
    exact hfew _ List.count_le_length

end Sys2Proof.Machine
end

section
/-! PROOFS. Every step keeps FREQ summing to TOTAL and the counters below overflow (10 R21, R23, R31; 41 R87). -/

namespace Sys2Proof.Machine

/-! ### The sum of the counts -/

/-- FREQ sums to TOTAL (10 R23). -/
def SumsToTotal (s : State) : Prop := (symbols.map fun x => (freqAt s.freq x).toNat).sum = s.total.toNat

theorem datapathClear_sums (s : State) : SumsToTotal (datapathClear s) := by
  simp [SumsToTotal, freqAt]

/-- The sum with the term of one symbol apart. -/
theorem sum_symbols_eq (f : Sym → Nat) (x : Sym) : (symbols.map f).sum = f x + ((symbols.erase x).map f).sum :=
  (List.sum_map_erase f (mem_symbols x)).symm

/-- A counter short of 2^32 does not overflow by one (10 R21). -/
theorem toNat_succ {n : Word} (h : n.toNat + 1 < 2 ^ 32) : (n + 1#32).toNat = n.toNat + 1 := BitVec.toNat_add_of_lt h

/-- Where TOTAL has room for one more, no count overflows, and the sum grows by one with TOTAL (41 R85, R87). -/
theorem countSymbol_sums {s : State} (h : SumsToTotal s) (x : Sym) (hroom : s.total.toNat + 1 < 2 ^ 32) :
    SumsToTotal (countSymbol x s) := by
  have hsum : (freqAt s.freq x).toNat + ((symbols.erase x).map fun y => (freqAt s.freq y).toNat).sum = s.total.toNat :=
    (sum_symbols_eq _ x).symm.trans h
  have hothers : (symbols.erase x).map (fun y => (freqAt (countSymbol x s).freq y).toNat) =
      (symbols.erase x).map fun y => (freqAt s.freq y).toNat := by
    refine List.map_congr_left fun y hy => ?_
    have hne : y ≠ x := (symbols_nodup.mem_erase_iff.mp hy).1
    rw [freqAt_countSymbol, if_neg hne]
  have hone : (freqAt s.freq x + 1#32).toNat = (freqAt s.freq x).toNat + 1 := toNat_succ (by omega)
  rw [SumsToTotal, sum_symbols_eq _ x, hothers, freqAt_countSymbol, if_pos rfl, hone, countSymbol_total, toNat_succ hroom,
    ← hsum]
  exact Nat.add_right_comm _ 1 _

/-! ### What the parts of the commands leave of the counters -/

/-- `q` comes from `c` and `s` by a Start or a Beat: the command, its bytes to take, IN_CONSUMED and the abandoned bytes stay,
FREQ sums to TOTAL, and COUNT has counted no more bytes than it has consumed. -/
structure KeepsCounters (c : Cur) (s : State) (q : Cur × State) : Prop where
  op : q.1.op = c.op
  rem : q.1.rem = c.rem
  inConsumed : q.2.inConsumed = s.inConsumed
  abandoned : q.2.abandoned = s.abandoned
  sums : SumsToTotal q.2
  counted : c.op = .count → q.2.total.toNat ≤ q.2.inConsumed.toNat

section
variable {b : Byte} {c d : Cur} {s : State} {q : Cur × State}

/-- A part that emits bytes and writes the record, but none of its command and its bytes to take. -/
theorem KeepsCounters.emitAll (hsums : SumsToTotal s) (hcounted : c.op = .count → s.total.toNat ≤ s.inConsumed.toNat)
    (hop : d.op = c.op) (hrem : d.rem = c.rem) {bs : List Byte} : KeepsCounters c s (d, emitAll s bs) := by
  rw [emitAll_eq]
  exact ⟨hop, hrem, rfl, rfl, hsums, hcounted⟩

/-- A part that writes the record alone, but none of its command and its bytes to take. -/
theorem KeepsCounters.record (hsums : SumsToTotal s) (hcounted : c.op = .count → s.total.toNat ≤ s.inConsumed.toNat)
    (hop : d.op = c.op) (hrem : d.rem = c.rem) : KeepsCounters c s (d, s) :=
  .emitAll hsums hcounted hop hrem (bs := [])

theorem noBeat_counters (hsums : SumsToTotal s) (hcounted : c.op = .count → s.total.toNat < s.inConsumed.toNat)
    (h : noBeat b c s = .ok q) : KeepsCounters c s q := by
  cases h
  exact .record hsums (fun hop => (hcounted hop).le) rfl rfl

theorem countBeat_counters (hop : c.op = .count) (hsums : SumsToTotal s)
    (hcounted : c.op = .count → s.total.toNat < s.inConsumed.toNat) (h : countBeat b c s = .ok q) : KeepsCounters c s q := by
  have hroom := hcounted hop
  rcases countBeat_cases b c s with ⟨_, e⟩ | ⟨_, _, e⟩ | ⟨_, _, e⟩ <;> rw [e] at h <;> cases h
  · exact .record hsums (fun _ => hroom.le) rfl rfl
  · exact .record hsums (fun _ => hroom.le) rfl rfl
  · have hfits : s.total.toNat + 1 < 2 ^ 32 := by omega
    exact ⟨rfl, rfl, rfl, rfl, countSymbol_sums hsums _ hfits, fun _ => toNat_succ hfits ▸ hroom⟩

theorem encodeBeat_counters (hsums : SumsToTotal s) (hcounted : c.op = .count → s.total.toNat < s.inConsumed.toNat)
    (h : encodeBeat b c s = .ok q) : KeepsCounters c s q := by
  rcases encodeBeat_cases b c s with ⟨_, e⟩ | ⟨_, _, _, _, e, _⟩ | ⟨_, _, e⟩ <;> rw [e] at h <;> cases h
  · exact .record hsums (fun hop => (hcounted hop).le) rfl rfl
  · exact .record hsums (fun hop => (hcounted hop).le) rfl rfl
  · refine .emitAll hsums (fun hop => (hcounted hop).le) ?_ ?_ <;> rfl

theorem decodeBeat_counters (hsums : SumsToTotal s) (hcounted : c.op = .count → s.total.toNat < s.inConsumed.toNat)
    (h : decodeBeat b c s = .ok q) : KeepsCounters c s q := by
  obtain ⟨bs, n, k, _, rfl⟩ := decodeBeat_ok h
  refine .emitAll hsums (fun hop => (hcounted hop).le) ?_ ?_ <;> rfl

theorem clearBody_sums (h : clearBody c s = .ok q) : SumsToTotal q.2 := by
  cases h
  exact datapathClear_sums s

theorem countFinish_sums (hsums : SumsToTotal s) (h : countFinish c s = .ok q) : SumsToTotal q.2 := by
  rcases countFinish_cases c s with ⟨_, e⟩ | ⟨_, e⟩ <;> rw [e] at h <;> cases h <;> exact hsums

theorem buildTreeBody_sums (hsums : SumsToTotal s) (h : buildTreeBody c s = .ok q) : SumsToTotal q.2 := by
  obtain ⟨r, _, _, e⟩ := buildTreeBody_ok h
  rw [e]
  exact hsums

theorem buildTableBody_sums (hsums : SumsToTotal s) (h : buildTableBody c s = .ok q) : SumsToTotal q.2 := by
  obtain ⟨code, _, _, e⟩ := buildTableBody_ok h
  rw [e]
  exact hsums

theorem encodeFinish_sums (hsums : SumsToTotal s) (h : encodeFinish c s = .ok q) : SumsToTotal q.2 := by
  rcases encodeFinish_cases c s with ⟨_, e⟩ | ⟨_, _, _, e, _⟩ <;> rw [e] at h <;> cases h
  · exact hsums
  · rw [emitAll_eq]
    exact hsums

theorem decodeFinish_sums (hsums : SumsToTotal s) (h : decodeFinish c s = .ok q) : SumsToTotal q.2 := by
  obtain ⟨e, he, _⟩ := decodeFinish_eq c s
  rw [he] at h
  cases h
  exact hsums

end

/-! ### The command, from its parts -/

/-- With `c` in progress the invariant is that of `c`. -/
theorem CounterInv.of_running {s : State} {c : Cur} (hcur : s.cur = some c) (hsums : SumsToTotal s)
    (hroom : s.inConsumed.toNat + c.rem.toNat < 2 ^ 32) (hframeless : takesFrame c.op = false → c.rem = 0#32)
    (hcounted : c.op = .count → s.total.toNat ≤ s.inConsumed.toNat) (hframed : takesFrame c.op = true → s.abandoned = 0) :
    CounterInv s where
  sum := hsums
  room c' hc := by obtain rfl : c = c' := Option.some.inj (hcur.symm.trans hc); exact hroom
  frameless c' hc := by obtain rfl : c = c' := Option.some.inj (hcur.symm.trans hc); exact hframeless
  counted c' hc := by obtain rfl : c = c' := Option.some.inj (hcur.symm.trans hc); exact hcounted
  framed c' hc := by obtain rfl : c = c' := Option.some.inj (hcur.symm.trans hc); exact hframed

/-- The counters rest on FREQ, TOTAL, IN_CONSUMED, the record of the command and the abandoned bytes alone. -/
theorem CounterInv.sameBlock {s t : State} (h : CounterInv s) (k : SameBlock s t) : CounterInv t where
  sum := k.freq ▸ k.total ▸ h.sum
  room c hc := k.inConsumed ▸ h.room c (k.cur ▸ hc)
  frameless c hc := h.frameless c (k.cur ▸ hc)
  counted c hc hop := k.total ▸ k.inConsumed ▸ h.counted c (k.cur ▸ hc) hop
  framed c hc htakes := Nat.le_zero.mp (h.framed c (k.cur ▸ hc) htakes ▸ k.abandoned)

/-- An accepted issue consumes nothing yet, latches the frame, and ends the withdrawing of an abandoned one (40 R74; log 21). -/
theorem issue_counterInv {i : Instr} {start : Cur → State → Cur × State} {s : State}
    (hcheck : issueCheck i (beginIssue (opcode i) s) = .none)
    (hstart : KeepsCounters (newCur i (beginIssue (opcode i) s)) (beginIssue (opcode i) s)
      (start (newCur i (beginIssue (opcode i) s)) (beginIssue (opcode i) s))) : CounterInv (issue i start s) := by
  rw [issue_accepted hcheck]
  refine .of_running rfl hstart.sums ?_ ?_ ?_ ?_
  · rw [hstart.rem, hstart.inConsumed, beginIssue_inConsumed]
    simpa using BitVec.isLt _
  · rw [hstart.op, hstart.rem]
    exact fun hframeless => if_neg (Bool.not_eq_true _ ▸ hframeless)
  · rw [hstart.op]
    exact hstart.counted
  · rw [hstart.op]
    exact fun htakes => if_pos htakes

/-- A beat moves one byte from those to take to those consumed (40 R76). -/
theorem beat_counterInv {s : State} {c : Cur} {rest : List Byte} {q : Cur × State} (h : CounterInv s) (hcur : s.cur = some c)
    (hrem : c.rem ≠ 0#32) (hbeat : KeepsCounters (takeBeat c rest s).1 (takeBeat c rest s).2 q) :
    CounterInv { q.2 with cur := some q.1 } := by
  have hroom := h.room c hcur
  refine .of_running rfl hbeat.sums ?_ ?_ ?_ ?_
  · rw [hbeat.rem, hbeat.inConsumed]
    simp only [takeBeat]
    bv_omega
  · rw [hbeat.op]
    exact fun hframeless => absurd (h.frameless c hcur hframeless) hrem
  · rw [hbeat.op]
    exact hbeat.counted
  · rw [hbeat.op]
    exact fun htakes => hbeat.abandoned.trans (h.framed c hcur htakes)

/-- A command keeps the counters when its Start, Beat and Body do; a Beat may count the byte taken. -/
theorem command_counterInv {i : Instr} {start : Cur → State → Cur × State}
    {beat : Byte → Cur → State → Except Fault (Cur × State)} {finish : Cur → State → Except Fault (Cur × State)}
    {s t : State}
    (hstart : ∀ c s, c.op = i → SumsToTotal s → KeepsCounters c s (start c s))
    (hbeat : ∀ b c s q, c.op = i → SumsToTotal s → (c.op = .count → s.total.toNat < s.inConsumed.toNat) →
      beat b c s = .ok q → KeepsCounters c s q)
    (hfinish : ∀ c s q, SumsToTotal s → finish c s = .ok q → SumsToTotal q.2)
    (hinv : CounterInv s) (h : command i start beat finish s = .next t) : CounterInv t := by
  rcases command_cases h with ⟨hidle, rfl⟩ | ⟨_, _, _, rfl⟩ | ⟨c, hcur, hop, hcore⟩
  · by_cases hcheck : issueCheck i (beginIssue (opcode i) s) = .none
    · exact issue_counterInv hcheck (hstart _ _ rfl hinv.sum)
    · rw [issue_rejected hcheck]
      exact counterInv_of_idle hidle hinv.sum
  · exact hinv
  · rcases coreStep_cases hcore with ⟨_, q, hq, rfl⟩ | ⟨_, _, rfl⟩ | ⟨hrem, b, rest, q, _, hq, rfl⟩
    · exact counterInv_of_idle rfl (hfinish c s q hinv.sum hq)
    · exact hinv
    · refine beat_counterInv hinv hcur hrem (hbeat b _ _ q hop hinv.sum (fun hcount => ?_) hq)
      have hcounted := hinv.counted c hcur hcount
      have hroom := hinv.room c hcur
      simp only [takeBeat]
      bv_omega

theorem noStart_counters {i : Instr} (hcount : i ≠ .count) (c : Cur) (s : State) (hop : c.op = i) (hsums : SumsToTotal s) :
    KeepsCounters c s (noStart c s) :=
  .record hsums (fun h => absurd (hop.symm.trans h) hcount) rfl rfl

/-- Every command keeps the counters. -/
theorem exec_counterInv {i : Instr} {s t : State} (h : exec i s = .next t) (hinv : CounterInv s) : CounterInv t := by
  cases i with
  | clear =>
    exact command_counterInv (noStart_counters (i := .clear) nofun) (fun _ _ _ _ _ => noBeat_counters)
      (fun _ _ _ _ => clearBody_sums) hinv h
  | count =>
    refine command_counterInv (fun c s _ _ => ?_) (fun _ _ _ _ => countBeat_counters) (fun _ _ _ => countFinish_sums) hinv h
    exact ⟨rfl, rfl, rfl, rfl, datapathClear_sums s, fun _ => Nat.zero_le _⟩
  | buildTree =>
    exact command_counterInv (noStart_counters (i := .buildTree) nofun) (fun _ _ _ _ _ => noBeat_counters)
      (fun _ _ _ => buildTreeBody_sums) hinv h
  | buildTable =>
    exact command_counterInv (noStart_counters (i := .buildTable) nofun) (fun _ _ _ _ _ => noBeat_counters)
      (fun _ _ _ => buildTableBody_sums) hinv h
  | encode =>
    refine command_counterInv (fun c s hop hsums => ?_) (fun _ _ _ _ _ => encodeBeat_counters)
      (fun _ _ _ => encodeFinish_sums) hinv h
    exact .record hsums (fun hcount => by cases hop.symm.trans hcount) rfl rfl
  | decode =>
    refine command_counterInv (fun c s hop hsums => ?_) (fun _ _ _ _ _ => decodeBeat_counters)
      (fun _ _ _ => decodeFinish_sums) hinv h
    exact .record hsums (fun hcount => by cases hop.symm.trans hcount) rfl rfl

/-- Settles O56: the host's moves leave the counters, reset zeroes the counts, an issue latches its frame with nothing consumed,
and a beat consumes one byte, of which COUNT counts at most that one. -/
theorem stepKeepsCounterInvariant : Obligations.StepKeepsCounterInvariant := by
  unfold Obligations.StepKeepsCounterInvariant
  intro s t hinv hstep
  cases step_effect hstep with
  | host same => exact hinv.sameBlock same
  | reset rest _ next =>
    rw [next, ← datapathClear_resetBlock]
    exact counterInv_of_idle rfl (datapathClear_sums _)
  | issue w rest _ _ idle next =>
    rcases issueWord_cases next with ⟨i, _, hexec⟩ | ⟨_, _, rfl⟩
    · exact exec_counterInv hexec { hinv with }
    · exact counterInv_of_idle idle hinv.sum
  | core c rest _ _ next => exact exec_counterInv next { hinv with }

end Sys2Proof.Machine
end

section
/-! PROOFS. `dq`, `Merge` and the turns of the two loops, and the run of merges that they make (42 R93 to R96). -/

namespace Sys2Proof.Machine

/-! ### `dq` and the turns of the loops -/

section
variable {l : Nat} {q : MergeState}

/-- The source head is taken where no target head is lighter (42 R94). -/
theorem dq_source (hsource : q.sh < l)
    (hhead : ∀ t ts, q.tgt = t :: ts → (weightAt q.node q.sh).toNat ≤ (weightAt q.node t).toNat) :
    dq l q = (some q.sh, { q with sh := q.sh + 1 }) := by
  unfold dq
  split
  case h_1 => rw [if_pos hsource]
  case h_2 t ts htgt => rw [if_pos hsource, if_pos (hhead t ts htgt)]

/-- The target head is taken where it is lighter than the source head, or no source is left (42 R94). -/
theorem dq_target {t : Nat} {ts : List Nat} (htgt : q.tgt = t :: ts)
    (hhead : q.sh < l → (weightAt q.node t).toNat < (weightAt q.node q.sh).toNat) :
    dq l q = (some t, { q with tgt := ts }) := by
  by_cases hsource : q.sh < l
  · have hlighter := hhead hsource
    simp [dq, htgt, hsource, show ¬(weightAt q.node q.sh).toNat ≤ (weightAt q.node t).toNat by omega]
  · simp [dq, htgt, hsource]

theorem dq_empty (hsource : ¬q.sh < l) (htgt : q.tgt = []) : dq l q = (none, q) := by
  simp [dq, htgt, hsource]

/-- Everything a `dq` that takes a node can do (42 R94). -/
theorem dq_some_cases {a : Nat} {q' : MergeState} (h : dq l q = (some a, q')) :
    (q.sh < l ∧ a = q.sh ∧ q' = { q with sh := q.sh + 1 } ∧
      ∀ t ts, q.tgt = t :: ts → (weightAt q.node q.sh).toNat ≤ (weightAt q.node t).toNat) ∨
    (∃ ts, q.tgt = a :: ts ∧ q' = { q with tgt := ts } ∧
      (q.sh < l → (weightAt q.node a).toNat < (weightAt q.node q.sh).toNat)) := by
  unfold dq at h
  split at h
  case h_1 htgt =>
    split at h <;> cases h
    exact .inl ⟨‹_›, rfl, rfl, fun t ts ht => by cases htgt.symm.trans ht⟩
  case h_2 t ts htgt =>
    split at h
    case isTrue hsource =>
      split at h <;> cases h
      case isTrue hle =>
        refine .inl ⟨hsource, rfl, rfl, fun t' ts' ht => ?_⟩
        cases htgt.symm.trans ht
        exact hle
      case isFalse hlt => exact .inr ⟨ts, htgt, rfl, fun _ => by omega⟩
    case isFalse hsource =>
      cases h
      exact .inr ⟨ts, htgt, rfl, fun hs => absurd hs hsource⟩

/-- A turn of the second loop merges the two oldest nodes of the target queue (42 R96 step 4). -/
theorem drainTarget_merge {a b : Nat} {ts : List Nat} (fuel : Nat) (htgt : q.tgt = a :: b :: ts) :
    drainTarget (fuel + 1) q = drainTarget fuel (mergeNodes a b { q with tgt := ts }) := by
  simp [drainTarget, htgt]

/-- The second loop ends with at most one node in the target queue (42 R96 step 4). -/
theorem drainTarget_done (fuel : Nat) (htgt : q.tgt.length ≤ 1) : drainTarget fuel q = q := by
  cases fuel with
  | zero => rfl
  | succ fuel =>
    unfold drainTarget
    split
    case h_1 a b ts h => simp [h] at htgt
    case h_2 => rfl

end

/-- Settles O20: `Merge` writes in bounds, and each turn and each `dq` is its branch of the definition. -/
theorem dqTakesTheSmallerHead : Obligations.DqTakesTheSmallerHead := by
  unfold Obligations.DqTakesTheSmallerHead
  refine ⟨fun a b q hroom => ?_, fun l fuel a b q q1 q2 => drainSource_merge, fun l fuel a q q1 q2 => drainSource_lone,
    fun fuel a b ts q => drainTarget_merge fuel, fun l q => ⟨?_, ?_, ?_, ?_, dq_empty⟩⟩
  · simp [mergeNodes, mergedNode, Vector.setIfInBounds, Vector.set, Array.setIfInBounds, hroom]
  · intro t ts hsource htgt hle
    exact dq_source hsource fun t' ts' ht => by cases htgt.symm.trans ht; exact hle
  · intro t ts _ htgt hlt
    exact dq_target htgt fun _ => hlt
  · intro hsource htgt
    exact dq_source hsource fun t ts ht => by cases htgt.symm.trans ht
  · intro t ts hsource htgt
    exact dq_target htgt fun hs => absurd hs hsource

end Sys2Proof.Machine
end

section
/-! PROOFS. The run of merges: how the queues and the node array stand after each of them (42 R93 to R98). -/

namespace Sys2Proof.Machine

/-- `k` merges of the merge of `es`: each takes two nodes by `dq` and makes them one (42 R94, R95). -/
inductive MergeRun (es : List (Sym × Word)) : Nat → MergeState → Prop
  /-- the leaves, an empty target queue -/
  | start : MergeRun es 0 (mergeStart es)
  /-- one merge more -/
  | merge {k a b : Nat} {q q1 q2 : MergeState} (run : MergeRun es k q) (first : dq es.length q = (some a, q1))
      (second : dq es.length q1 = (some b, q2)) : MergeRun es (k + 1) (mergeNodes a b q2)

/-- The node array `t` holds every node made so far. -/
def KeepsNodes (t : Nodes) (q : MergeState) : Prop := ∀ n, n < q.nxt → t[n]? = q.node[n]?

theorem KeepsNodes.weight {t : Nodes} {q : MergeState} {n : Nat} (h : KeepsNodes t q) (hn : n < q.nxt) :
    weightAt t n = weightAt q.node n := by
  rw [weightAt, weightAt, h n hn]

/-- `dq` writes no node. -/
theorem keepsNodes_dq_iff {t : Nodes} {q q' : MergeState} {l : Nat} {o : Option Nat} (hdq : dq l q = (o, q')) :
    KeepsNodes t q' ↔ KeepsNodes t q := by
  obtain ⟨hnode, hnxt⟩ := dq_keeps hdq
  rw [KeepsNodes, hnode, hnxt, KeepsNodes]

/-! ### The queues after `j` takings and `m` merges -/

/-- After `j` nodes taken and `m` nodes made, the source head counts the leaves taken, and the target queue holds the nodes made
and not taken, in the order they were made. -/
structure Queues (l j m : Nat) (q : MergeState) : Prop where
  nxt : q.nxt = l + m
  source : q.sh ≤ l
  leaves : q.sh ≤ j
  inner : j - q.sh ≤ m
  tgt : q.tgt = List.range' (l + (j - q.sh)) (m - (j - q.sh))

section
variable {l j m a b : Nat} {q q' : MergeState} {t : Nodes}

/-- The queues hold only nodes made (10 R38). -/
theorem Queues.lt_nxt (h : Queues l j m q) (ha : a ∈ available l q) : a < q.nxt := by
  have := h.nxt
  have := h.source
  have := h.inner
  rw [available, h.tgt, List.mem_append, List.mem_range'_1, List.mem_range'_1] at ha
  omega

/-- While fewer nodes are taken than made, `dq` takes one. -/
theorem Queues.exists_dq (h : Queues l j m q) (hmore : j < l + m) : ∃ a q', dq l q = (some a, q') := by
  rcases hdq : dq l q with ⟨_ | a, q'⟩
  case some => exact ⟨a, q', rfl⟩
  case none =>
    obtain ⟨_, _, hempty⟩ := dq_frame l q
    rw [hdq] at hempty
    obtain ⟨htgt, hsource⟩ := hempty.mp rfl
    have hnone := congrArg List.length (htgt.symm.trans h.tgt)
    rw [List.length_nil, List.length_range'] at hnone
    have := h.leaves
    omega

/-- The target head is the oldest node made and not taken, and what is left is the queue after it is taken. -/
theorem Queues.tgt_cons {ts : List Nat} (h : Queues l j m q) (htgt : q.tgt = a :: ts) :
    j - q.sh < m ∧ a = l + (j - q.sh) ∧ ts = List.range' (l + (j + 1 - q.sh)) (m - (j + 1 - q.sh)) := by
  have hleaves := h.leaves
  have hhead := htgt.symm.trans h.tgt
  have hsome := congrArg List.length hhead
  rw [List.length_cons, List.length_range'] at hsome
  rw [show m - (j - q.sh) = m - (j + 1 - q.sh) + 1 by omega, List.range'_succ, List.cons.injEq] at hhead
  obtain ⟨rfl, rfl⟩ := hhead
  refine ⟨by omega, rfl, ?_⟩
  congr 1
  omega

/-- A taking moves the head of the queue it takes from; the source queue holds the indices below `l` (42 R94). -/
theorem Queues.take (h : Queues l j m q) (hdq : dq l q = (some a, q')) :
    Queues l (j + 1) m q' ∧ q'.sh = q.sh + (if a < l then 1 else 0) := by
  have hleaves := h.leaves
  rcases dq_some_cases hdq with ⟨hmore, rfl, rfl, _⟩ | ⟨ts, htgt, rfl, _⟩
  · have hsame : j + 1 - (q.sh + 1) = j - q.sh := by omega
    exact ⟨⟨h.nxt, hmore, Nat.succ_le_succ hleaves, hsame.le.trans h.inner, by rw [hsame]; exact h.tgt⟩,
      by rw [if_pos hmore]⟩
  · obtain ⟨hmade, rfl, hts⟩ := h.tgt_cons htgt
    have hinner : j + 1 - q.sh ≤ m := by omega
    exact ⟨⟨h.nxt, h.source, by exact Nat.le_succ_of_le hleaves, hinner, hts⟩, by simp⟩

/-- Which node `dq` takes, read off the counts (42 R94). -/
theorem Queues.eq_nextPopped (h : Queues l j m q) (hdq : dq l q = (some a, q')) (hm : j / 2 = m) (hkeep : KeepsNodes t q) :
    a = nextPopped t l j q.sh := by
  have hnxt := h.nxt
  have htarget (hmade : j - q.sh < m) : l + (j - q.sh) < q.nxt := by omega
  have hsource (hmore : q.sh < l) : q.sh < q.nxt := by omega
  rw [nextPopped, hm]
  rcases dq_some_cases hdq with ⟨hmore, rfl, _, hhead⟩ | ⟨ts, htgt, _, hlighter⟩
  · rw [if_pos]
    refine ⟨hmore, or_iff_not_imp_left.mpr fun hmade => ?_⟩
    have htgt := h.tgt
    rw [show m - (j - q.sh) = m - (j - q.sh) - 1 + 1 by omega, List.range'_succ] at htgt
    rw [hkeep.weight (hsource hmore), hkeep.weight (htarget (by omega))]
    exact hhead _ _ htgt
  · obtain ⟨hmade, rfl, _⟩ := h.tgt_cons htgt
    rw [if_neg]
    rintro ⟨hmore, hempty | hle⟩
    · omega
    · rw [hkeep.weight (hsource hmore), hkeep.weight (htarget hmade)] at hle
      have := hlighter hmore
      omega

/-- `Merge` puts the node it makes at the end of the target queue (42 R95). -/
theorem Queues.merge (h : Queues l j m q) (a b : Nat) : Queues l j (m + 1) (mergeNodes a b q) := by
  obtain ⟨hnxt, hsource, hleaves, hinner, htgt⟩ := h
  refine ⟨congrArg (· + 1) hnxt, hsource, hleaves, hinner.trans (Nat.le_succ m), ?_⟩
  show q.tgt ++ [q.nxt] = List.range' (l + (j - q.sh)) (m + 1 - (j - q.sh))
  rw [htgt, hnxt, show m + 1 - (j - q.sh) = m - (j - q.sh) + 1 by omega, List.range'_concat]
  congr 2
  omega

end

section
variable {es : List (Sym × Word)} {k a b : Nat} {q q1 q2 : MergeState} {t : Nodes}

/-- After `k` merges `2 k` nodes are taken and `k` made; the latest is in the target queue, so more than `k` leaves are taken. -/
theorem MergeRun.queues (h : MergeRun es k q) : Queues es.length (2 * k) k q ∧ (k = 0 ∨ k < q.sh) := by
  induction h with
  | start => exact ⟨⟨rfl, Nat.zero_le _, Nat.zero_le _, Nat.zero_le _, rfl⟩, .inl rfl⟩
  | @merge k a b q q1 q2 run first second ih =>
    obtain ⟨hqueues, _⟩ := ih
    obtain ⟨hfirst, _⟩ := hqueues.take first
    obtain ⟨hsecond, _⟩ := hfirst.take second
    have hinner := hsecond.inner
    have hmany : k + 1 < q2.sh := by omega
    exact ⟨hsecond.merge a b, .inr hmany⟩

/-- A further merge makes at most the root (42 R98). -/
theorem MergeRun.room (h : MergeRun es k q) (first : dq es.length q = (some a, q1))
    (second : dq es.length q1 = (some b, q2)) : k + 1 < es.length := by
  obtain ⟨hfirst, _⟩ := h.queues.1.take first
  obtain ⟨hsecond, _⟩ := hfirst.take second
  have := hsecond.source
  have := hsecond.inner
  omega

/-- While two nodes or more are in the queues, two are taken (42 R94). -/
theorem MergeRun.exists_dq (h : MergeRun es k q) (hmore : k + 1 < es.length) :
    ∃ a b q1 q2, dq es.length q = (some a, q1) ∧ dq es.length q1 = (some b, q2) := by
  obtain ⟨a, q1, first⟩ := h.queues.1.exists_dq (by omega)
  obtain ⟨b, q2, second⟩ := (h.queues.1.take first).1.exists_dq (by omega)
  exact ⟨a, b, q1, q2, first, second⟩

/-! ### The loops make the whole run -/

/-- The first loop makes merges until every leaf is taken (42 R96 step 3; log 16). -/
theorem drainSource_run (hsome : 2 ≤ es.length) (fuel : Nat) (h : MergeRun es k q) (hfuel : es.length ≤ fuel + k + 1) :
    ∃ k', MergeRun es k' (drainSource es.length fuel q) ∧ es.length ≤ (drainSource es.length fuel q).sh := by
  induction fuel generalizing k q with
  | zero =>
    obtain ⟨_, hbusy⟩ := h.queues
    exact ⟨k, h, by rw [drainSource]; omega⟩
  | succ fuel ih =>
    by_cases hsource : q.sh < es.length
    case neg =>
      have hdone : es.length ≤ q.sh := by omega
      rw [drainSource_done _ hdone]
      exact ⟨k, h, hdone⟩
    case pos =>
      obtain ⟨_, hbusy⟩ := h.queues
      obtain ⟨a, b, q1, q2, first, second⟩ := h.exists_dq (by omega)
      rw [drainSource_merge hsource first second]
      exact ih (h.merge first second) (by omega)

/-- The second loop makes the merges that are left, every leaf being taken (42 R96 step 4; log 16). -/
theorem drainTarget_run (hsome : 2 ≤ es.length) (fuel : Nat) (h : MergeRun es k q) (hsource : es.length ≤ q.sh)
    (hfuel : es.length ≤ fuel + k + 1) : MergeRun es (es.length - 1) (drainTarget fuel q) := by
  induction fuel generalizing k q with
  | zero =>
    obtain ⟨hqueues, hbusy⟩ := h.queues
    have := hqueues.source
    have := hqueues.inner
    obtain rfl : k = es.length - 1 := by omega
    exact h
  | succ fuel ih =>
    obtain ⟨⟨_, hsh, hleaves, hinner, htgt⟩, hbusy⟩ := h.queues
    by_cases hmore : k + 1 < es.length
    case neg =>
      obtain rfl : k = es.length - 1 := by omega
      rw [drainTarget_done]
      · exact h
      · rw [htgt, List.length_range']
        omega
    case pos =>
      rw [show k - (2 * k - q.sh) = k - (2 * k - q.sh) - 2 + 1 + 1 by omega, List.range'_succ, List.range'_succ] at htgt
      have hnone : ¬q.sh < es.length := by omega
      rw [drainTarget_merge fuel htgt]
      exact ih (h.merge (dq_target htgt fun hs => absurd hs hnone) (dq_target rfl fun hs => absurd hs hnone)) hsource
        (by omega)

/-- The merge of `L` entries is a run of `L - 1` merges (42 R96, R98). -/
theorem twoQueue_run (hsome : 2 ≤ es.length) : MergeRun es (es.length - 1) (twoQueue es) := by
  obtain ⟨k, hrun, hsource⟩ := drainSource_run hsome es.length .start (by omega)
  exact drainTarget_run hsome es.length hrun hsource (by omega)

/-- It leaves one node in the queues, the last one made: the root (42 R96 step 5). -/
theorem twoQueue_root (hsome : 2 ≤ es.length) :
    (twoQueue es).tgt = [2 * es.length - 2] ∧ (twoQueue es).nxt = 2 * es.length - 1 ∧ (twoQueue es).sh = es.length := by
  obtain ⟨⟨hnxt, hsh, hleaves, hinner, htgt⟩, hbusy⟩ := (twoQueue_run hsome).queues
  obtain hsource : (twoQueue es).sh = es.length := by omega
  refine ⟨?_, by omega, hsource⟩
  rw [htgt, hsource, show es.length - 1 - (2 * (es.length - 1) - es.length) = 1 by omega, List.range'_one]
  congr 1
  omega

end

end Sys2Proof.Machine
end

section
/-! PROOFS. The node array that the run of merges leaves, and BUILD_TREE's LIST and NODE (42 R89 to R98). -/

namespace Sys2Proof.Machine

/-! ### The nodes made -/

section
variable {es : List (Sym × Word)} {k a b : Nat} {q q1 q2 : MergeState} {t : Nodes}

/-- What a merge of a run leaves in an array that keeps its nodes: the new node over two older ones, which have left the
queues. -/
structure MergedIn (t : Nodes) (l a b : Nat) (q q2 : MergeState) : Prop where
  keeps : KeepsNodes t q
  node : t[q.nxt]? = some (mergedNode t a b)
  left : a < q.nxt
  right : b < q.nxt
  taken : (available l q).Perm (a :: b :: available l q2)
  nxt : q2.nxt = q.nxt

theorem MergeRun.mergedIn (h : MergeRun es k q) (first : dq es.length q = (some a, q1))
    (second : dq es.length q1 = (some b, q2)) (hmany : es.length ≤ 128) (hkeep : KeepsNodes t (mergeNodes a b q2)) :
    MergedIn t es.length a b q q2 := by
  obtain ⟨hnode1, hnxt1⟩ := dq_keeps first
  obtain ⟨hnode2, hnxt2⟩ := dq_keeps second
  have hnxt : q2.nxt = q.nxt := hnxt2.trans hnxt1
  have hnode : q2.node = q.node := hnode2.trans hnode1
  have hroom := h.room first second
  have hcount := h.queues.1.nxt
  have havail : (available es.length q).Perm (a :: b :: available es.length q2) :=
    (available_dq first).trans ((available_dq second).cons a)
  have hleft : a < q.nxt := h.queues.1.lt_nxt (havail.mem_iff.mpr (by simp))
  have hright : b < q.nxt := h.queues.1.lt_nxt (havail.mem_iff.mpr (by simp))
  have hkeeps : KeepsNodes t q := by
    intro n hn
    have hold : n < (mergeNodes a b q2).nxt := show n < q2.nxt + 1 by omega
    rw [hkeep n hold, ← hnode]
    exact Vector.getElem?_setIfInBounds_ne (by omega)
  refine ⟨hkeeps, ?_, hleft, hright, havail, hnxt⟩
  have hnew : q.nxt < (mergeNodes a b q2).nxt := show q.nxt < q2.nxt + 1 by omega
  have hin : q.nxt < 255 := by omega
  rw [hkeep _ hnew, mergedNode, hkeeps.weight hleft, hkeeps.weight hright]
  simp [mergeNodes, mergedNode, hnxt, hnode, hin]

/-- The leaves stay (42 R93). -/
theorem MergeRun.keeps_start (h : MergeRun es k q) (hmany : es.length ≤ 128) (hkeep : KeepsNodes t q) :
    KeepsNodes t (mergeStart es) := by
  induction h with
  | start => exact hkeep
  | merge run first second ih => exact ih (run.mergedIn first second hmany hkeep).keeps

/-- NODE[i] is the leaf of LIST[i] (42 R96 step 1). -/
theorem MergeRun.leaf {i : Nat} (h : MergeRun es k q) (hmany : es.length ≤ 128) (hkeep : KeepsNodes t q) (hi : i < es.length) :
    t[i]? = some (leafOf es[i]) := by
  have hin : i < 255 := by omega
  rw [h.keeps_start hmany hkeep i hi, mergeStart, writeFrom_getElem?]
  simp [hi, hin]

/-- Each node made comes from a merge of the run. -/
theorem MergeRun.exists_mergedIn {n : Nat} (h : MergeRun es k q) (hmany : es.length ≤ 128) (hkeep : KeepsNodes t q)
    (hn : es.length ≤ n) (hmade : n < es.length + k) :
    ∃ k' a b q' q2, MergeRun es k' q' ∧ q'.nxt = n ∧ MergedIn t es.length a b q' q2 := by
  induction h with
  | start => omega
  | @merge k a b q q1 q2 run first second ih =>
    have hmerged := run.mergedIn first second hmany hkeep
    have hnxt := run.queues.1.nxt
    by_cases hnew : q.nxt = n
    · exact ⟨k, a, b, q, q2, run, hnew, hmerged⟩
    · exact ih hmerged.keeps (by omega)

/-- No entry from the next free index up is written. -/
theorem MergeRun.zero {n : Nat} (h : MergeRun es k q) (hn : q.nxt ≤ n) (hin : n < 255) : q.node[n]? = some zeroNode := by
  induction h with
  | start =>
    have hpast : ¬n < es.length := Nat.not_lt.mpr hn
    rw [mergeStart, writeFrom_getElem?]
    simp [hpast, hin]
  | @merge k a b q q1 q2 run first second ih =>
    obtain ⟨hnode1, hnxt1⟩ := dq_keeps first
    obtain ⟨hnode2, hnxt2⟩ := dq_keeps second
    have hlater : q2.nxt < n := hn
    rw [show (mergeNodes a b q2).node[n]? = q2.node[n]? from Vector.getElem?_setIfInBounds_ne (by omega), hnode2, hnode1]
    exact ih (by omega)

/-! ### The order of the takings, read off the array -/

theorem recAt_of_getElem? {n : Nat} {r : NodeRec} (hn : n < 256) (h : t[n]? = some r) : recAt t (BitVec.ofNat 8 n) = r := by
  rw [recAt, nodeAt, BitVec.toNat_ofNat, Nat.mod_eq_of_lt hn, h, Option.getD_some]

theorem recAt_weight {n : Nat} (hn : n < 256) : (recAt t (BitVec.ofNat 8 n)).weight = weightAt t n := by
  rw [recAt, nodeAt, BitVec.toNat_ofNat, Nat.mod_eq_of_lt hn, weightAt]

/-- The children of the node of merge `k` are the nodes it took (42 R95). -/
theorem popped_eq {l : Nat} (hin : l + k < 256) (ha : a < 256) (hb : b < 256) (hnode : t[l + k]? = some (mergedNode t a b)) :
    popped t l (2 * k) = a ∧ popped t l (2 * k + 1) = b := by
  have hrec : recAt t (BitVec.ofNat 8 (l + k)) = mergedNode t a b := recAt_of_getElem? hin hnode
  constructor
  · rw [popped, if_pos (by omega), show 2 * k / 2 = k by omega, hrec]
    simpa [mergedNode] using ha
  · rw [popped, if_neg (by omega), show (2 * k + 1) / 2 = k by omega, hrec]
    simpa [mergedNode] using hb

theorem leavesPopped_succ (t : Nodes) (l j : Nat) :
    leavesPopped t l (j + 1) = leavesPopped t l j + if popped t l j < l then 1 else 0 := by
  rw [leavesPopped, leavesPopped, List.range_succ, List.filter_append, List.length_append]
  by_cases hleaf : popped t l j < l <;> simp [hleaf]

/-- Every taking is the one that the heads of the two queues allow (42 R94). -/
theorem MergeRun.popped (h : MergeRun es k q) (hmany : es.length ≤ 128) (hkeep : KeepsNodes t q) :
    leavesPopped t es.length (2 * k) = q.sh ∧
      ∀ j, j < 2 * k → popped t es.length j = nextPopped t es.length j (leavesPopped t es.length j) := by
  induction h with
  | start => exact ⟨rfl, nofun⟩
  | @merge k a b q q1 q2 run first second ih =>
    obtain ⟨hkeeps, hnode, hleft, hright, _, _⟩ := run.mergedIn first second hmany hkeep
    obtain ⟨hleaves, hold⟩ := ih hkeeps
    obtain ⟨hqueues, _⟩ := run.queues
    obtain ⟨hqueues1, hsh1⟩ := hqueues.take first
    obtain ⟨_, hsh2⟩ := hqueues1.take second
    have hnxt := hqueues.nxt
    have hroom := run.room first second
    obtain ⟨hpop0, hpop1⟩ := popped_eq (by omega) (by omega) (by omega) (hnxt ▸ hnode)
    have hleaves1 : leavesPopped t es.length (2 * k + 1) = q1.sh := by rw [leavesPopped_succ, hleaves, hpop0, hsh1]
    have hleaves2 : leavesPopped t es.length (2 * k + 2) = q2.sh := by rw [leavesPopped_succ, hleaves1, hpop1, hsh2]
    refine ⟨hleaves2, fun j hj => ?_⟩
    obtain hj | rfl | rfl : j < 2 * k ∨ j = 2 * k ∨ j = 2 * k + 1 := by omega
    · exact hold j hj
    · rw [hpop0, hleaves]
      exact hqueues.eq_nextPopped first (by omega) hkeeps
    · rw [hpop1, hleaves1]
      exact hqueues1.eq_nextPopped second (by omega) ((keepsNodes_dq_iff first).mpr hkeeps)

end

/-! ### The listed entries -/

/-- The injection adds an entry of count 0 beside a single one (42 R90). -/
theorem mem_inject {l : List (Sym × Word)} {e : Sym × Word} :
    e ∈ inject l ↔ e ∈ l ∨ ∃ e₀, l = [e₀] ∧ e = (e₀.1 + 1#7, 0#32) := by
  match l with
  | [] => simp [inject]
  | [_] => simp [inject]
  | _ :: _ :: _ => simp [inject]

theorem countedEntries_fst_nodup (freq : Vector Word 128) : ((countedEntries freq).map Prod.fst).Nodup := by
  rw [countedEntries_fst]
  exact symbols_nodup.filter _

/-- There is a single counted entry exactly where one symbol has a nonzero count. -/
theorem countedEntries_eq_singleton_iff {freq : Vector Word 128} {e : Sym × Word} :
    countedEntries freq = [e] ↔ e.2 = freqAt freq e.1 ∧ freqAt freq e.1 ≠ 0#32 ∧ ∀ y, y ≠ e.1 → freqAt freq y = 0#32 := by
  obtain ⟨x, n⟩ := e
  rw [← List.perm_singleton, List.perm_ext_iff_of_nodup (.of_map _ (countedEntries_fst_nodup freq)) (List.nodup_singleton _)]
  simp only [Prod.forall, mem_countedEntries, List.mem_singleton, Prod.mk.injEq]
  constructor
  · intro h
    obtain ⟨rfl, hx⟩ := (h x n).mpr ⟨rfl, rfl⟩
    exact ⟨rfl, hx, fun y hy => not_not.mp fun hne => hy ((h y _).mp ⟨rfl, hne⟩).1⟩
  · rintro ⟨rfl, hx, hothers⟩ y m
    constructor
    · rintro ⟨rfl, hy⟩
      obtain rfl : y = x := not_not.mp fun hne => hy (hothers y hne)
      exact ⟨rfl, rfl⟩
    · rintro ⟨rfl, rfl⟩
      exact ⟨rfl, hx⟩

/-- The list has the counted symbols, and beside a single one the next symbol with count 0 (42 R90). -/
theorem mem_frequencyList {freq : Vector Word 128} {x : Sym} {n : Word} :
    (x, n) ∈ frequencyList freq ↔ (n = freqAt freq x ∧ n ≠ 0#32) ∨
      (n = 0#32 ∧ ∃ x0, x = x0 + 1#7 ∧ freqAt freq x0 ≠ 0#32 ∧ ∀ y, y ≠ x0 → freqAt freq y = 0#32) := by
  rw [frequencyList, (sortEntries_perm _).mem_iff, mem_inject, mem_countedEntries]
  refine or_congr_right ?_
  constructor
  · rintro ⟨e, hsingle, h⟩
    obtain ⟨rfl, rfl⟩ := Prod.mk.inj h
    obtain ⟨_, hx, hothers⟩ := countedEntries_eq_singleton_iff.mp hsingle
    exact ⟨rfl, e.1, rfl, hx, hothers⟩
  · rintro ⟨rfl, x0, rfl, hx, hothers⟩
    exact ⟨(x0, freqAt freq x0), countedEntries_eq_singleton_iff.mpr ⟨rfl, hx, hothers⟩, rfl⟩

/-- The list is sorted by count, then by symbol (42 R91). -/
theorem frequencyList_sorted (freq : Vector Word 128) :
    (frequencyList freq).Pairwise fun e e' => e.2.toNat < e'.2.toNat ∨ (e.2 = e'.2 ∧ e.1.toNat < e'.1.toNat) :=
  (sortEntries_sorted (inject_fst_nodup (countedEntries_fst_nodup freq))).imp fun h => (entryBefore_iff _ _).mp h

/-- The entry of LIST that holds a listed symbol and its count (10 R32). -/
def listedEntry (e : Sym × Word) : ListEntry := { valid := true, sym := e.1, count := e.2 }

/-- LIST holds the list from index 0, and zero above it (42 R89). -/
theorem listOf_getElem (l : List (Sym × Word)) (i : Fin 128) : (listOf l)[i.val] = (l[i.val]?.map listedEntry).getD zeroEntry := by
  rw [Vector.getElem_eq_iff, listOf, writeFrom_getElem?]
  by_cases hi : i.val < l.length
  · simp [hi, listedEntry]
  · simp [hi]

/-! ### BUILD_TREE -/

/-- What BUILD_TREE leaves (42 R89, R96 step 5). -/
def treeBuilt (s : State) (e : ErrCode) : State :=
  { completed s e with
    list := listOf (frequencyList s.freq)
    node := (twoQueue (frequencyList s.freq)).node
    code := Vector.replicate 128 zeroCode
    nsym := BitVec.ofNat 8 (frequencyList s.freq).length
    nnodes := BitVec.ofNat 8 (2 * (frequencyList s.freq).length - 1)
    root := BitVec.ofNat 8 (2 * (frequencyList s.freq).length - 2)
    bitlen := 0#64
    pad := 0#4
    phase := .treeBuilt }

section
variable {s : State} {c : Cur} {x : Sym}

/-- With a symbol counted the last step of BUILD_TREE has a meaning (42 R97). -/
theorem exists_buildTreeBody (c : Cur) (hx : freqAt s.freq x ≠ 0#32) :
    ∃ q, buildTreeBody c s = .ok q ∧ complete q.1 q.2 = treeBuilt s c.err := by
  obtain ⟨hsome, _⟩ := frequencyList_length hx
  obtain ⟨htgt, hnxt, _⟩ := twoQueue_root hsome
  simp [buildTreeBody, htgt, hnxt, complete, treeBuilt, completed]

/-- BUILD_TREE completes with its list and its tree. -/
theorem exec_buildTree (h : AtEnd s c .buildTree) (hx : freqAt s.freq x ≠ 0#32) :
    exec .buildTree s = .next (treeBuilt s c.err) := by
  obtain ⟨q, hbody, hq⟩ := exists_buildTreeBody c hx
  rw [← hq]
  exact (command_running h.running h.op).trans (coreStep_finish h.rem hbody)

/-- NSYM, NNODES and ROOT hold their numbers (42 R98). -/
theorem treeBuilt_counts (hx : freqAt s.freq x ≠ 0#32) (e : ErrCode) :
    (treeBuilt s e).nsym.toNat = (frequencyList s.freq).length ∧
      (treeBuilt s e).nnodes.toNat = 2 * (frequencyList s.freq).length - 1 ∧
      (treeBuilt s e).root.toNat = 2 * (frequencyList s.freq).length - 2 := by
  obtain ⟨_, hmany⟩ := frequencyList_length hx
  simp only [treeBuilt, BitVec.toNat_ofNat]
  omega

end

/-- Settles O19: LIST is the sorted list of the counted symbols and the injected one; the frame is that of `treeBuilt`. -/
theorem buildTreeSortsTheList : Obligations.BuildTreeSortsTheList := by
  unfold Obligations.BuildTreeSortsTheList
  rintro s c hend ⟨x, hx⟩
  obtain ⟨hsome, hmany⟩ := frequencyList_length hx
  obtain ⟨hnsym, _⟩ := treeBuilt_counts hx c.err
  refine ⟨treeBuilt s c.err, frequencyList s.freq, exec_buildTree hend hx, rfl, hnsym.symm, hsome, hmany, fun i => ?_,
    frequencyList_sorted s.freq, fun _ _ => mem_frequencyList⟩
  refine (listOf_getElem (frequencyList s.freq) i).trans ?_
  cases (frequencyList s.freq)[i.val]? <;> rfl

/-- Settles O22: the merge leaves a single node, and the forest in its queues is then one strict tree of the listed symbols. -/
theorem buildTreeGivesAStrictTree : Obligations.BuildTreeGivesAStrictTree := by
  unfold Obligations.BuildTreeGivesAStrictTree
  rintro s c hend ⟨x, hx⟩
  obtain ⟨hsome, hmany⟩ := frequencyList_length hx
  obtain ⟨htgt, hnxt, _⟩ := twoQueue_root hsome
  obtain ⟨_, hwf, hdistinct⟩ := twoQueue_wf hsome hmany (frequencyList_fst_nodup s.freq) htgt
  rw [hnxt] at hwf
  exact ⟨treeBuilt s c.err, exec_buildTree hend hx, hwf, hdistinct⟩

/-- Settles O21: the run of merges keeps the leaves, makes each node over two older ones, takes its nodes in the order of the
queues, and writes no entry above the root. -/
theorem buildTreeNumbersTheNodes : Obligations.BuildTreeNumbersTheNodes := by
  unfold Obligations.BuildTreeNumbersTheNodes
  rintro s c hend ⟨x, hx⟩
  obtain ⟨hsome, hmany⟩ := frequencyList_length hx
  obtain ⟨hnsym, hnnodes, hroot⟩ := treeBuilt_counts hx c.err
  obtain ⟨_, hlast, _⟩ := twoQueue_root hsome
  have hrun := twoQueue_run hsome
  have hkeep : KeepsNodes (twoQueue (frequencyList s.freq)).node (twoQueue (frequencyList s.freq)) := fun _ _ => rfl
  refine ⟨treeBuilt s c.err, exec_buildTree hend hx, ?_⟩
  rw [hnsym, hnnodes, hroot]
  refine ⟨rfl, rfl, fun i hi => ?_, fun n hn hmade => ?_, fun j hj => ?_, fun n hn => ?_⟩
  · refine (Vector.getElem_eq_iff.mpr (hrun.leaf hmany hkeep hi)).trans ?_
    rw [show (treeBuilt s c.err).list[i.val] = listedEntry (frequencyList s.freq)[i.val] by
      exact (listOf_getElem _ i).trans (by simp [hi])]
    rfl
  · obtain ⟨_, a, b, _, _, _, hnxt, _, hnode, ha, hb, _⟩ := hrun.exists_mergedIn hmany hkeep hn (by omega)
    rw [hnxt] at hnode ha hb
    have hrec : (treeBuilt s c.err).node[n.val] = mergedNode (twoQueue (frequencyList s.freq)).node a b :=
      Vector.getElem_eq_iff.mpr hnode
    have hleft : a < 256 := by omega
    have hright : b < 256 := by omega
    rw [hrec]
    refine ⟨rfl, rfl, rfl, ?_, ?_, ?_⟩
    · simpa [mergedNode, Nat.mod_eq_of_lt hleft] using ha
    · simpa [mergedNode, Nat.mod_eq_of_lt hright] using hb
    · exact congrArg₂ (· + ·) (recAt_weight hleft).symm (recAt_weight hright).symm
  · exact (hrun.popped hmany hkeep).2 j (by omega)
  · exact Vector.getElem_eq_iff.mpr (hrun.zero (by omega) n.isLt)

end Sys2Proof.Machine
end

section
/-! PROOFS. The weights of the nodes: they keep their sum through the merge (42 R98). -/

namespace Sys2Proof.Machine

/-! ### The counts of the list -/

/-- A sum over the counted entries, each weighted by its count, is that over all symbols. -/
theorem sum_countedEntries (freq : Vector Word 128) (g : Sym → Nat) :
    ((countedEntries freq).map fun e => e.2.toNat * g e.1).sum = (symbols.map fun x => (freqAt freq x).toNat * g x).sum := by
  unfold countedEntries
  induction symbols with
  | nil => rfl
  | cons x xs ih =>
    rw [List.map_cons, List.sum_cons, ← ih]
    by_cases hx : freqAt freq x = 0#32 <;> simp [hx]

/-- The injected entry weighs nothing (42 R90). -/
theorem sum_inject (l : List (Sym × Word)) (g : Sym → Nat) :
    ((inject l).map fun e => e.2.toNat * g e.1).sum = (l.map fun e => e.2.toNat * g e.1).sum := by
  match l with
  | [] => rfl
  | [_] => simp [inject]
  | _ :: _ :: _ => rfl

/-- A sum over the list, each entry weighted by its count, is that over all symbols. -/
theorem sum_frequencyList (freq : Vector Word 128) (g : Sym → Nat) :
    ((frequencyList freq).map fun e => e.2.toNat * g e.1).sum = (symbols.map fun x => (freqAt freq x).toNat * g x).sum := by
  rw [← sum_countedEntries, ← sum_inject (countedEntries freq)]
  exact ((sortEntries_perm _).map fun e : Sym × Word => e.2.toNat * g e.1).sum_eq

/-- The counts of the list sum to the counts of all symbols. -/
theorem frequencyList_total (freq : Vector Word 128) :
    ((frequencyList freq).map fun e => e.2.toNat).sum = (symbols.map fun x => (freqAt freq x).toNat).sum := by
  simpa using sum_frequencyList freq fun _ => 1

/-! ### The weights in the queues -/

/-- WEIGHT of a node as a number. -/
def nodeWeight (t : Nodes) (n : Nat) : Nat := (weightAt t n).toNat

section
variable {es : List (Sym × Word)} {k a b l : Nat} {q q1 q2 : MergeState} {t : Nodes}

theorem weightAt_of_getElem? {n : Nat} {r : NodeRec} (h : t[n]? = some r) : weightAt t n = r.weight := by
  rw [weightAt, h, Option.getD_some]

/-- The new node takes the place of the two in the queues. -/
theorem MergedIn.available_eq (h : MergedIn t l a b q q2) :
    available l (mergeNodes a b q2) = available l q2 ++ [q.nxt] :=
  h.nxt ▸ available_push l q2.nxt q2

/-- The new node weighs as much as the two, where the weights in the queues do not overflow (42 R95). -/
theorem MergedIn.weight (h : MergedIn t l a b q q2) (hsum : ((available l q).map (nodeWeight t)).sum < 2 ^ 32) :
    nodeWeight t q.nxt = nodeWeight t a + nodeWeight t b := by
  rw [(h.taken.map _).sum_eq, List.map_cons, List.map_cons, List.sum_cons, List.sum_cons] at hsum
  rw [nodeWeight, weightAt_of_getElem? h.node]
  exact BitVec.toNat_add_of_lt (show nodeWeight t a + nodeWeight t b < 2 ^ 32 by omega)

/-- The leaves weigh the counts of the list (42 R96 step 1). -/
theorem MergeRun.leafWeights (h : MergeRun es k q) (hmany : es.length ≤ 128) (hkeep : KeepsNodes t q) :
    (List.range' 0 es.length).map (nodeWeight t) = es.map fun e => e.2.toNat := by
  refine List.ext_getElem (by simp) fun i _ hi => ?_
  rw [List.length_map] at hi
  simp [nodeWeight, weightAt_of_getElem? (h.leaf hmany hkeep hi), leafOf]

/-- The weights in the queues sum to the counts of the list after every merge (42 R98). -/
theorem MergeRun.weight_sum (h : MergeRun es k q) (hmany : es.length ≤ 128) (hkeep : KeepsNodes t q)
    (htotal : (es.map fun e => e.2.toNat).sum < 2 ^ 32) :
    ((available es.length q).map (nodeWeight t)).sum = (es.map fun e => e.2.toNat).sum := by
  induction h with
  | start =>
    rw [← MergeRun.start.leafWeights hmany hkeep]
    simp [available, mergeStart]
  | @merge k a b q q1 q2 run first second ih =>
    have hmerged := run.mergedIn first second hmany hkeep
    have hsum := ih hmerged.keeps
    rw [← hsum, hmerged.available_eq, (hmerged.taken.map _).sum_eq]
    simp only [List.map_append, List.map_cons, List.map_nil, List.sum_append, List.sum_cons, List.sum_nil,
      hmerged.weight (hsum.trans_lt htotal)]
    omega

/-- Each node made weighs as much as its two children (42 R95). -/
theorem MergeRun.exists_children {n : Nat} (h : MergeRun es k q) (hmany : es.length ≤ 128) (hkeep : KeepsNodes t q)
    (htotal : (es.map fun e => e.2.toNat).sum < 2 ^ 32) (hn : es.length ≤ n) (hmade : n < es.length + k) :
    ∃ a b, a < n ∧ b < n ∧ t[n]? = some (mergedNode t a b) ∧ nodeWeight t n = nodeWeight t a + nodeWeight t b := by
  obtain ⟨_, a, b, q', q2, hrun, rfl, hmerged⟩ := h.exists_mergedIn hmany hkeep hn hmade
  have hsum := hrun.weight_sum hmany hmerged.keeps htotal
  exact ⟨a, b, hmerged.left, hmerged.right, hmerged.node, hmerged.weight (hsum.trans_lt htotal)⟩

/-- The root weighs the sum of the counts (42 R98). -/
theorem twoQueue_root_weight (hsome : 2 ≤ es.length) (hmany : es.length ≤ 128)
    (htotal : (es.map fun e => e.2.toNat).sum < 2 ^ 32) :
    nodeWeight (twoQueue es).node (2 * es.length - 2) = (es.map fun e => e.2.toNat).sum := by
  obtain ⟨htgt, _, hsource⟩ := twoQueue_root hsome
  rw [← (twoQueue_run hsome).weight_sum hmany (fun _ _ => rfl) htotal, available, htgt, hsource]
  simp

end

/-- Settles O23: the weights in the queues keep their sum, TOTAL, and at the end the root is alone in them. -/
theorem rootWeighsTheTotal : Obligations.RootWeighsTheTotal := by
  unfold Obligations.RootWeighsTheTotal
  intro s c hend hcount htotal
  obtain ⟨x, hx⟩ := exists_counted hcount htotal
  obtain ⟨hsome, hmany⟩ := frequencyList_length hx
  have hsum : ((frequencyList s.freq).map fun e => e.2.toNat).sum = s.total.toNat :=
    (frequencyList_total s.freq).trans hcount.sum
  refine ⟨treeBuilt s c.err, exec_buildTree hend hx, BitVec.eq_of_toNat_eq ?_⟩
  have hroot := twoQueue_root_weight hsome hmany (hsum ▸ s.total.isLt)
  rw [← hsum, ← hroot, treeBuilt, recAt_weight (by omega)]
  rfl

end Sys2Proof.Machine
end

section
/-! PROOFS. The traversal of BUILD_TABLE gives each leaf of a strict tree its path (43 R101, R102). -/

namespace Sys2Proof.Machine

namespace NodeTree

/-- The leaves from left to right, each symbol with the path to its leaf, when the path to the root is `p` (43 R102). -/
def leafPaths : NodeTree → BitString → List (BitString × Sym)
  | leaf _ x, p => [(p, x)]
  | inner _ l r, p => l.leafPaths (p ++ [false]) ++ r.leafPaths (p ++ [true])

theorem leafPaths_snd (T : NodeTree) (p : BitString) : (T.leafPaths p).map Prod.snd = T.syms := by
  induction T generalizing p with
  | leaf n x => rfl
  | inner n l r ihl ihr => simp only [leafPaths, List.map_append, ihl, ihr, syms, leaves]

/-- A strict tree with a leaf at depth `d` has at least `2 d + 1` nodes (43 R102). -/
theorem leafPaths_length_le {T : NodeTree} {p : BitString} {e : BitString × Sym} (he : e ∈ T.leafPaths p) :
    2 * e.1.length + 1 ≤ 2 * p.length + T.indices.length := by
  induction T generalizing p with
  | leaf n x =>
    obtain rfl := List.mem_singleton.mp he
    rfl
  | inner n l r ihl ihr =>
    have := l.one_le_indices_length
    have := r.one_le_indices_length
    rw [indices, List.length_cons, List.length_append]
    rcases List.mem_append.mp he with hl | hr
    · have hdepth := ihl hl
      rw [List.length_append, List.length_singleton] at hdepth
      omega
    · have hdepth := ihr hr
      rw [List.length_append, List.length_singleton] at hdepth
      omega

end NodeTree

/-! ### The table -/

/-- The table with the code of one more symbol (43 R102). -/
def writeCode (code : Vector CodeEntry 128) (e : BitString × Sym) : Vector CodeEntry 128 := code.set e.2.toNat (entryOf e.1)

theorem codeAt_writeCode (code : Vector CodeEntry 128) (e : BitString × Sym) (x : Sym) :
    codeAt (writeCode code e) x = if x = e.2 then entryOf e.1 else codeAt code x := by
  rw [codeAt, writeCode, Vector.getElem_set]
  by_cases hx : x = e.2
  · rw [if_pos hx, if_pos (congrArg BitVec.toNat hx.symm)]
  · rw [if_neg hx, if_neg fun heq => hx (BitVec.eq_of_toNat_eq heq.symm)]
    rfl

/-- The table of a tree: each leaf symbol has the path to its leaf as code (43 R101). -/
def NodeTree.codeTable (T : NodeTree) : Vector CodeEntry 128 :=
  (T.leafPaths []).foldl writeCode (Vector.replicate 128 zeroCode)

section
variable {t : Nodes} {fuel : Nat} {p : BitString} {n : NodeIx} {stack : List (NodeIx × BitString)}
  {code : Vector CodeEntry 128} {r : NodeRec}

/-- A leaf on the stack writes its code (43 R102). -/
theorem traverseLoop_leaf (hr : nodeAt t n = some r) (hleaf : r.leaf = true) (hp : p.length ≤ 127) :
    traverseLoop t (fuel + 1) ((n, p) :: stack) code = traverseLoop t fuel stack (writeCode code (p, r.sym)) := by
  simp [traverseLoop, hr, hleaf, hp, writeCode]

/-- An internal node on the stack gives way to its children, the left one first (43 R102). -/
theorem traverseLoop_inner (hr : nodeAt t n = some r) (hinner : r.leaf = false) :
    traverseLoop t (fuel + 1) ((n, p) :: stack) code =
      traverseLoop t fuel ((r.left, p ++ [false]) :: (r.right, p ++ [true]) :: stack) code := by
  simp [traverseLoop, hr, hinner]

/-- With the roots of trees on its stack, no more nodes than fuel, and no leaf deeper than 127, the loop writes the codes of
all leaves (43 R102). -/
theorem traverseLoop_eq {F : List (NodeTree × BitString)} (hstands : ∀ e ∈ F, e.1.StandsIn t)
    (hfew : (F.flatMap fun e => e.1.indices).length ≤ fuel)
    (hdepth : ∀ e ∈ F.flatMap fun e => e.1.leafPaths e.2, e.1.length ≤ 127) :
    traverseLoop t fuel (F.map fun e => (e.1.index, e.2)) code =
      .ok ((F.flatMap fun e => e.1.leafPaths e.2).foldl writeCode code) := by
  induction fuel generalizing F code with
  | zero =>
    match F with
    | [] => rfl
    | (T, p) :: F =>
      have hsome : 1 ≤ (T, p).1.indices.length := T.one_le_indices_length
      rw [List.flatMap_cons, List.length_append] at hfew
      omega
  | succ fuel ih =>
    match F with
    | [] => rfl
    | (.leaf n x, p) :: F =>
      obtain ⟨⟨r, hr, _, hleaf, rfl, _⟩, hF⟩ := List.forall_mem_cons.mp hstands
      rw [List.flatMap_cons] at hfew hdepth
      obtain ⟨hp, hdepth⟩ := List.forall_mem_append.mp hdepth
      exact (traverseLoop_leaf hr hleaf (hp (p, r.sym) List.mem_cons_self)).trans
        (ih hF (Nat.le_of_succ_le_succ (by simpa [NodeTree.indices] using hfew)) hdepth)
    | (.inner n L R, p) :: F =>
      obtain ⟨⟨⟨r, hr, _, hinner, hleft, hright⟩, hL, hR⟩, hF⟩ := List.forall_mem_cons.mp hstands
      have hpaths : (((NodeTree.inner n L R, p) :: F).flatMap fun e => e.1.leafPaths e.2) =
          ((L, p ++ [false]) :: (R, p ++ [true]) :: F).flatMap fun e => e.1.leafPaths e.2 := by
        simp [NodeTree.leafPaths]
      rw [hpaths] at hdepth ⊢
      refine (traverseLoop_inner hr hinner).trans ?_
      rw [hleft, hright]
      refine ih (F := (L, p ++ [false]) :: (R, p ++ [true]) :: F) ?_ ?_ hdepth
      · exact List.forall_mem_cons.mpr ⟨hL, List.forall_mem_cons.mpr ⟨hR, hF⟩⟩
      · refine Nat.le_of_succ_le_succ (le_trans (le_of_eq ?_) hfew)
        simp [NodeTree.indices]

/-- A tree that fits the array has no leaf deeper than 127 (43 R102). -/
theorem NodeTree.Fits.leafPaths_length_le {T : NodeTree} {nn : NodeIx} {e : BitString × Sym} (h : T.Fits t nn)
    (he : e ∈ T.leafPaths []) : e.1.length ≤ 127 := by
  have hdepth := NodeTree.leafPaths_length_le he
  have := h.length_le
  have := nn.isLt
  rw [List.length_nil] at hdepth
  omega

/-- The traversal of a tree that fits the array writes its table (43 R101). -/
theorem NodeTree.Fits.traverse_eq {T : NodeTree} {nn : NodeIx} (h : T.Fits t nn) : traverse t T.index = .ok T.codeTable := by
  have hloop := traverseLoop_eq (t := t) (fuel := 255) (code := Vector.replicate 128 zeroCode) (F := [(T, [])])
    (List.forall_mem_singleton.mpr h.standsIn)
  simp only [List.flatMap_singleton] at hloop
  refine hloop ?_ fun e he => h.leafPaths_length_le he
  have := h.length_le
  have := nn.isLt
  omega

end

/-- The traversal of a strict tree has a meaning (43 R102; log 8). -/
theorem exists_traverse {t : Nodes} {nn root : NodeIx} (h : wfTree t nn root = true) : ∃ code, traverse t root = .ok code := by
  obtain ⟨L, R, hfits⟩ := wfTree_iff.mp h
  exact ⟨_, hfits.traverse_eq⟩

end Sys2Proof.Machine
end

section
/-! PROOFS. No step from a state that meets the invariant faults (42 R97, 43 R102, 45 R118; log 8). -/

namespace Sys2Proof.Machine

/-! ### The commands -/

/-- A core step faults only where its Beat or its Body does (40 R76). -/
theorem coreStep_ne_fault {beat : Byte → Cur → State → Except Fault (Cur × State)}
    {finish : Cur → State → Except Fault (Cur × State)} {c : Cur} {s : State} (f : Fault)
    (hfinish : ∃ q, finish c s = .ok q)
    (hbeat : ∀ b rest, ∃ q, beat b (takeBeat c rest s).1 (takeBeat c rest s).2 = .ok q) :
    coreStep beat finish c s ≠ .fault f := by
  by_cases hrem : c.rem = 0#32
  · obtain ⟨q, hq⟩ := hfinish
    rw [coreStep_finish hrem hq]
    nofun
  · cases hinq : s.inq with
    | nil => rw [coreStep_wait hrem hinq]; nofun
    | cons b rest =>
      obtain ⟨q, hq⟩ := hbeat b rest
      rw [coreStep_beat hrem hinq hq]
      nofun

/-- A path in a strict tree leads to a record (45 R118). -/
theorem exists_nodeAt_of_descend {t : Nodes} {nn root n : NodeIx} {p : BitString} (h : wfTree t nn root = true)
    (hp : descend t root p = some n) : ∃ r, nodeAt t n = some r := by
  obtain ⟨L, R, hfits⟩ := wfTree_iff.mp h
  rw [← show (NodeTree.inner root L R).index = root from rfl, NodeTree.descend_index hfits.standsIn] at hp
  obtain ⟨U, hU, rfl⟩ := Option.map_eq_some_iff.mp hp
  cases U with
  | leaf n x =>
    obtain ⟨r, hr, _⟩ := hfits.standsIn.sub hU
    exact ⟨r, hr⟩
  | inner n l r =>
    obtain ⟨⟨r, hr, _⟩, _⟩ := hfits.standsIn.sub hU
    exact ⟨r, hr⟩

section
variable {c : Cur} {s : State}

/-- A walked bit leads from the internal node of the walker to a node of the tree (45 R118). -/
theorem exists_walkBit (x : Bool) (hop : c.op = .decode) (hrun : RunningInv c s) : ∃ q, walkBit x c s = .ok q := by
  obtain ⟨nn, hwf⟩ := selectedTree_wf hrun.toDataPathInv (hrun.allowed_of_op hop)
  obtain ⟨p, r, hp, _, hr, hinner⟩ := hrun.walker hop
  have hchild : descend (treeNodes c.tsrc s) (treeRoot c.tsrc s) (p ++ [x]) = some (if x then r.right else r.left) := by
    rw [descend_append, hp]
    simp [descend, hr, hinner]
  obtain ⟨r', hr'⟩ := exists_nodeAt_of_descend hwf hchild
  cases hleaf : r'.leaf with
  | true => exact ⟨_, walkBit_leaf hr hr' hleaf⟩
  | false => exact ⟨_, walkBit_inner hr hr' hleaf⟩

theorem exists_walkBits (xs : BitString) (hop : c.op = .decode) (hrun : RunningInv c s) : ∃ q, walkBits xs c s = .ok q := by
  induction xs generalizing c s with
  | nil => exact ⟨_, rfl⟩
  | cons x xs ih =>
    obtain ⟨p, hbit⟩ := exists_walkBit x hop hrun
    obtain ⟨hop', hrun'⟩ := walkBit_inv hop hrun hbit
    rw [walkBits, hbit]
    exact ih hop' hrun'

theorem exists_countBeat (b : Byte) (c : Cur) (s : State) : ∃ q, countBeat b c s = .ok q := by
  rcases countBeat_cases b c s with ⟨_, h⟩ | ⟨_, _, h⟩ | ⟨_, _, h⟩ <;> exact ⟨_, h⟩

theorem exists_encodeBeat (b : Byte) (c : Cur) (s : State) : ∃ q, encodeBeat b c s = .ok q := by
  rcases encodeBeat_cases b c s with ⟨_, h⟩ | ⟨_, _, _, _, h, _⟩ | ⟨_, _, h⟩ <;> exact ⟨_, h⟩

theorem exists_countFinish (c : Cur) (s : State) : ∃ q, countFinish c s = .ok q := by
  rcases countFinish_cases c s with ⟨_, h⟩ | ⟨_, h⟩ <;> exact ⟨_, h⟩

theorem exists_encodeFinish (c : Cur) (s : State) : ∃ q, encodeFinish c s = .ok q := by
  rcases encodeFinish_cases c s with ⟨_, h⟩ | ⟨_, _, _, h, _⟩ <;> exact ⟨_, h⟩

/-- The command in progress makes a core step that has a meaning: BUILD_TREE has a symbol counted, BUILD_TABLE and DECODE a strict
tree, and the others never lack one. -/
theorem exec_running_ne_fault (f : Fault) (hcur : s.cur = some c) (hcount : CounterInv s) (hinv : PhaseInv s) :
    exec c.op s ≠ .fault f := by
  have hrun : RunningInv c s := (phaseInv_iff.mp hinv).2 c hcur
  cases hop : c.op
  case clear =>
    rw [show exec .clear s = _ from command_running hcur hop]
    exact coreStep_ne_fault f ⟨_, rfl⟩ fun _ _ => ⟨_, rfl⟩
  case count =>
    rw [show exec .count s = _ from command_running hcur hop]
    exact coreStep_ne_fault f (exists_countFinish c s) fun b _ => exists_countBeat b _ _
  case buildTree =>
    rw [show exec .buildTree s = _ from command_running hcur hop]
    obtain ⟨_, htotal⟩ := hrun.allowed_of_op hop
    obtain ⟨x, hx⟩ := exists_counted hcount htotal
    obtain ⟨q, hbody, _⟩ := exists_buildTreeBody c hx
    exact coreStep_ne_fault f ⟨q, hbody⟩ fun _ _ => ⟨_, rfl⟩
  case buildTable =>
    rw [show exec .buildTable s = _ from command_running hcur hop]
    obtain ⟨_, _, hwf, _⟩ := hrun.built (hrun.allowed_of_op hop)
    obtain ⟨code, hcode⟩ := exists_traverse hwf
    exact coreStep_ne_fault f ⟨_, by rw [buildTableBody, hcode]⟩ fun _ _ => ⟨_, rfl⟩
  case encode =>
    rw [show exec .encode s = _ from command_running hcur hop]
    exact coreStep_ne_fault f (exists_encodeFinish c s) fun b _ => exists_encodeBeat b _ _
  case decode =>
    rw [show exec .decode s = _ from command_running hcur hop]
    refine coreStep_ne_fault f ⟨_, rfl⟩ fun b rest => ?_
    exact exists_walkBits (c := { c with rem := c.rem - 1#32, first := false }) _ hop { hrun with }

end

/-! ### The step -/

/-- An issue never faults (40 R74). -/
theorem issueWord_ne_fault {w : Word} {s : State} (f : Fault) (h : s.cur = none) : issueWord w s ≠ .fault f := by
  rw [issueWord]
  split
  · obtain ⟨start, _, hexec⟩ := exec_idle _ h
    rw [hexec]
    nofun
  · nofun

/-- A write never faults: at most it issues a command (20 R48). -/
theorem busWrite_ne_fault {a : Addr} {n : AccessSize} {v : Word} {s : State} (f : Fault) : busWrite a n v s ≠ .fault f := by
  cases haccess : writeAccess a n s with
  | error e => rw [busWrite_error haccess]; nofun
  | ok r =>
    rw [busWrite_ok haccess]
    cases r
    case cmd =>
      refine issueWord_ne_fault f (not_not.mp fun hbusy => ?_)
      cases (writeAccess_busy (s := s) (access_of_writeAccess haccess) hbusy).symm.trans haccess
    all_goals nofun

/-- The core's turn faults only where the command in progress does (40 R76). -/
theorem coreTurn_ne_fault {s : State} (f : Fault) (hcount : CounterInv s) (hinv : PhaseInv s) : coreTurn s ≠ .fault f := by
  cases hcur : s.cur with
  | none => rw [coreTurn, hcur]; nofun
  | some c =>
    by_cases hhigh : s.rstN = true
    · rw [coreTurn_running hhigh hcur]
      exact exec_running_ne_fault f hcur hcount hinv
    · simp [coreTurn, hcur, hhigh]

/-- Settles O60: only a core step can fault, and it has a meaning wherever the invariant holds. -/
theorem invariantStatesNeverFault : Obligations.InvariantStatesNeverFault := by
  unfold Obligations.InvariantStatesNeverFault
  intro s f hcount hinv
  cases hhost : s.host with
  | nil => exact step_quiet hhost ▸ coreTurn_ne_fault f hcount hinv
  | cons m rest =>
    rw [step_move hhost]
    cases m
    case read a n => rw [hostMove]; split <;> nofun
    case write a n v =>
      rw [hostMove]
      split
      · exact busWrite_ne_fault f
      · nofun
    case withdraw => rw [hostMove]; split <;> nofun
    case core => exact coreTurn_ne_fault f { hcount with } { hinv with }
    all_goals nofun

end Sys2Proof.Machine
end

section
/-! PROOFS. Code lengths and the Kraft inequality: lengths that meet it stay so, at no more cost, when the two lightest weights
become one (42 R99). -/

namespace Sys2Proof.Machine

/-! ### The Kraft inequality -/

/-- Code lengths that meet the Kraft inequality, in units of the longest code or a longer one. -/
def Kraft (lengths : List Nat) : Prop := ∃ N, (∀ d ∈ lengths, d ≤ N) ∧ (lengths.map fun d => 2 ^ (N - d)).sum ≤ 2 ^ N

theorem Kraft.perm {k l : List Nat} (h : Kraft k) (hperm : k.Perm l) : Kraft l := by
  obtain ⟨N, hle, hsum⟩ := h
  exact ⟨N, fun d hd => hle d (hperm.mem_iff.mpr hd), (hperm.map fun d => 2 ^ (N - d)).sum_eq ▸ hsum⟩

/-- A set of non-empty words of which none begins another is uniquely decodable. -/
theorem uniquelyDecodable_of_prefixFree {S : Set BitString} (hne : [] ∉ S) (hfree : ∀ u ∈ S, ∀ v ∈ S, u <+: v → u = v) :
    InformationTheory.UniquelyDecodable S := by
  intro us vs hus hvs heq
  induction us generalizing vs with
  | nil =>
    cases vs with
    | nil => rfl
    | cons v vs =>
      obtain ⟨rfl, _⟩ := List.append_eq_nil_iff.mp heq.symm
      exact absurd (hvs [] List.mem_cons_self) hne
  | cons u us ih =>
    obtain ⟨hu, hus⟩ := List.forall_mem_cons.mp hus
    cases vs with
    | nil =>
      obtain ⟨rfl, _⟩ := List.append_eq_nil_iff.mp heq
      exact absurd hu hne
    | cons v vs =>
      obtain ⟨hv, hvs'⟩ := List.forall_mem_cons.mp hvs
      have hprefix : u <+: v ++ vs.flatten := ⟨us.flatten, heq⟩
      obtain rfl : u = v := by
        rcases List.prefix_or_prefix_of_prefix hprefix (List.prefix_append v _) with h | h
        · exact hfree u hu v hv h
        · exact (hfree v hv u hu h).symm
      exact congrArg (u :: ·) (ih vs hus hvs' (List.append_cancel_left heq))

/-- The lengths of a code of two symbols or more meet the Kraft inequality where no word begins another. -/
theorem kraft_of_prefixFree {xs : List Sym} {f : Sym → BitString} (hnodup : xs.Nodup) (htwo : 2 ≤ xs.length)
    (hfree : ∀ x ∈ xs, ∀ y ∈ xs, x ≠ y → ¬f x <+: f y) : Kraft (xs.map fun x => (f x).length) := by
  have hcode : InformationTheory.UniquelyDecodable ((xs.map f).toFinset : Set BitString) := by
    simp only [List.coe_toFinset]
    refine uniquelyDecodable_of_prefixFree (fun hnil => ?_) fun u hu v hv hprefix => ?_
    · obtain ⟨x, hx, hnil⟩ := List.mem_map.mp hnil
      obtain ⟨y, hy, hne⟩ := Finset.exists_mem_ne ((List.toFinset_card_of_nodup hnodup).symm ▸ htwo) x
      exact hfree x hx y (List.mem_toFinset.mp hy) hne.symm (hnil ▸ List.nil_prefix)
    · obtain ⟨x, hx, rfl⟩ := List.mem_map.mp hu
      obtain ⟨y, hy, rfl⟩ := List.mem_map.mp hv
      exact congrArg f (not_not.mp fun hne => hfree x hx y hy hne hprefix)
  have hinj : (xs.map f).Nodup := by
    refine hnodup.map_on fun x hx y hy heq => ?_
    by_contra hne
    exact hfree x hx y hy hne (heq ▸ List.prefix_rfl)
  have hkraft := InformationTheory.kraft_mcmillan_inequality hcode
  rw [List.sum_toFinset _ hinj, List.map_map] at hkraft
  have hle : ∀ d ∈ xs.map fun x => (f x).length, d ≤ (xs.map fun x => (f x).length).sum := fun d => List.le_sum_of_mem
  refine ⟨_, hle, ?_⟩
  generalize (xs.map fun x => (f x).length).sum = N at hle
  have hscale : ((((xs.map fun x => (f x).length).map fun d => 2 ^ (N - d)).sum : Nat) : ℝ) =
      2 ^ N * (xs.map fun x => (1 / 2 : ℝ) ^ (f x).length).sum := by
    rw [Nat.cast_list_sum, List.map_map, List.map_map, ← List.sum_map_mul_left]
    refine congrArg List.sum (List.map_congr_left fun x hx => ?_)
    simp [pow_sub₀ (2 : ℝ) two_ne_zero (hle _ (List.mem_map_of_mem hx))]
  have hunit : (2 : ℝ) ^ N * (xs.map fun x => (1 / 2 : ℝ) ^ (f x).length).sum ≤ 2 ^ N :=
    mul_le_of_le_one_right (by positivity) (by simpa [Function.comp_def] using hkraft)
  rw [← hscale] at hunit
  exact_mod_cast hunit

/-- The two longest codes leave room for one that is a bit shorter than the second in their place. -/
theorem Kraft.merge {k l : Nat} {ds : List Nat} (h : Kraft (k :: l :: ds)) (hlong : ∀ d ∈ ds, d ≤ l) :
    1 ≤ l ∧ Kraft ((l - 1) :: ds) := by
  obtain ⟨N, hle, hsum⟩ := h
  obtain ⟨_, hl, hds⟩ : k ≤ N ∧ l ≤ N ∧ ∀ d ∈ ds, d ≤ N := by simpa using hle
  have hrest : (ds.map fun d => 2 ^ (N - d)).sum = 2 ^ (N - l) * (ds.map fun d => 2 ^ (l - d)).sum := by
    rw [← List.sum_map_mul_left]
    refine congrArg List.sum (List.map_congr_left fun d hd => ?_)
    rw [← pow_add, Nat.sub_add_sub_cancel hl (hlong d hd)]
  have hunit : 2 ^ N = 2 ^ (N - l) * 2 ^ l := by rw [← pow_add, Nat.sub_add_cancel hl]
  rw [List.map_cons, List.map_cons, List.sum_cons, List.sum_cons, hrest, hunit] at hsum
  have hpos := Nat.two_pow_pos (N - k)
  have hroom : (ds.map fun d => 2 ^ (l - d)).sum + 1 < 2 ^ l :=
    Nat.lt_of_mul_lt_mul_left (a := 2 ^ (N - l)) (by rw [Nat.mul_add]; omega)
  have hone : 1 ≤ l := Nat.one_le_iff_ne_zero.mpr fun hzero => by
    rw [hzero] at hroom
    omega
  refine ⟨hone, N, List.forall_mem_cons.mpr ⟨by omega, hds⟩, ?_⟩
  have hdouble : 2 ^ (N - (l - 1)) = 2 ^ (N - l) * 2 := by rw [← pow_succ]; congr 1; omega
  rw [List.map_cons, List.sum_cons, hrest, hunit, hdouble, ← Nat.mul_add]
  exact Nat.mul_le_mul_left _ (by omega)

/-! ### Moving the longest code to the lightest weight -/

/-- The payload length of weights with code lengths. -/
def codeCost (ps : List (Nat × Nat)) : Nat := (ps.map fun p => p.1 * p.2).sum

theorem codeCost_cons (w d : Nat) (ps : List (Nat × Nat)) : codeCost ((w, d) :: ps) = w * d + codeCost ps := by
  rw [codeCost, List.map_cons, List.sum_cons, codeCost]

/-- Giving the longest code to the lightest weight costs no more. -/
theorem exists_longest_first {w : Nat} (d : Nat) {ps : List (Nat × Nat)} (hlight : ∀ p ∈ ps, w ≤ p.1) :
    ∃ m qs, qs.map Prod.fst = ps.map Prod.fst ∧ (m :: qs.map Prod.snd).Perm (d :: ps.map Prod.snd) ∧
      (∀ p ∈ qs, p.2 ≤ m) ∧ d ≤ m ∧ codeCost ((w, m) :: qs) ≤ codeCost ((w, d) :: ps) := by
  induction ps generalizing d with
  | nil => exact ⟨d, [], rfl, .rfl, nofun, le_rfl, le_rfl⟩
  | cons p ps ih =>
    obtain ⟨v, e⟩ := p
    obtain ⟨hv, hlight⟩ := List.forall_mem_cons.mp hlight
    obtain ⟨m, qs, hweights, hlengths, hlong, hm, hcost⟩ := ih (max d e) hlight
    refine ⟨m, (v, min d e) :: qs, by simp [hweights], ?_, ?_, by omega, ?_⟩
    · have hswap : [max d e, min d e].Perm [d, e] := by
        rcases le_total d e with h | h
        · simpa [h] using List.Perm.swap d e []
        · simp [h]
      exact (((List.Perm.swap ..).trans (hlengths.cons _)).trans (.swap ..)).trans (hswap.append_right _)
    · exact List.forall_mem_cons.mpr ⟨show min d e ≤ m by omega, hlong⟩
    · have hmove : w * max d e + v * min d e ≤ w * d + v * e := by
        rcases le_total d e with h | h
        · simpa [h] using mul_add_mul_le_mul_add_mul hv h
        · simp [h]
      simp only [codeCost_cons] at hcost ⊢
      omega

/-- The two lightest weights merge into one: lengths for the merged weights cost less by the weight of the new one. -/
theorem exists_merged_lengths {u v d e : Nat} {ps : List (Nat × Nat)} (huv : u ≤ v) (hu : ∀ p ∈ ps, u ≤ p.1)
    (hv : ∀ p ∈ ps, v ≤ p.1) (hkraft : Kraft (d :: e :: ps.map Prod.snd)) :
    ∃ m qs, qs.map Prod.fst = ps.map Prod.fst ∧ Kraft (m :: qs.map Prod.snd) ∧
      codeCost ((u + v, m) :: qs) + (u + v) ≤ codeCost ((u, d) :: (v, e) :: ps) := by
  obtain ⟨k, qs, hfirst, hlengths, hlong, _, hcost⟩ :=
    exists_longest_first (w := u) d (ps := (v, e) :: ps) (List.forall_mem_cons.mpr ⟨huv, hu⟩)
  obtain ⟨⟨v', e'⟩, qs, rfl, hv', hweights⟩ := List.map_eq_cons_iff.mp hfirst
  obtain rfl : v' = v := hv'
  have hlight : ∀ p ∈ qs, v' ≤ p.1 := by
    intro p hp
    have hmem : p.1 ∈ ps.map Prod.fst := hweights ▸ List.mem_map_of_mem hp
    obtain ⟨p', hp', heq⟩ := List.mem_map.mp hmem
    exact heq ▸ hv p' hp'
  obtain ⟨l, rs, hweights', hlengths', hlong', _, hcost'⟩ := exists_longest_first e' hlight
  have hlk : l ≤ k := by
    have hmem : l ∈ e' :: qs.map Prod.snd := hlengths'.mem_iff.mp List.mem_cons_self
    obtain ⟨p, hp, rfl⟩ := List.mem_map.mp (show l ∈ ((v', e') :: qs).map Prod.snd from hmem)
    exact hlong p hp
  obtain ⟨hl, hmerged⟩ := (hkraft.perm (hlengths.symm.trans (hlengths'.symm.cons k))).merge (ds := rs.map Prod.snd)
    fun d hd => by obtain ⟨p, hp, rfl⟩ := List.mem_map.mp hd; exact hlong' p hp
  refine ⟨l - 1, rs, hweights'.trans hweights, hmerged, ?_⟩
  simp only [codeCost_cons] at hcost hcost' ⊢
  have hroot : (u + v') * (l - 1) + (u + v') = u * l + v' * l := by
    obtain ⟨l, rfl⟩ := Nat.exists_eq_add_of_le' hl
    rw [Nat.add_sub_cancel]
    ring
  have := Nat.mul_le_mul_left u hlk
  omega

end Sys2Proof.Machine
end

section
/-! PROOFS. The merge takes the two lightest nodes each time, and its tree costs no more than any code of which no word begins
another (42 R99). -/

namespace Sys2Proof.Machine

/-! ### The queues stay sorted -/

/-- Both queues are sorted by weight; no weight in them is below `m`, and none in the target queue above `2 m`. -/
structure Ordered (t : Nodes) (l m : Nat) (q : MergeState) : Prop where
  source : (List.range' q.sh (l - q.sh)).Pairwise fun i j => nodeWeight t i ≤ nodeWeight t j
  target : q.tgt.Pairwise fun i j => nodeWeight t i ≤ nodeWeight t j
  least : ∀ n ∈ available l q, m ≤ nodeWeight t n
  most : ∀ n ∈ q.tgt, nodeWeight t n ≤ 2 * m

section
variable {es : List (Sym × Word)} {k a b l m : Nat} {q q' q1 q2 : MergeState} {t : Nodes}

theorem Ordered.source_head_le {n : Nat} (h : Ordered t l m q) (hn : n ∈ List.range' q.sh (l - q.sh)) :
    nodeWeight t q.sh ≤ nodeWeight t n := by
  have hmore : q.sh < l := by
    have := List.mem_range'_1.mp hn
    omega
  have hsource := h.source
  rw [range'_head hmore] at hsource hn
  rcases List.mem_cons.mp hn with rfl | hn
  · exact le_rfl
  · exact (List.pairwise_cons.mp hsource).1 n hn

theorem Ordered.target_head_le {n : Nat} {ts : List Nat} (h : Ordered t l m q) (htgt : q.tgt = a :: ts) (hn : n ∈ q.tgt) :
    nodeWeight t a ≤ nodeWeight t n := by
  have htarget := h.target
  rw [htgt] at htarget hn
  rcases List.mem_cons.mp hn with rfl | hn
  · exact le_rfl
  · exact (List.pairwise_cons.mp htarget).1 n hn

/-- From sorted queues `dq` takes the lightest node (42 R94). -/
theorem Ordered.le_of_dq (h : Ordered t l m q) (hdq : dq l q = (some a, q')) (hkeep : KeepsNodes t q)
    (hmade : ∀ n ∈ available l q, n < q.nxt) : ∀ n ∈ available l q, nodeWeight t a ≤ nodeWeight t n := by
  have hweight (n : Nat) (hn : n ∈ available l q) : (weightAt q.node n).toNat = nodeWeight t n :=
    congrArg BitVec.toNat (hkeep.weight (hmade n hn)).symm
  have hsource (hmore : q.sh < l) : q.sh ∈ available l q :=
    List.mem_append_left _ (List.mem_range'_1.mpr (by omega))
  have htarget {t' : Nat} {ts : List Nat} (htgt : q.tgt = t' :: ts) : t' ∈ available l q :=
    List.mem_append_right _ (htgt ▸ List.mem_cons_self)
  intro n hn
  rcases dq_some_cases hdq with ⟨hmore, rfl, _, hhead⟩ | ⟨ts, htgt, _, hlighter⟩
  · rcases List.mem_append.mp hn with hn | hn
    · exact h.source_head_le hn
    · obtain ⟨t', ts, htgt⟩ := List.exists_cons_of_ne_nil (List.ne_nil_of_mem hn)
      have hle := hhead t' ts htgt
      rw [hweight _ (hsource hmore), hweight _ (htarget htgt)] at hle
      exact hle.trans (h.target_head_le htgt hn)
  · rcases List.mem_append.mp hn with hn | hn
    · have hmore : q.sh < l := by
        have := List.mem_range'_1.mp hn
        omega
      have hlt := hlighter hmore
      rw [hweight _ (hsource hmore), hweight _ (htarget htgt)] at hlt
      exact hlt.le.trans (h.source_head_le hn)
    · exact h.target_head_le htgt hn

/-- A taking leaves the queues sorted. -/
theorem Ordered.take (h : Ordered t l m q) (hdq : dq l q = (some a, q')) : Ordered t l m q' := by
  have hleast : ∀ n ∈ available l q', m ≤ nodeWeight t n := fun n hn =>
    h.least n ((available_dq hdq).mem_iff.mpr (List.mem_cons_of_mem a hn))
  obtain ⟨hsource, htarget, _, hmost⟩ := h
  rcases dq_some_cases hdq with ⟨hmore, rfl, rfl, _⟩ | ⟨ts, htgt, rfl, _⟩
  · rw [range'_head hmore] at hsource
    exact ⟨hsource.of_cons, htarget, hleast, hmost⟩
  · rw [htgt] at htarget hmost
    exact ⟨hsource, htarget.of_cons, hleast, fun n hn => hmost n (List.mem_cons_of_mem a hn)⟩

/-- A merge takes the two lightest nodes (42 R96). -/
theorem MergeRun.two_lightest (h : MergeRun es k q) (first : dq es.length q = (some a, q1))
    (second : dq es.length q1 = (some b, q2)) (hkeep : KeepsNodes t q) (hord : Ordered t es.length m q) :
    Ordered t es.length m q2 ∧ m ≤ nodeWeight t a ∧ nodeWeight t a ≤ nodeWeight t b ∧
      ∀ n ∈ available es.length q2, nodeWeight t b ≤ nodeWeight t n := by
  have hqueues := h.queues.1
  have hqueues1 := (hqueues.take first).1
  have hord1 := hord.take first
  have hfirst := available_dq first
  have hsecond := available_dq second
  have hb : b ∈ available es.length q1 := hsecond.mem_iff.mpr List.mem_cons_self
  refine ⟨hord1.take second, hord.least a (hfirst.mem_iff.mpr List.mem_cons_self), ?_, fun n hn => ?_⟩
  · exact hord.le_of_dq first hkeep (fun n hn => hqueues.lt_nxt hn) b (hfirst.mem_iff.mpr (List.mem_cons_of_mem a hb))
  · exact hord1.le_of_dq second ((keepsNodes_dq_iff first).mpr hkeep) (fun n hn => hqueues1.lt_nxt hn) n
      (hsecond.mem_iff.mpr (List.mem_cons_of_mem b hn))

/-- The node that merges the two lightest is no lighter than the nodes made before it, so the target queue stays sorted. -/
theorem Ordered.merge (h : Ordered t l m q) (hm : m ≤ nodeWeight t a) (hab : nodeWeight t a ≤ nodeWeight t b)
    (hb : ∀ n ∈ available l q, nodeWeight t b ≤ nodeWeight t n)
    (hnew : nodeWeight t q.nxt = nodeWeight t a + nodeWeight t b) :
    Ordered t l (nodeWeight t b) (mergeNodes a b q) := by
  have hold : ∀ n ∈ q.tgt, nodeWeight t n ≤ nodeWeight t q.nxt := fun n hn => by
    have := h.most n hn
    omega
  refine ⟨h.source, ?_, ?_, ?_⟩
  · exact List.pairwise_append.mpr ⟨h.target, List.pairwise_singleton _ _, by simpa using hold⟩
  · rw [show available l (mergeNodes a b q) = available l q ++ [q.nxt] from available_push l q.nxt q]
    exact List.forall_mem_append.mpr ⟨hb, by simp; omega⟩
  · have hnext : nodeWeight t q.nxt ≤ 2 * nodeWeight t b := by omega
    exact List.forall_mem_append.mpr ⟨fun n hn => (hold n hn).trans hnext, by simpa using hnext⟩

/-- The queues are sorted after every merge of a sorted list (42 R91, R94). -/
theorem MergeRun.ordered (h : MergeRun es k q) (hmany : es.length ≤ 128) (hkeep : KeepsNodes t q)
    (htotal : (es.map fun e => e.2.toNat).sum < 2 ^ 32) (hsorted : es.Pairwise fun e e' => e.2.toNat ≤ e'.2.toNat) :
    ∃ m, Ordered t es.length m q := by
  induction h with
  | start =>
    refine ⟨0, ?_, .nil, fun _ _ => Nat.zero_le _, nofun⟩
    have hleaves : ((List.range' 0 es.length).map (nodeWeight t)).Pairwise (· ≤ ·) := by
      rw [MergeRun.start.leafWeights hmany hkeep]
      exact List.pairwise_map.mpr hsorted
    exact List.pairwise_map.mp hleaves
  | @merge k a b q q1 q2 run first second ih =>
    have hmerged := run.mergedIn first second hmany hkeep
    obtain ⟨m, hord⟩ := ih hmerged.keeps
    obtain ⟨hord2, hm, hab, hb⟩ := run.two_lightest first second hmerged.keeps hord
    have hsum := run.weight_sum hmany hmerged.keeps htotal
    exact ⟨_, hord2.merge hm hab hb (hmerged.nxt ▸ hmerged.weight (hsum.trans_lt htotal))⟩

/-! ### The cost of the merges -/

/-- The nodes in the queues have code lengths that meet the Kraft inequality and whose cost, with the weights of the `k` nodes made
so far, is at most `cost`. -/
def Affordable (t : Nodes) (l k cost : Nat) (q : MergeState) : Prop :=
  ∃ ps : List (Nat × Nat), (ps.map Prod.fst).Perm ((available l q).map (nodeWeight t)) ∧ Kraft (ps.map Prod.snd) ∧
    codeCost ps + ((List.range' l k).map (nodeWeight t)).sum ≤ cost

/-- A merge of the two lightest nodes stays within the cost. -/
theorem MergedIn.affordable {cost : Nat} (h : MergedIn t l a b q q2) (hnxt : q.nxt = l + k)
    (hnew : nodeWeight t q.nxt = nodeWeight t a + nodeWeight t b) (hab : nodeWeight t a ≤ nodeWeight t b)
    (hb : ∀ n ∈ available l q2, nodeWeight t b ≤ nodeWeight t n) (hcost : Affordable t l k cost q) :
    Affordable t l (k + 1) cost (mergeNodes a b q2) := by
  obtain ⟨ps, hweights, hkraft, hcost⟩ := hcost
  obtain ⟨⟨_, d⟩, ps1, hps, rfl, hweights⟩ := exists_perm_cons_of_map_perm (hweights.trans (h.taken.map _))
  obtain ⟨⟨_, e⟩, ps2, hps1, rfl, hweights⟩ := exists_perm_cons_of_map_perm hweights
  have hps2 : ps.Perm ((nodeWeight t a, d) :: (nodeWeight t b, e) :: ps2) := hps.trans (hps1.cons _)
  have hlight : ∀ p ∈ ps2, nodeWeight t b ≤ p.1 := by
    intro p hp
    obtain ⟨n, hn, heq⟩ := List.mem_map.mp (hweights.mem_iff.mp (List.mem_map_of_mem hp))
    exact heq ▸ hb n hn
  obtain ⟨m, qs, hfst, hkraft', hcost'⟩ := exists_merged_lengths (d := d) (e := e) hab (fun p hp => hab.trans (hlight p hp)) hlight
    (hkraft.perm (hps2.map Prod.snd))
  refine ⟨(nodeWeight t a + nodeWeight t b, m) :: qs, ?_, hkraft', ?_⟩
  · rw [h.available_eq, List.map_append, List.map_cons, List.map_cons, hfst, ← hnew]
    exact (hweights.cons _).trans (List.perm_append_singleton ..).symm
  · have hsame : codeCost ps = codeCost ((nodeWeight t a, d) :: (nodeWeight t b, e) :: ps2) := (hps2.map _).sum_eq
    rw [List.range'_concat, List.map_append, List.sum_append, List.map_singleton, List.sum_singleton, Nat.one_mul, ← hnxt, hnew]
    omega

/-- The nodes made by the whole run weigh no more than the payload under code lengths that meet the Kraft inequality. -/
theorem MergeRun.affordable (h : MergeRun es k q) (hmany : es.length ≤ 128) (hkeep : KeepsNodes t q)
    (htotal : (es.map fun e => e.2.toNat).sum < 2 ^ 32) (hsorted : es.Pairwise fun e e' => e.2.toNat ≤ e'.2.toNat)
    (d : Sym → Nat) (hkraft : Kraft (es.map fun e => d e.1)) :
    Affordable t es.length k (es.map fun e => e.2.toNat * d e.1).sum q := by
  induction h with
  | start =>
    refine ⟨es.map fun e => (e.2.toNat, d e.1), ?_, by simpa [Function.comp_def] using hkraft, ?_⟩
    · rw [show available es.length (mergeStart es) = List.range' 0 es.length from List.append_nil _,
        MergeRun.start.leafWeights hmany hkeep]
      simp [Function.comp_def]
    · simp [codeCost, Function.comp_def]
  | @merge k a b q q1 q2 run first second ih =>
    have hmerged := run.mergedIn first second hmany hkeep
    obtain ⟨m, hord⟩ := run.ordered hmany hmerged.keeps htotal hsorted
    obtain ⟨_, _, hab, hb⟩ := run.two_lightest first second hmerged.keeps hord
    have hsum := run.weight_sum hmany hmerged.keeps htotal
    exact hmerged.affordable run.queues.1.nxt (hmerged.weight (hsum.trans_lt htotal)) hab hb (ih hmerged.keeps)

end

/-! ### The payload of a tree -/

namespace NodeTree

/-- The indices of the internal nodes. -/
def inners : NodeTree → List NodeIx
  | leaf _ _ => []
  | inner n l r => n :: (l.inners ++ r.inners)

theorem inners_sublist (T : NodeTree) : T.inners.Sublist T.indices := by
  induction T with
  | leaf n x => exact List.nil_sublist _
  | inner n l r ihl ihr => exact (ihl.append ihr).cons_cons n

/-- Each leaf weighs what its symbol does, and each internal node what its children do. -/
def Weighs (w : NodeIx → Nat) (c : Sym → Nat) : NodeTree → Prop
  | leaf n x => w n = c x
  | inner n l r => w n = w l.index + w r.index ∧ l.Weighs w c ∧ r.Weighs w c

/-- The depths of the leaves, each counted with its weight, sum to the weights of the internal nodes (43 R105). -/
theorem sum_leafPaths {w : NodeIx → Nat} {c : Sym → Nat} {T : NodeTree} (h : T.Weighs w c) (p : BitString) :
    ((T.leafPaths p).map fun e => c e.2 * e.1.length).sum = p.length * w T.index + (T.inners.map w).sum := by
  induction T generalizing p with
  | leaf n x =>
    have hleaf : w n = c x := h
    simp [leafPaths, index, inners, hleaf, Nat.mul_comm]
  | inner n l r ihl ihr =>
    obtain ⟨hroot, hl, hr⟩ := h
    simp only [leafPaths, index, inners, List.map_append, List.map_cons, List.sum_append, List.sum_cons, ihl hl, ihr hr,
      List.length_append, List.length_singleton, hroot]
    ring

end NodeTree

/-- A code written where there was none adds its length to the payload, once for each count (43 R105). -/
theorem payloadLength_writeCode (freq : Vector Word 128) {code : Vector CodeEntry 128} {e : BitString × Sym}
    (hshort : e.1.length ≤ 127) (hempty : codeAt code e.2 = zeroCode) :
    payloadLength freq (writeCode code e) = payloadLength freq code + (freqAt freq e.2).toNat * e.1.length := by
  have hlen : (entryOf e.1).len.toNat = e.1.length := by
    rw [entryOf, BitVec.toNat_ofNat]
    exact Nat.mod_eq_of_lt (by omega)
  have hothers : (symbols.erase e.2).map (fun x => (freqAt freq x).toNat * (codeAt (writeCode code e) x).len.toNat) =
      (symbols.erase e.2).map fun x => (freqAt freq x).toNat * (codeAt code x).len.toNat := by
    refine List.map_congr_left fun x hx => ?_
    rw [codeAt_writeCode, if_neg (symbols_nodup.mem_erase_iff.mp hx).1]
  rw [payloadLength, payloadLength, sum_symbols_eq _ e.2, sum_symbols_eq _ e.2, hothers, codeAt_writeCode, if_pos rfl, hlen,
    hempty, show zeroCode.len.toNat = 0 from rfl, Nat.mul_zero, Nat.zero_add, Nat.add_comm]

/-- The payload under a table written from codes of distinct symbols (43 R105). -/
theorem payloadLength_foldl (freq : Vector Word 128) {es : List (BitString × Sym)} {code : Vector CodeEntry 128}
    (hshort : ∀ e ∈ es, e.1.length ≤ 127) (hnodup : (es.map Prod.snd).Nodup) (hempty : ∀ e ∈ es, codeAt code e.2 = zeroCode) :
    payloadLength freq (es.foldl writeCode code) =
      payloadLength freq code + (es.map fun e => (freqAt freq e.2).toNat * e.1.length).sum := by
  induction es generalizing code with
  | nil => exact (Nat.add_zero _).symm
  | cons e es ih =>
    obtain ⟨hhead, hshort⟩ := List.forall_mem_cons.mp hshort
    obtain ⟨hnew, hnodup⟩ := List.nodup_cons.mp hnodup
    obtain ⟨hfree, hempty⟩ := List.forall_mem_cons.mp hempty
    have hstill : ∀ e' ∈ es, codeAt (writeCode code e) e'.2 = zeroCode := by
      intro e' he'
      have hne : e'.2 ≠ e.2 := fun heq => hnew (heq ▸ List.mem_map_of_mem he')
      rw [codeAt_writeCode, if_neg hne, hempty e' he']
    rw [List.foldl_cons, ih hshort hnodup hstill, payloadLength_writeCode freq hhead hfree, List.map_cons, List.sum_cons,
      Nat.add_assoc]

theorem payloadLength_empty (freq : Vector Word 128) : payloadLength freq (Vector.replicate 128 zeroCode) = 0 := by
  refine List.sum_eq_zero fun n hn => ?_
  obtain ⟨x, _, rfl⟩ := List.mem_map.mp hn
  rw [codeAt, Vector.getElem_replicate, show zeroCode.len.toNat = 0 from rfl, Nat.mul_zero]

/-- The payload under the table of a tree is the weight of its internal nodes (43 R105). -/
theorem payloadLength_codeTable {freq : Vector Word 128} {T : NodeTree} {t : Nodes} {nn : NodeIx} {w : NodeIx → Nat}
    (hfits : T.Fits t nn) (hsyms : T.syms.Nodup) (hweighs : T.Weighs w fun x => (freqAt freq x).toNat) :
    payloadLength freq T.codeTable = (T.inners.map w).sum := by
  rw [NodeTree.codeTable, payloadLength_foldl freq (fun e he => hfits.leafPaths_length_le he) (T.leafPaths_snd [] ▸ hsyms)
    fun e _ => Vector.getElem_replicate _, NodeTree.sum_leafPaths hweighs, payloadLength_empty]
  simp

section
variable {es : List (Sym × Word)} {k : Nat} {q : MergeState} {t : Nodes} {c : Sym → Nat}

/-- A tree of the nodes made has the weights of the array, its internal nodes being the nodes that the merges made. -/
theorem MergeRun.weighs (h : MergeRun es k q) (hmany : es.length ≤ 128) (hkeep : KeepsNodes t q)
    (htotal : (es.map fun e => e.2.toNat).sum < 2 ^ 32) (hc : ∀ e ∈ es, e.2.toNat = c e.1) {T : NodeTree}
    (hstands : T.StandsIn t) (hbelow : ∀ n ∈ T.indices, n.toNat < es.length + k) :
    T.Weighs (fun n => nodeWeight t n.toNat) c ∧ ∀ n ∈ T.inners, es.length ≤ n.toNat := by
  induction T with
  | leaf n x =>
    obtain ⟨r, hr, _, hleaf, rfl, _⟩ := hstands
    refine ⟨?_, nofun⟩
    by_cases hn : n.toNat < es.length
    · have hrec := h.leaf hmany hkeep hn
      obtain rfl : r = leafOf es[n.toNat] := Option.some.inj (hr.symm.trans hrec)
      exact (congrArg BitVec.toNat (weightAt_of_getElem? hrec)).trans (hc _ (List.getElem_mem hn))
    · obtain ⟨a, b, _, _, hrec, _⟩ :=
        h.exists_children hmany hkeep htotal (by omega) (hbelow n List.mem_cons_self)
      obtain rfl : r = mergedNode t a b := Option.some.inj (hr.symm.trans hrec)
      cases hleaf
  | inner n l r ihl ihr =>
    obtain ⟨⟨rec, hrec, _, hinner, hleft, hright⟩, hl, hr⟩ := hstands
    obtain ⟨hn, hbelow⟩ := List.forall_mem_cons.mp hbelow
    obtain ⟨hbelowl, hbelowr⟩ := List.forall_mem_append.mp hbelow
    obtain ⟨hwl, hil⟩ := ihl hl hbelowl
    obtain ⟨hwr, hir⟩ := ihr hr hbelowr
    by_cases hlow : n.toNat < es.length
    · obtain rfl : rec = leafOf es[n.toNat] := Option.some.inj (hrec.symm.trans (h.leaf hmany hkeep hlow))
      cases hinner
    · obtain ⟨a, b, ha, hb, hnode, hweight⟩ := h.exists_children hmany hkeep htotal (Nat.not_lt.mp hlow) hn
      obtain rfl : rec = mergedNode t a b := Option.some.inj (hrec.symm.trans hnode)
      have := n.isLt
      obtain rfl : l.index.toNat = a := by rw [← hleft, mergedNode, BitVec.toNat_ofNat]; omega
      obtain rfl : r.index.toNat = b := by rw [← hright, mergedNode, BitVec.toNat_ofNat]; omega
      exact ⟨⟨hweight, hwl, hwr⟩, List.forall_mem_cons.mpr ⟨Nat.not_lt.mp hlow, List.forall_mem_append.mpr ⟨hil, hir⟩⟩⟩

end

/-- A sum over distinct indices of a range is at most that over the range. -/
theorem sum_le_sum_range' {l : List NodeIx} {i k : Nat} (f : Nat → Nat) (hnodup : l.Nodup)
    (hrange : ∀ n ∈ l, i ≤ n.toNat ∧ n.toNat < i + k) :
    (l.map fun n => f n.toNat).sum ≤ ((List.range' i k).map f).sum := by
  have hsubset : l.map BitVec.toNat ⊆ List.range' i k := by
    intro j hj
    obtain ⟨n, hn, rfl⟩ := List.mem_map.mp hj
    exact List.mem_range'_1.mpr (hrange n hn)
  obtain ⟨l', hperm, hsub⟩ := (hnodup.map fun _ _ => BitVec.eq_of_toNat_eq).subperm hsubset
  calc (l.map fun n => f n.toNat).sum
      = ((l.map BitVec.toNat).map f).sum := by rw [List.map_map]; rfl
    _ = (l'.map f).sum := (hperm.map f).sum_eq.symm
    _ ≤ ((List.range' i k).map f).sum := (hsub.map f).sum_le_sum fun _ _ => Nat.zero_le _

/-! ### The two-queue tree -/

section
variable {es : List (Sym × Word)} {c : Sym → Nat}

/-- The tree below the root fits the array, and its leaves have the listed symbols (42 R98). -/
theorem twoQueue_fits {r : Nat} (hsome : 2 ≤ es.length) (hmany : es.length ≤ 128) (htgt : (twoQueue es).tgt = [r]) :
    ∃ T : NodeTree, T.index = BitVec.ofNat 8 r ∧ T.Fits (twoQueue es).node (BitVec.ofNat 8 (2 * es.length - 1)) ∧
      T.syms.Perm (es.map Prod.fst) := by
  obtain ⟨T, rfl, _, hstands, hnodup, hbelow, hperm, _⟩ := twoQueue_tree hmany htgt
  obtain ⟨_, hnxt, _⟩ := twoQueue_root hsome
  rw [List.flatMap_singleton] at hnodup hbelow hperm
  refine ⟨T, by simp, ⟨hstands T List.mem_cons_self, hnodup, fun n hn => ?_⟩, hperm⟩
  have := hbelow n hn
  rw [BitVec.toNat_ofNat]
  omega

/-- The tree has the weights of the array, and its internal nodes weigh no more than the nodes made (42 R98). -/
theorem twoQueue_weighs {T : NodeTree} (hsome : 2 ≤ es.length) (hmany : es.length ≤ 128)
    (htotal : (es.map fun e => e.2.toNat).sum < 2 ^ 32) (hc : ∀ e ∈ es, e.2.toNat = c e.1)
    (hfits : T.Fits (twoQueue es).node (BitVec.ofNat 8 (2 * es.length - 1))) :
    T.Weighs (fun n => nodeWeight (twoQueue es).node n.toNat) c ∧
      (T.inners.map fun n => nodeWeight (twoQueue es).node n.toNat).sum ≤
        ((List.range' es.length (es.length - 1)).map (nodeWeight (twoQueue es).node)).sum := by
  have hbelow : ∀ n ∈ T.indices, n.toNat < es.length + (es.length - 1) := fun n hn => by
    have := hfits.below n hn
    rw [BitVec.toNat_ofNat] at this
    omega
  obtain ⟨hweighs, hinners⟩ := (twoQueue_run hsome).weighs hmany (fun _ _ => rfl) htotal hc hfits.standsIn hbelow
  exact ⟨hweighs, sum_le_sum_range' _ (T.inners_sublist.nodup hfits.nodup) fun n hn =>
    ⟨hinners n hn, hbelow n (T.inners_sublist.subset hn)⟩⟩

end

/-! ### The statement -/

section
variable {freq : Vector Word 128} {x y : Sym}

/-- With two symbols counted no symbol is injected: the list has the counted symbols with their counts (42 R90). -/
theorem counted_of_mem_frequencyList (hxy : x ≠ y) (hx : freqAt freq x ≠ 0#32) (hy : freqAt freq y ≠ 0#32) {e : Sym × Word}
    (he : e ∈ frequencyList freq) : e.2 = freqAt freq e.1 ∧ freqAt freq e.1 ≠ 0#32 := by
  obtain ⟨z, n⟩ := e
  rcases mem_frequencyList.mp he with ⟨rfl, hz⟩ | ⟨_, x0, _, _, hothers⟩
  · exact ⟨rfl, hz⟩
  · have hx0 : x = x0 := not_not.mp fun hne => hx (hothers x hne)
    have hy0 : y = x0 := not_not.mp fun hne => hy (hothers y hne)
    exact absurd (hx0.trans hy0.symm) hxy

/-- The lengths of `f` on the listed symbols meet the Kraft inequality. -/
theorem frequencyList_kraft {f : Sym → BitString} (hsome : 2 ≤ (frequencyList freq).length)
    (hcounted : ∀ e ∈ frequencyList freq, freqAt freq e.1 ≠ 0#32)
    (hfree : ∀ x y, freqAt freq x ≠ 0#32 → freqAt freq y ≠ 0#32 → x ≠ y → ¬f x <+: f y) :
    Kraft ((frequencyList freq).map fun e => (f e.1).length) := by
  have hmem (z : Sym) (hz : z ∈ (frequencyList freq).map Prod.fst) : freqAt freq z ≠ 0#32 := by
    obtain ⟨e, he, rfl⟩ := List.mem_map.mp hz
    exact hcounted e he
  simpa [Function.comp_def] using kraft_of_prefixFree (frequencyList_fst_nodup freq) (by simpa using hsome)
    fun x hx y hy => hfree x y (hmem x hx) (hmem y hy)

end

/-- Settles O29: the payload is the weight of the nodes made; each merge takes the two lightest nodes, so the lengths of `f`, which
meet the Kraft inequality, can be carried through the merges at no more cost. -/
theorem bitlenIsLeast : Obligations.BitlenIsLeast := by
  unfold Obligations.BitlenIsLeast
  rintro freq r code f hsum ⟨x, y, hxy, hx, hy⟩ htgt htraverse hfree
  obtain ⟨hsome, hmany⟩ := frequencyList_length hx
  have hcounted : ∀ e ∈ frequencyList freq, _ := fun e => counted_of_mem_frequencyList hxy hx hy
  have htotal : ((frequencyList freq).map fun e => e.2.toNat).sum < 2 ^ 32 := (frequencyList_total freq).trans_lt hsum
  obtain ⟨T, hroot, hfits, hperm⟩ := twoQueue_fits hsome hmany htgt
  obtain rfl : T.codeTable = code := Except.ok.inj (hfits.traverse_eq.symm.trans (hroot ▸ htraverse))
  obtain ⟨hweighs, hinners⟩ := twoQueue_weighs hsome hmany htotal (c := fun x => (freqAt freq x).toNat)
    (fun e he => congrArg BitVec.toNat (hcounted e he).1) hfits
  have hsorted : (frequencyList freq).Pairwise fun e e' => e.2.toNat ≤ e'.2.toNat :=
    (frequencyList_sorted freq).imp fun h => h.elim le_of_lt fun h => (congrArg BitVec.toNat h.1).le
  obtain ⟨ps, _, _, hcost⟩ := (twoQueue_run hsome).affordable hmany (fun _ _ => rfl) htotal hsorted (fun x => (f x).length)
    (frequencyList_kraft hsome (fun e he => (hcounted e he).2) hfree)
  have hsyms : T.syms.Nodup := hperm.nodup_iff.mpr (frequencyList_fst_nodup freq)
  rw [payloadLength_codeTable hfits hsyms hweighs, ← sum_frequencyList freq fun x => (f x).length]
  omega

end Sys2Proof.Machine
end

section
/-! PROOFS. The table of a strict tree: each code is the path to its leaf, no code begins another, and together they leave no room
for one more; BUILD_TABLE writes that table (43 R101 to R106). -/

namespace Sys2Proof.Machine

/-! ### The paths to the leaves -/

namespace NodeTree

/-- The leaves' paths are the paths that lead to leaves (43 R102). -/
theorem mem_leafPaths_iff {T : NodeTree} {p : BitString} {e : BitString × Sym} :
    e ∈ T.leafPaths p ↔ ∃ q n, p ++ q = e.1 ∧ T.sub q = some (leaf n e.2) := by
  induction T generalizing p with
  | leaf n x =>
    constructor
    · intro he
      obtain rfl := List.mem_singleton.mp he
      exact ⟨[], n, List.append_nil p, rfl⟩
    · rintro ⟨_ | ⟨y, q⟩, m, hpath, hsub⟩
      · cases hsub
        exact List.mem_singleton.mpr (Prod.ext (hpath.symm.trans (List.append_nil p)) rfl)
      · cases hsub
  | inner n l r ihl ihr =>
    rw [leafPaths, List.mem_append, ihl, ihr]
    constructor
    · rintro (⟨q, m, hpath, hsub⟩ | ⟨q, m, hpath, hsub⟩)
      · exact ⟨false :: q, m, by simpa using hpath, hsub⟩
      · exact ⟨true :: q, m, by simpa using hpath, hsub⟩
    · rintro ⟨_ | ⟨y, q⟩, m, hpath, hsub⟩
      · cases hsub
      · cases y
        · exact .inl ⟨q, m, by simpa using hpath, hsub⟩
        · exact .inr ⟨q, m, by simpa using hpath, hsub⟩

/-- The leaf paths of the array are those of the tree that stands in it. -/
theorem leafPath_iff {t : Nodes} {T : NodeTree} {p : BitString} {x : Sym} (h : T.StandsIn t) :
    LeafPath t T.index p x ↔ (p, x) ∈ T.leafPaths [] := by
  rw [mem_leafPaths_iff]
  constructor
  · intro hp
    obtain ⟨n, hn⟩ := sub_of_leafPath h hp
    exact ⟨p, n, rfl, hn⟩
  · rintro ⟨q, n, rfl, hn⟩
    obtain ⟨r, hr, _, hleaf, hsym, _⟩ := h.sub hn
    exact ⟨n, r, by rw [List.nil_append, descend_index h, hn]; rfl, hr, hleaf, hsym⟩

theorem isPrefix_of_mem_leafPaths {T : NodeTree} {p : BitString} {e : BitString × Sym} (he : e ∈ T.leafPaths p) : p <+: e.1 := by
  obtain ⟨q, _, hpath, _⟩ := mem_leafPaths_iff.mp he
  exact ⟨q, hpath⟩

/-- No path to a leaf below one edge begins a path below the other (43 R106). -/
theorem not_prefix_of_edge_ne {l r : NodeTree} {p : BitString} {x y : Bool} {a b : BitString × Sym} (hxy : x ≠ y)
    (ha : a ∈ l.leafPaths (p ++ [x])) (hb : b ∈ r.leafPaths (p ++ [y])) : ¬a.1 <+: b.1 := by
  intro hab
  have hedges : p ++ [x] <+: p ++ [y] :=
    List.prefix_of_prefix_length_le ((isPrefix_of_mem_leafPaths ha).trans hab) (isPrefix_of_mem_leafPaths hb) (by simp)
  exact hxy (by simpa using hedges.eq_of_length (by simp))

/-- No path to a leaf begins the path to another (43 R106). -/
theorem leafPaths_eq_of_prefix {T : NodeTree} {p : BitString} {a b : BitString × Sym} (ha : a ∈ T.leafPaths p)
    (hb : b ∈ T.leafPaths p) (hab : a.1 <+: b.1) : a = b := by
  induction T generalizing p with
  | leaf n x => exact (List.mem_singleton.mp ha).trans (List.mem_singleton.mp hb).symm
  | inner n l r ihl ihr =>
    rcases List.mem_append.mp ha with hal | har <;> rcases List.mem_append.mp hb with hbl | hbr
    · exact ihl hal hbl
    · exact absurd hab (not_prefix_of_edge_ne Bool.false_ne_true hal hbr)
    · exact absurd hab (not_prefix_of_edge_ne Bool.false_ne_true.symm har hbl)
    · exact ihr har hbr

theorem leafPaths_nodup (T : NodeTree) (p : BitString) : (T.leafPaths p).Nodup := by
  induction T generalizing p with
  | leaf n x => exact List.nodup_singleton _
  | inner n l r ihl ihr =>
    refine List.nodup_append.mpr ⟨ihl _, ihr _, fun a ha b hb hab => ?_⟩
    exact not_prefix_of_edge_ne Bool.false_ne_true ha hb (hab ▸ List.prefix_rfl)

/-- The leaves of a tree that has no symbol at two leaves have distinct symbols. -/
theorem syms_nodup {t : Nodes} {T : NodeTree} (h : T.StandsIn t) (hdistinct : DistinctLeaves t T.index) : T.syms.Nodup := by
  rw [← T.leafPaths_snd []]
  refine (T.leafPaths_nodup []).map_on fun a ha b hb hab => Prod.ext ?_ hab
  exact hdistinct a.1 b.1 a.2 ((leafPath_iff h).mpr ha) ((leafPath_iff h).mpr (hab ▸ hb))

/-- Where no leaf is deeper than `N`, neither is the root. -/
theorem length_le_of_leafPaths_le {N : Nat} {T : NodeTree} {p : BitString} (h : ∀ e ∈ T.leafPaths p, e.1.length ≤ N) :
    p.length ≤ N := by
  induction T generalizing p with
  | leaf n x => exact h (p, x) List.mem_cons_self
  | inner n l r ihl _ =>
    have hchild := ihl fun e he => h e (List.mem_append_left _ he)
    rw [List.length_append] at hchild
    exact (Nat.le_add_right ..).trans hchild

/-- The two children of a node share out its room, so that the leaves fill the room of the root (43 R106). -/
theorem leafPaths_kraft {N : Nat} {T : NodeTree} {p : BitString} (h : ∀ e ∈ T.leafPaths p, e.1.length ≤ N) :
    ((T.leafPaths p).map fun e => 2 ^ (N - e.1.length)).sum = 2 ^ (N - p.length) := by
  induction T generalizing p with
  | leaf n x => exact List.sum_singleton
  | inner n l r ihl ihr =>
    obtain ⟨hl, hr⟩ := List.forall_mem_append.mp h
    have hroom : p.length + 1 ≤ N := by simpa using length_le_of_leafPaths_le hl
    have hhalf : N - p.length = N - (p.length + 1) + 1 := by omega
    rw [leafPaths, List.map_append, List.sum_append, ihl hl, ihr hr, hhalf, pow_succ, Nat.mul_two]
    simp

end NodeTree

/-! ### The entries of the table -/

/-- The fields of the entry of a code of at most 127 bits (10 R34). -/
theorem entryOf_fields {p : BitString} (h : p.length ≤ 127) :
    (entryOf p).len.toNat = p.length ∧ (entryOf p).val.toNat = val p := by
  rw [entryOf, BitVec.toNat_ofNat, BitVec.toNat_ofNat]
  exact ⟨Nat.mod_eq_of_lt (by omega), Nat.mod_eq_of_lt ((val_lt p).trans_le (Nat.pow_le_pow_right two_pos h))⟩

theorem codeAt_empty (x : Sym) : codeAt (Vector.replicate 128 zeroCode) x = zeroCode := Vector.getElem_replicate _

/-- What a table holds after some codes are written: the old entry where none of them is the symbol's, else one of them. -/
theorem codeAt_foldl_writeCode (es : List (BitString × Sym)) (code : Vector CodeEntry 128) (x : Sym) :
    (x ∉ es.map Prod.snd ∧ codeAt (es.foldl writeCode code) x = codeAt code x) ∨
      ∃ p, (p, x) ∈ es ∧ codeAt (es.foldl writeCode code) x = entryOf p := by
  induction es generalizing code with
  | nil => exact .inl ⟨List.not_mem_nil, rfl⟩
  | cons e es ih =>
    rw [List.foldl_cons]
    rcases ih (writeCode code e) with ⟨hnone, h⟩ | ⟨p, hp, h⟩
    · rw [codeAt_writeCode] at h
      by_cases hx : x = e.2
      · rw [if_pos hx] at h
        exact .inr ⟨e.1, hx ▸ List.mem_cons_self, h⟩
      · rw [if_neg hx] at h
        exact .inl ⟨List.not_mem_cons_of_ne_of_not_mem hx hnone, h⟩
    · exact .inr ⟨p, List.mem_cons_of_mem e hp, h⟩

namespace NodeTree

variable {T : NodeTree} {p : BitString} {x : Sym}

/-- The table has the zero entry for a symbol at no leaf, and the path to a leaf for one at a leaf (43 R101, R102). -/
theorem codeAt_codeTable (T : NodeTree) (x : Sym) :
    (x ∉ T.syms ∧ codeAt T.codeTable x = zeroCode) ∨ ∃ p, (p, x) ∈ T.leafPaths [] ∧ codeAt T.codeTable x = entryOf p := by
  rw [← T.leafPaths_snd [], ← codeAt_empty x]
  exact codeAt_foldl_writeCode _ _ x

theorem mem_syms_of_mem_leafPaths (hp : (p, x) ∈ T.leafPaths []) : x ∈ T.syms :=
  T.leafPaths_snd [] ▸ List.mem_map_of_mem hp

/-- Exactly the symbols of the leaves have a code (43 R103). -/
theorem codeTable_valid_iff : (codeAt T.codeTable x).valid = true ↔ x ∈ T.syms := by
  rcases T.codeAt_codeTable x with ⟨hnone, h⟩ | ⟨p, hp, h⟩ <;> rw [h]
  · exact iff_of_false Bool.false_ne_true hnone
  · exact iff_of_true rfl (mem_syms_of_mem_leafPaths hp)

/-- A code in the table is a path to a leaf of its symbol (43 R102). -/
theorem codeTable_of_valid (hx : (codeAt T.codeTable x).valid = true) :
    ∃ p, (p, x) ∈ T.leafPaths [] ∧ codeAt T.codeTable x = entryOf p :=
  (T.codeAt_codeTable x).resolve_left fun h => h.1 (codeTable_valid_iff.mp hx)

/-- A symbol at no leaf has the zero entry (43 R101). -/
theorem codeTable_of_not_mem_syms (hx : x ∉ T.syms) : codeAt T.codeTable x = zeroCode := by
  rcases T.codeAt_codeTable x with ⟨_, h⟩ | ⟨_, hp, _⟩
  · exact h
  · exact absurd (mem_syms_of_mem_leafPaths hp) hx

/-- A symbol at one leaf has the path to it as code (43 R102). -/
theorem codeTable_of_unique (hp : (p, x) ∈ T.leafPaths []) (hunique : ∀ q, (q, x) ∈ T.leafPaths [] → q = p) :
    codeAt T.codeTable x = entryOf p := by
  obtain ⟨q, hq, h⟩ := codeTable_of_valid (codeTable_valid_iff.mpr (mem_syms_of_mem_leafPaths hp))
  exact hunique q hq ▸ h

/-- The symbols with a code are the symbols of the leaves (43 R103). -/
theorem filter_valid_perm (hsyms : T.syms.Nodup) : (symbols.filter fun x => (codeAt T.codeTable x).valid).Perm T.syms := by
  refine (List.perm_ext_iff_of_nodup (symbols_nodup.filter _) hsyms).mpr fun x => ?_
  rw [List.mem_filter, codeTable_valid_iff]
  exact and_iff_right (mem_symbols x)

/-- The codes of distinct leaf symbols leave no room for one more (43 R106). -/
theorem codeTable_kraft (hsyms : T.syms.Nodup) (hshort : ∀ e ∈ T.leafPaths [], e.1.length ≤ 127) :
    ((symbols.filter fun x => (codeAt T.codeTable x).valid).map fun x => 2 ^ (127 - (codeAt T.codeTable x).len.toNat)).sum =
      2 ^ 127 := by
  rw [((filter_valid_perm hsyms).map _).sum_eq, ← T.leafPaths_snd [], List.map_map]
  refine (congrArg List.sum (List.map_congr_left fun e he => ?_)).trans (leafPaths_kraft hshort)
  have hcode : codeAt T.codeTable e.2 = entryOf e.1 := codeTable_of_unique he fun q hq =>
    congrArg Prod.fst (List.inj_on_of_nodup_map (T.leafPaths_snd [] ▸ hsyms) hq he rfl)
  rw [Function.comp_apply, hcode, (entryOf_fields (hshort e he)).1]

end NodeTree

/-! ### BUILD_TABLE -/

/-- BITLEN has room for the payload of any frequencies under any table (10 R27). -/
theorem payloadLength_lt (freq : Vector Word 128) (code : Vector CodeEntry 128) : payloadLength freq code < 2 ^ 64 := by
  have hle : payloadLength freq code ≤ 128 * (2 ^ 32 * 2 ^ 7) := by
    have hsum := List.sum_le_card_nsmul (symbols.map fun x => (freqAt freq x).toNat * (codeAt code x).len.toNat)
      (2 ^ 32 * 2 ^ 7) fun n hn => by
        obtain ⟨x, _, rfl⟩ := List.mem_map.mp hn
        exact Nat.mul_le_mul (freqAt freq x).isLt.le (codeAt code x).len.isLt.le
    rwa [List.length_map, symbols_length] at hsum
  omega

/-- What BUILD_TABLE leaves when the traversal gives the table `code` (43 R101). -/
def tableBuilt (s : State) (e : ErrCode) (code : Vector CodeEntry 128) : State :=
  { completed s e with
    code := code
    bitlen := BitVec.ofNat 64 (payloadLength s.freq code)
    pad := BitVec.ofNat 4 (padFor (payloadLength s.freq code))
    phase := .tableReady }

theorem tableBuilt_bitlen_toNat (s : State) (e : ErrCode) (code : Vector CodeEntry 128) :
    (tableBuilt s e code).bitlen.toNat = payloadLength s.freq code :=
  (BitVec.toNat_ofNat ..).trans (Nat.mod_eq_of_lt (payloadLength_lt s.freq code))

theorem tableBuilt_pad_toNat (s : State) (e : ErrCode) (code : Vector CodeEntry 128) :
    (tableBuilt s e code).pad.toNat = padFor (payloadLength s.freq code) := by
  have := padFor_le (payloadLength s.freq code)
  exact (BitVec.toNat_ofNat ..).trans (Nat.mod_eq_of_lt (by omega))

/-- BUILD_TABLE completes with the table of the traversal. -/
theorem exec_buildTable {s : State} {c : Cur} {code : Vector CodeEntry 128} (h : AtEnd s c .buildTable)
    (htraverse : traverse s.node s.root = .ok code) : exec .buildTable s = .next (tableBuilt s c.err code) := by
  obtain ⟨q, hbody, hq⟩ : ∃ q, buildTableBody c s = .ok q ∧ complete q.1 q.2 = tableBuilt s c.err code := by
    simp [buildTableBody, htraverse, complete, tableBuilt, completed]
  exact hq ▸ (command_running h.running h.op).trans (coreStep_finish h.rem hbody)

/-! ### The symbols of LIST -/

/-- The symbols of LIST are those of the list (42 R89). -/
theorem exists_listOf_sym_iff {l : List (Sym × Word)} {x : Sym} (hmany : l.length ≤ 128) :
    (∃ i : Fin 128, i.val < l.length ∧ (listOf l)[i.val].sym = x) ↔ x ∈ l.map Prod.fst := by
  rw [List.mem_map]
  constructor
  · rintro ⟨i, hi, rfl⟩
    exact ⟨l[i.val], List.getElem_mem hi, by rw [listOf_getElem]; simp [hi, listedEntry]⟩
  · rintro ⟨e, he, rfl⟩
    obtain ⟨i, hi, rfl⟩ := List.mem_iff_getElem.mp he
    exact ⟨⟨i, hi.trans_le hmany⟩, hi, by rw [listOf_getElem]; simp [hi, listedEntry]⟩

/-! ### The statements -/

/-- Settles O25: the table is that of the tree below ROOT, whose leaf paths are those of NODE. -/
theorem buildTableWritesThePaths : Obligations.BuildTableWritesThePaths := by
  unfold Obligations.BuildTableWritesThePaths
  intro s c nn hend hwf
  obtain ⟨L, R, hfits⟩ := wfTree_iff.mp hwf
  have hpath {p x} : LeafPath s.node s.root p x ↔ _ := NodeTree.leafPath_iff hfits.standsIn
  refine ⟨_, exec_buildTable hend hfits.traverse_eq, rfl, tableBuilt_bitlen_toNat .., ?_, fun p x hp hunique => ?_,
    fun x hnone => ?_⟩
  · rw [tableBuilt_pad_toNat, tableBuilt_bitlen_toNat, padFor]
  · have hmem := hpath.mp hp
    have hshort := hfits.leafPaths_length_le hmem
    obtain ⟨hlen, hval⟩ := entryOf_fields hshort
    rw [tableBuilt, NodeTree.codeTable_of_unique hmem fun q hq => hunique q (hpath.mpr hq)]
    exact ⟨hshort, rfl, hlen, hval, entryBits_entryOf p hshort⟩
  · refine NodeTree.codeTable_of_not_mem_syms fun hx => ?_
    rw [← NodeTree.leafPaths_snd _ []] at hx
    obtain ⟨⟨p, _⟩, hp, rfl⟩ := List.mem_map.mp hx
    exact hnone p (hpath.mpr hp)

/-- Settles O26: the traversal takes the leaf off its stack, writes its code and ends. -/
theorem leafRootGetsTheEmptyCode : Obligations.LeafRootGetsTheEmptyCode := by
  unfold Obligations.LeafRootGetsTheEmptyCode
  intro t n r hr hleaf
  refine ⟨writeCode (Vector.replicate 128 zeroCode) ([], r.sym), ?_, ?_, fun x hx => ?_⟩
  · exact traverseLoop_leaf (p := []) hr hleaf (Nat.zero_le _)
  · rw [codeAt_writeCode, if_pos rfl]
    rfl
  · rw [codeAt_writeCode, if_neg hx, codeAt_empty]

/-- Settles O27: the codes are the paths to the leaves, one for each symbol, and the root is no leaf. -/
theorem codesArePrefixFreeAndComplete : Obligations.CodesArePrefixFreeAndComplete := by
  unfold Obligations.CodesArePrefixFreeAndComplete
  intro t nn root code hwf hdistinct htraverse
  obtain ⟨L, R, hfits⟩ := wfTree_iff.mp hwf
  obtain rfl : (NodeTree.inner root L R).codeTable = code := Except.ok.inj (hfits.traverse_eq.symm.trans htraverse)
  refine ⟨fun x y hx hy hxy => ?_, fun x hx => ?_, ?_⟩
  · obtain ⟨p, hp, hpx⟩ := NodeTree.codeTable_of_valid hx
    obtain ⟨q, hq, hqy⟩ := NodeTree.codeTable_of_valid hy
    rw [hpx, hqy, entryBits_entryOf p (hfits.leafPaths_length_le hp), entryBits_entryOf q (hfits.leafPaths_length_le hq)]
    exact fun hpq => hxy (congrArg Prod.snd (NodeTree.leafPaths_eq_of_prefix hp hq hpq))
  · obtain ⟨p, hp, hpx⟩ := NodeTree.codeTable_of_valid hx
    rw [hpx, (entryOf_fields (hfits.leafPaths_length_le hp)).1]
    rcases List.mem_append.mp hp with hl | hr
    · exact (NodeTree.isPrefix_of_mem_leafPaths hl).length_le
    · exact (NodeTree.isPrefix_of_mem_leafPaths hr).length_le
  · exact NodeTree.codeTable_kraft (NodeTree.syms_nodup hfits.standsIn hdistinct) fun _ => hfits.leafPaths_length_le

/-- Settles O28: BUILD_TREE leaves a tree whose leaves have the listed symbols, and BUILD_TABLE codes for exactly its leaves. -/
theorem listedSymbolsHaveCodes : Obligations.ListedSymbolsHaveCodes := by
  unfold Obligations.ListedSymbolsHaveCodes
  rintro s c c' hend ⟨x, hx⟩ hop hrem
  obtain ⟨hsome, hmany⟩ := frequencyList_length hx
  obtain ⟨htgt, _⟩ := twoQueue_root hsome
  obtain ⟨T, hroot, hfits, hperm⟩ := twoQueue_fits hsome hmany htgt
  obtain ⟨hnsym, _⟩ := treeBuilt_counts hx c.err
  refine ⟨_, _, exec_buildTree hend hx, exec_buildTable ⟨rfl, hop, hrem⟩ (hroot ▸ hfits.traverse_eq), fun y => ?_⟩
  rw [hnsym]
  exact NodeTree.codeTable_valid_iff.trans (hperm.mem_iff.trans (exists_listOf_sym_iff hmany).symm)

end Sys2Proof.Machine
end

section
/-! PROOFS. What ENCODE and DECODE leave unchanged: the data path and the registers of the host (44 R107, 45 R113). -/

namespace Sys2Proof.Machine

theorem SameDataPath.refl (s : State) : SameDataPath s s := by constructor <;> rfl

/-- A command leaves the data path when its Start, Beat and Body do: issue, core step and completion write none of it
(40 R74, R76, R78). -/
theorem command_sameDataPath {i : Instr} {start : Cur → State → Cur × State}
    {beat : Byte → Cur → State → Except Fault (Cur × State)} {finish : Cur → State → Except Fault (Cur × State)}
    (hstart : ∀ c s, SameDataPath s (start c s).2)
    (hbeat : ∀ b c s q, beat b c s = .ok q → SameDataPath s q.2)
    (hfinish : ∀ c s q, finish c s = .ok q → SameDataPath s q.2)
    {s t : State} (h : command i start beat finish s = .next t) : SameDataPath s t := by
  rcases command_cases h with ⟨_, rfl⟩ | ⟨_, _, _, rfl⟩ | ⟨c, _, _, hcore⟩
  · by_cases hcheck : issueCheck i (beginIssue (opcode i) s) = .none
    · rw [issue_accepted hcheck]
      exact { hstart (newCur i (beginIssue (opcode i) s)) (beginIssue (opcode i) s) with }
    · rw [issue_rejected hcheck]
      constructor <;> rfl
  · exact .refl _
  · rcases coreStep_cases hcore with ⟨_, q, hq, rfl⟩ | ⟨_, _, rfl⟩ | ⟨_, b, rest, q, _, hq, rfl⟩
    · exact { hfinish c s q hq with }
    · exact .refl _
    · exact { hbeat b _ _ q hq with }

theorem encodeBeat_sameDataPath {b : Byte} {c : Cur} {s : State} {q : Cur × State} (h : encodeBeat b c s = .ok q) :
    SameDataPath s q.2 := by
  rcases encodeBeat_cases b c s with ⟨_, e⟩ | ⟨_, _, _, _, e, _⟩ | ⟨_, _, e⟩ <;> rw [e] at h <;> cases h
  · exact .refl s
  · exact .refl s
  · exact .emitAll s _

theorem encodeFinish_sameDataPath {c : Cur} {s : State} {q : Cur × State} (h : encodeFinish c s = .ok q) :
    SameDataPath s q.2 := by
  rcases encodeFinish_cases c s with ⟨_, e⟩ | ⟨_, _, _, e, _⟩ <;> rw [e] at h <;> cases h
  · exact .refl s
  · exact .emitAll s _

theorem decodeBeat_sameDataPath {b : Byte} {c : Cur} {s : State} {q : Cur × State} (h : decodeBeat b c s = .ok q) :
    SameDataPath s q.2 := by
  obtain ⟨bs, _, _, _, rfl⟩ := decodeBeat_ok h
  exact .emitAll s bs

theorem decodeFinish_sameDataPath {c : Cur} {s : State} {q : Cur × State} (h : decodeFinish c s = .ok q) :
    SameDataPath s q.2 := by
  obtain ⟨_, e, _⟩ := decodeFinish_eq c s
  rw [e] at h
  cases h
  exact { SameDataPath.refl s with }

theorem exec_encode_sameDataPath {s t : State} (h : exec .encode s = .next t) : SameDataPath s t :=
  command_sameDataPath (fun _ s => .refl s) (fun _ _ _ _ => encodeBeat_sameDataPath)
    (fun _ _ _ => encodeFinish_sameDataPath) h

theorem exec_decode_sameDataPath {s t : State} (h : exec .decode s = .next t) : SameDataPath s t :=
  command_sameDataPath (fun _ s => .refl s) (fun _ _ _ _ => decodeBeat_sameDataPath)
    (fun _ _ _ => decodeFinish_sameDataPath) h

/-- Settles O42: the parts of ENCODE and DECODE write nothing of the data path, and no command writes CTRL or IN_LEN. -/
theorem encodeAndDecodeKeepTheDataPath : Obligations.EncodeAndDecodeKeepTheDataPath := by
  unfold Obligations.EncodeAndDecodeKeepTheDataPath
  intro i s t hi hexec
  have hpath : SameDataPath s t := by
    rcases hi with rfl | rfl
    · exact exec_encode_sameDataPath hexec
    · exact exec_decode_sameDataPath hexec
  have hhost : SameHostSide s t := exec_frame hexec
  exact ⟨hpath.phase, hpath.freq, hpath.list, hpath.node, hpath.code, hpath.total, hpath.nsym, hpath.nnodes, hpath.root,
    hpath.bitlen, hpath.pad, hhost.tsrc, hhost.irqEn, hhost.inLen⟩

end Sys2Proof.Machine
end

section
/-! PROOFS. ENCODE: its beat, its last step, and a whole run over a frame (44 R107 to R111). -/

namespace Sys2Proof.Machine

/-! ### Packing in parts -/

/-- Packing a bit string that comes in two parts: the bits the first part leaves are packed before the second (44 R109). -/
theorem packBytes_append_eq (p q : BitString) :
    packBytes (p ++ q) =
      ((packBytes p).1 ++ (packBytes ((packBytes p).2 ++ q)).1, (packBytes ((packBytes p).2 ++ q)).2) := by
  induction h : p.length using Nat.strong_induction_on generalizing p with
  | _ n ih =>
    by_cases hs : p.length < 8
    · simp [packBytes_short p hs]
    · have h8 : (p.take 8).length = 8 := List.length_take_of_le (Nat.le_of_not_lt hs)
      have hp : p = p.take 8 ++ p.drop 8 := (List.take_append_drop 8 p).symm
      have hdrop := ih (p.drop 8).length (by simp; omega) (p.drop 8) rfl
      rw [hp, List.append_assoc, packBytes_append _ _ h8, packBytes_append _ _ h8, hdrop, List.cons_append]

/-- Whole bytes leave (44 R109). -/
theorem packBytes_fst_length (p : BitString) : (packBytes p).1.length = p.length / 8 := by
  have hlen := packBytes_length p
  have hrest := (packBytes_spec p).2
  omega

/-- No bit stays exactly when the bits fill whole bytes (44 R110). -/
theorem packBytes_snd_eq_nil_iff (p : BitString) : (packBytes p).2 = [] ↔ p.length % 8 = 0 := by
  have hlen := packBytes_length p
  have hrest := (packBytes_spec p).2
  rw [← List.length_eq_zero_iff]
  omega

/-! ### What ENCODE makes of a frame -/

/-- The bytes of a frame that ENCODE packs: those before the first one that raises an error (44 R109). -/
def packedBytes (code : Vector CodeEntry 128) (frame : List Byte) : List Byte := frame.takeWhile (packable code)

/-- The payload of a frame (44 R111's S). -/
def payloadOf (code : Vector CodeEntry 128) (frame : List Byte) : BitString := (packedBytes code frame).flatMap (codeOf code)

/-- The error that a byte raises which ENCODE cannot pack (44 R109). -/
def byteError (b : Byte) : ErrCode := if 128 ≤ b.toNat then .range else .noCode

/-- The bytes that ENCODE emits over `frame` and in its last step, `held` being the bits held (44 R109, R110). -/
def encodeOut (code : Vector CodeEntry 128) (held : BitString) (frame : List Byte) : List Byte :=
  if packedBytes code frame = [] ∧ frame ≠ [] then [] else (packBytes (held ++ payloadOf code frame)).1

/-- The error with which ENCODE ends after `frame`, `held` being the bits held (44 R109, R110). -/
def encodeEnd (code : Vector CodeEntry 128) (held : BitString) (frame : List Byte) : ErrCode :=
  if packError code frame ≠ .none then packError code frame
  else if (packBytes (held ++ payloadOf code frame)).2 = [] then .none else .length

section
variable {code : Vector CodeEntry 128} {held : BitString} {b : Byte} {frame : List Byte}

theorem byteError_ne_none (b : Byte) : byteError b ≠ .none := by
  rw [byteError]
  split_ifs <;> exact nofun

theorem packedBytes_cons_of_packable (h : packable code b = true) :
    packedBytes code (b :: frame) = b :: packedBytes code frame :=
  List.takeWhile_cons_of_pos h

theorem packedBytes_cons_of_not_packable (h : packable code b = false) : packedBytes code (b :: frame) = [] :=
  List.takeWhile_cons_of_neg (Bool.eq_false_iff.mp h)

theorem payloadOf_cons_of_packable (h : packable code b = true) :
    payloadOf code (b :: frame) = codeOf code b ++ payloadOf code frame := by
  rw [payloadOf, packedBytes_cons_of_packable h, List.flatMap_cons, payloadOf]

theorem packError_cons_of_packable (h : packable code b = true) : packError code (b :: frame) = packError code frame := by
  simp [packError, h]

theorem packError_cons_of_not_packable (h : packable code b = false) : packError code (b :: frame) = byteError b := by
  simp [packError, h, byteError]

/-- With fewer than eight bits held a frame whose first byte raises an error is no exception: no byte is whole (44 R111). -/
theorem encodeOut_of_length_lt (h : held.length < 8) :
    encodeOut code held frame = (packBytes (held ++ payloadOf code frame)).1 := by
  rw [encodeOut, ite_eq_right_iff]
  rintro ⟨hnone, _⟩
  rw [payloadOf, hnone, List.flatMap_nil, List.append_nil, packBytes_short held h]

theorem encodeOut_nil : encodeOut code held [] = (packBytes held).1 := by
  simp [encodeOut, payloadOf, packedBytes]

theorem encodeOut_cons_of_packable (h : packable code b = true) :
    encodeOut code held (b :: frame) =
      (packBytes (held ++ codeOf code b)).1 ++ encodeOut code (packBytes (held ++ codeOf code b)).2 frame := by
  have hsome : ¬(packedBytes code (b :: frame) = [] ∧ b :: frame ≠ []) := by simp [packedBytes_cons_of_packable h]
  rw [encodeOut_of_length_lt (packBytes_spec _).2, encodeOut, if_neg hsome, payloadOf_cons_of_packable h, ← List.append_assoc,
    packBytes_append_eq]

theorem encodeOut_cons_of_not_packable (h : packable code b = false) : encodeOut code held (b :: frame) = [] :=
  if_pos ⟨packedBytes_cons_of_not_packable h, List.cons_ne_nil _ _⟩

theorem encodeEnd_nil : encodeEnd code held [] = if (packBytes held).2 = [] then .none else .length := by
  simp [encodeEnd, packError, payloadOf, packedBytes]

theorem encodeEnd_cons_of_packable (h : packable code b = true) :
    encodeEnd code held (b :: frame) = encodeEnd code (packBytes (held ++ codeOf code b)).2 frame := by
  rw [encodeEnd, encodeEnd, packError_cons_of_packable h, payloadOf_cons_of_packable h, ← List.append_assoc,
    packBytes_append_eq]

theorem encodeEnd_cons_of_not_packable (h : packable code b = false) : encodeEnd code held (b :: frame) = byteError b := by
  rw [encodeEnd, packError_cons_of_not_packable h, if_pos (byteError_ne_none b)]

end

/-! ### One core step -/

/-- Emitting before or after the record of the command is written is the same. -/
theorem emitAll_cur (s : State) (bs : List Byte) (c : Option Cur) :
    { emitAll s bs with cur := c } = emitAll { s with cur := c } bs := by
  rw [emitAll_eq, emitAll_eq]

section
variable {s : State} {c : Cur} {b : Byte} {rest : List Byte}

/-- A beat of ENCODE is its Beat on the state with the byte taken (40 R76). -/
theorem exec_encode_beat {q : Cur × State} (h : AtByte s c .encode b rest)
    (hq : encodeBeat b (takeBeat c rest s).1 (takeBeat c rest s).2 = .ok q) :
    exec .encode s = .next { q.2 with cur := some q.1 } :=
  (command_running h.running h.op).trans (coreStep_beat h.rem h.offered hq)

theorem exec_encode_after_error (h : AtByte s c .encode b rest) (herr : c.err ≠ .none) :
    exec .encode s = .next (tookByte s rest { c with rem := c.rem - 1#32 }) :=
  exec_encode_beat h (if_pos herr)

theorem exec_encode_not_packable (h : AtByte s c .encode b rest) (herr : c.err = .none) (hb : packable s.code b = false) :
    exec .encode s = .next (tookByte s rest { c with rem := c.rem - 1#32, err := byteError b, acc := [] }) := by
  rcases encodeBeat_cases b (takeBeat c rest s).1 (takeBeat c rest s).2 with
    ⟨hne, _⟩ | ⟨e, _, _, _, hbeat, hrange, hcode⟩ | ⟨_, hpackable, _⟩
  · exact absurd herr hne
  · have he : e = byteError b := by
      rw [byteError]
      split_ifs with hle
      · exact hrange.mpr hle
      · exact hcode.resolve_left (mt hrange.mp hle)
    subst he
    exact exec_encode_beat h hbeat
  · cases hb.symm.trans hpackable

theorem exec_encode_packable (h : AtByte s c .encode b rest) (herr : c.err = .none) (hb : packable s.code b = true) :
    exec .encode s = .next (emitAll
      (tookByte s rest { c with rem := c.rem - 1#32, acc := (packBytes (c.acc ++ codeOf s.code b)).2 })
      (packBytes (c.acc ++ codeOf s.code b)).1) := by
  rcases encodeBeat_cases b (takeBeat c rest s).1 (takeBeat c rest s).2 with
    ⟨hne, _⟩ | ⟨_, _, _, hnot, _⟩ | ⟨_, _, hbeat⟩
  · exact absurd herr hne
  · cases hb.symm.trans hnot
  · exact (exec_encode_beat h hbeat).trans (congrArg _ (emitAll_cur ..))

end

/-- Settles O31: a byte of 128 or more, or without a code, cannot be packed; else its code is appended and whole bytes leave. -/
theorem encodeBeatPacksTheCode : Obligations.EncodeBeatPacksTheCode := by
  unfold Obligations.EncodeBeatPacksTheCode
  intro s c b rest hbyte
  refine ⟨exec_encode_after_error hbyte, fun herr hb => ?_, fun herr hb hinvalid => ?_, fun herr hb hvalid => ?_⟩
  · have hnot : packable s.code b = false := by simp [packable, Nat.not_lt.mpr hb]
    rw [exec_encode_not_packable hbyte herr hnot, byteError, if_pos hb]
  · have hnot : packable s.code b = false := by simp [packable, hinvalid]
    rw [exec_encode_not_packable hbyte herr hnot, byteError, if_neg (Nat.not_le.mpr hb)]
  · have hpackable : packable s.code b = true := by simp [packable, hb, hvalid]
    have hcode := codeOf_length_le s.code b
    refine ⟨(exec_encode_packable hbyte herr hpackable).trans (congrArg _ (emitAll_eq ..)), (packBytes_spec _).2,
      fun hheld => ⟨?_, (packBytes_bounds hheld hcode).1⟩⟩
    rw [codeOf] at hcode
    rw [List.length_append]
    omega

/-- Settles O32: the two branches of the last step, each with the completion. -/
theorem encodeFinishChecksTheLength : Obligations.EncodeFinishChecksTheLength := by
  unfold Obligations.EncodeFinishChecksTheLength
  intro s c hend
  have hexec {p : Cur × State} (hp : encodeFinish c s = .ok p) : exec .encode s = .next (complete p.1 p.2) :=
    (command_running hend.running hend.op).trans (coreStep_finish hend.rem hp)
  rcases encodeFinish_cases c s with ⟨hfailed, hfinish⟩ | ⟨hfine, a, e, hfinish, he, _⟩
  · exact ⟨fun _ => hexec hfinish, fun hnone => absurd hnone hfailed⟩
  · refine ⟨fun hne => absurd hfine hne, fun _ => ?_⟩
    have hcode : e = if (packBytes c.acc).2 = [] then .none else .length := by
      rcases he with ⟨hnil, rfl⟩ | ⟨hleft, rfl⟩
      · exact (if_pos hnil).symm
      · exact (if_neg hleft).symm
    rw [hexec hfinish, emitAll_eq, hcode]
    rfl

/-! ### A whole frame -/

/-- The command `i` is in progress with `frame` still to take, all of it offered, and no move of the host to come. -/
structure TakingFrame (i : Instr) (s : State) (c : Cur) (frame rest : List Byte) : Prop where
  running : s.cur = some c
  op : c.op = i
  high : s.rstN = true
  quiet : s.host = []
  offered : s.inq = frame ++ rest
  length : frame.length = c.rem.toNat

section
variable {i : Instr} {s : State} {c : Cur} {b : Byte} {frame rest : List Byte}

theorem TakingFrame.atEnd (h : TakingFrame i s c [] rest) : AtEnd s c i :=
  ⟨h.running, h.op, BitVec.eq_of_toNat_eq h.length.symm⟩

theorem TakingFrame.atByte (h : TakingFrame i s c (b :: frame) rest) : AtByte s c i b (frame ++ rest) := by
  refine ⟨h.running, h.op, fun hrem => ?_, h.offered⟩
  have hlen := h.length
  rw [hrem] at hlen
  cases hlen

/-- A beat leaves the frame without its byte, whatever it does to the error and the held bits. -/
theorem TakingFrame.tookByte (h : TakingFrame i s c (b :: frame) rest) (e : ErrCode) (held : BitString) :
    TakingFrame i (tookByte s (frame ++ rest) { c with rem := c.rem - 1#32, err := e, acc := held })
      { c with rem := c.rem - 1#32, err := e, acc := held } frame rest := by
  refine ⟨rfl, h.op, h.high, h.quiet, rfl, ?_⟩
  have hlen := h.length
  rw [List.length_cons] at hlen
  bv_omega

theorem TakingFrame.emitAll (h : TakingFrame i s c frame rest) (bs : List Byte) :
    TakingFrame i (emitAll s bs) c frame rest := by
  rw [emitAll_eq]
  exact { h with }

/-- While the command is in progress each turn is its core step. -/
theorem TakingFrame.turns_succ {t : State} (h : TakingFrame i s c frame rest) (k : Nat) (hexec : exec i s = .next t) :
    turns (k + 1) s = turns k t := by
  have hstep : step s = exec c.op s := (stepRunsTheCommandInProgress s c h.high h.running).1 h.quiet
  rw [turns, hstep, h.op, hexec]

end

/-- `s` after the rest of ENCODE: `n` bytes consumed, `rest` left, `out` emitted, the error `e` (44 R109, R110; 40 R78). -/
def afterEncode (s : State) (rest : List Byte) (n : Word) (out : List Byte) (e : ErrCode) : State :=
  { completed s e with
    inq := rest, inConsumed := s.inConsumed + n, outq := s.outq ++ out, outCount := s.outCount + BitVec.ofNat 64 out.length }

/-- A byte taken by a beat is one of those the rest of ENCODE would have taken, and what it emits comes first. -/
theorem afterEncode_tookByte (s : State) (c : Cur) (rest rest' : List Byte) (n : Word) (bs out : List Byte) (e : ErrCode) :
    afterEncode (emitAll (tookByte s rest' c) bs) rest (n - 1#32) out e = afterEncode s rest n (bs ++ out) e := by
  have hconsumed : s.inConsumed + 1#32 + (n - 1#32) = s.inConsumed + n := by bv_omega
  rw [emitAll_eq]
  simp only [afterEncode, tookByte, completed, hconsumed, List.append_assoc, List.length_append, BitVec.ofNat_add,
    BitVec.add_assoc]

section
variable {s : State} {c : Cur} {frame rest : List Byte}

/-- After an error ENCODE takes the rest of the frame and emits nothing (44 R109, 60 R125). -/
theorem turns_encode_after_error (h : TakingFrame .encode s c frame rest) (herr : c.err ≠ .none) :
    turns (frame.length + 1) s = .next (afterEncode s rest c.rem [] c.err) := by
  induction frame generalizing s c with
  | nil =>
    have hrest : s.inq = rest := h.offered
    rw [List.length_nil, h.turns_succ 0 ((encodeFinishChecksTheLength s c h.atEnd).1 herr), h.atEnd.rem, ← hrest]
    simp [turns, afterEncode, completed]
  | cons b frame ih =>
    rw [List.length_cons, h.turns_succ _ (exec_encode_after_error h.atByte herr)]
    exact (ih (h.tookByte c.err c.acc) herr).trans (congrArg _ (afterEncode_tookByte s _ rest _ c.rem [] [] c.err))

/-- Without an error so far ENCODE packs the bytes before the first that raises one, and takes the whole frame (44 R107). -/
theorem turns_encode_frame (h : TakingFrame .encode s c frame rest) (herr : c.err = .none) :
    turns (frame.length + 1) s =
      .next (afterEncode s rest c.rem (encodeOut s.code c.acc frame) (encodeEnd s.code c.acc frame)) := by
  induction frame generalizing s c with
  | nil =>
    have hrest : s.inq = rest := h.offered
    rw [List.length_nil, h.turns_succ 0 ((encodeFinishChecksTheLength s c h.atEnd).2 herr), h.atEnd.rem, ← hrest,
      encodeOut_nil, encodeEnd_nil]
    simp [turns, afterEncode, completed]
  | cons b frame ih =>
    rw [List.length_cons]
    cases hb : packable s.code b with
    | true =>
      rw [encodeOut_cons_of_packable hb, encodeEnd_cons_of_packable hb,
        h.turns_succ _ (exec_encode_packable h.atByte herr hb)]
      refine (ih ((h.tookByte c.err _).emitAll _) herr).trans (congrArg _ ?_)
      rw [afterEncode_tookByte, (SameDataPath.emitAll _ _).code]
      rfl
    | false =>
      rw [encodeOut_cons_of_not_packable hb, encodeEnd_cons_of_not_packable hb,
        h.turns_succ _ (exec_encode_not_packable h.atByte herr hb)]
      exact (turns_encode_after_error (h.tookByte (byteError b) []) (byteError_ne_none b)).trans
        (congrArg _ (afterEncode_tookByte s _ rest _ c.rem [] [] _))

end

/-! ### The statement -/

/-- A padding leaves room for its sentinel (30 R71). -/
theorem one_le_padFor (n : Nat) : 1 ≤ padFor n := by
  have := Nat.mod_lt n (show 0 < 8 by decide)
  unfold padFor
  omega

/-- The zeros and the sentinel of a padding are as many bits as the padding says (30 R71). -/
theorem prefixFor_padFor_length (n : Nat) : (prefixFor (padFor n)).length = padFor n := by
  rw [prefixFor_length]
  exact Nat.sub_add_cancel (one_le_padFor n)

/-- Behind the padding for `m` bits a payload fills whole bytes exactly when it has `m`'s length mod 8 (44 R111). -/
theorem packBytes_prefixFor_snd_eq_nil_iff (m : Nat) (p : BitString) :
    (packBytes (prefixFor (padFor m) ++ p)).2 = [] ↔ p.length % 8 = m % 8 := by
  rw [packBytes_snd_eq_nil_iff, List.length_append, prefixFor_padFor_length, padFor]
  omega

/-- What the rest of ENCODE leaves, seen from the state before its issue. -/
theorem afterEncode_issued (s : State) (c : Cur) (rest out : List Byte) (e : ErrCode) :
    afterEncode (issued s .encode c) rest s.inLen out e =
      { completed (issued s .encode (freshCur s .encode s.inLen)) e with
        inq := rest, inConsumed := s.inLen, outq := s.outq ++ out, outCount := BitVec.ofNat 64 out.length } := by
  simp [afterEncode, completed, issued]

/-- Settles O33: ENCODE's issue leaves it taking the whole frame with the padding bits held, and the bytes and the error of the run
are those that the frame and these bits determine. -/
theorem encodeEmitsTheStream : Obligations.EncodeEmitsTheStream := by
  unfold Obligations.EncodeEmitsTheStream
  intro s frame rest hready hphase hpad hoffered hlength good payload out e
  obtain ⟨_, _, _, _, hissue, _⟩ := acceptedIssueStartsTheCommand s hready.idle
  have htaking : TakingFrame .encode (issued s .encode { freshCur s .encode s.inLen with acc := prefixFor s.pad.toNat })
      { freshCur s .encode s.inLen with acc := prefixFor s.pad.toNat } frame rest :=
    ⟨rfl, rfl, hready.high, hready.quiet, hoffered, hlength⟩
  have hout : out = encodeOut s.code (prefixFor s.pad.toNat) frame := rfl
  have hend : e = encodeEnd s.code (prefixFor s.pad.toNat) frame := by
    simp only [encodeEnd, hpad, packBytes_prefixFor_snd_eq_nil_iff]
    rfl
  have hprefix : (prefixFor s.pad.toNat).length = s.pad.toNat := by rw [hpad, prefixFor_padFor_length]
  refine ⟨?_, fun hall hfit => ?_, fun hsome => ?_⟩
  · rw [hout, hend, ← afterEncode_issued]
    exact (runCommand_of_exec (hissue hphase) _).trans (turns_encode_frame htaking rfl)
  · have hpacked : ¬(good = [] ∧ frame ≠ []) := fun ⟨hnone, hne⟩ => hne (hall.symm.trans hnone)
    have hsame : padFor s.bitlen.toNat = padFor payload.length := by rw [padFor, padFor, hfit]
    rw [stream, ← hsame, ← hpad]
    exact if_neg hpacked
  · have hwhole : out = (packBytes (prefixFor s.pad.toNat ++ payload)).1 := by
      rcases hsome with hsome | rfl | hpad8
      · exact if_neg fun ⟨hnone, _⟩ => hsome hnone
      · exact if_neg fun ⟨_, hne⟩ => hne rfl
      · have hle := padFor_le s.bitlen.toNat
        exact encodeOut_of_length_lt (by omega)
    rw [hwhole, packBytes_fst_length, List.length_append, hprefix]

end Sys2Proof.Machine
end

section
/-! PROOFS. Conditions 1 to 4 of WF_ROM by paths: the tree that the check walks is the one that the paths from the root unfold
(45 R114). -/

namespace Sys2Proof.Machine

/-! ### Paths in the tree of a term -/

namespace NodeTree

/-- Each node is reached along a path. -/
theorem exists_sub_of_mem_indices {T : NodeTree} {n : NodeIx} (h : n ∈ T.indices) :
    ∃ p U, T.sub p = some U ∧ U.index = n := by
  induction T with
  | leaf m x => exact ⟨[], leaf m x, rfl, (List.mem_singleton.mp h).symm⟩
  | inner m l r ihl ihr =>
    rcases List.mem_cons.mp h with rfl | h
    · exact ⟨[], inner n l r, rfl, rfl⟩
    rcases List.mem_append.mp h with hl | hr
    · obtain ⟨p, U, hp, hU⟩ := ihl hl
      exact ⟨false :: p, U, hp, hU⟩
    · obtain ⟨p, U, hp, hU⟩ := ihr hr
      exact ⟨true :: p, U, hp, hU⟩

/-- No node is reached along two paths. -/
def OnePath (T : NodeTree) : Prop :=
  ∀ p q U V, T.sub p = some U → T.sub q = some V → U.index = V.index → p = q

/-- Where no node is reached along two paths, no index stands twice (45 R114 condition 4). -/
theorem OnePath.nodup {T : NodeTree} (h : T.OnePath) : T.indices.Nodup := by
  induction T with
  | leaf n x => exact List.nodup_singleton n
  | inner n l r ihl ihr =>
    have hl : l.OnePath := fun p q U V hp hq hUV => (List.cons.inj (h (false :: p) (false :: q) U V hp hq hUV)).2
    have hr : r.OnePath := fun p q U V hp hq hUV => (List.cons.inj (h (true :: p) (true :: q) U V hp hq hUV)).2
    refine List.nodup_cons.mpr ⟨fun hn => ?_, List.nodup_append.mpr ⟨ihl hl, ihr hr, fun a ha b hb hab => ?_⟩⟩
    · rcases List.mem_append.mp hn with hn | hn
      · obtain ⟨p, U, hp, hU⟩ := exists_sub_of_mem_indices hn
        cases h (false :: p) [] U (inner n l r) hp rfl hU
      · obtain ⟨p, U, hp, hU⟩ := exists_sub_of_mem_indices hn
        cases h (true :: p) [] U (inner n l r) hp rfl hU
    · obtain ⟨p, U, hp, hU⟩ := exists_sub_of_mem_indices ha
      obtain ⟨q, V, hq, hV⟩ := exists_sub_of_mem_indices hb
      cases h (false :: p) (true :: q) U V hp hq (hU.trans (hab.trans hV.symm))

end NodeTree

/-! ### The tree that the paths unfold -/

section
variable {t : Nodes} {nn root n : NodeIx} {p : BitString}

/-- The nodes that a path passes are as many as its bits, and one more, and no two are the same: its bits are fewer than the
nodes there are (45 R114). -/
theorem StrictTree.path_length_lt (h : StrictTree t nn root) (hp : descend t root p = some n) : p.length < nn.toNat := by
  have hpassed (i : Nat) : ∃ m, descend t root (p.take i) = some m := by
    rw [← List.take_append_drop i p, descend_append] at hp
    obtain ⟨m, hm, _⟩ := Option.bind_eq_some_iff.mp hp
    exact ⟨m, hm⟩
  choose passed hpassed using hpassed
  have hnodup : ((List.range (p.length + 1)).map passed).Nodup := by
    refine List.nodup_range.map_on fun i hi j hj hij => ?_
    have hsame := h.onePath _ _ _ (hpassed i) (hij ▸ hpassed j)
    have hlen := congrArg List.length hsame
    rw [List.mem_range] at hi hj
    rw [List.length_take, List.length_take] at hlen
    omega
  have hbelow : ∀ m ∈ (List.range (p.length + 1)).map passed, m.toNat < nn.toNat := by
    intro m hm
    obtain ⟨i, _, rfl⟩ := List.mem_map.mp hm
    exact (h.nodes _ _ (hpassed i)).1
  simpa using length_le_of_nodup_below hnodup hbelow

/-- Every node that a path reaches is the root of a tree that stands in the array; the paths end, so the unfolding does
(45 R114 condition 3). -/
theorem StrictTree.exists_standsIn (h : StrictTree t nn root) (fuel : Nat) (hp : descend t root p = some n)
    (hfuel : nn.toNat ≤ p.length + fuel) : ∃ T : NodeTree, T.index = n ∧ T.StandsIn t := by
  induction fuel generalizing p n with
  | zero => exact absurd (h.path_length_lt hp) (Nat.not_lt.mpr hfuel)
  | succ fuel ih =>
    obtain ⟨_, r, hr, hvalid, hchildless⟩ := h.nodes p n hp
    cases hleaf : r.leaf with
    | true => exact ⟨.leaf n r.sym, rfl, r, hr, hvalid, hleaf, rfl, hchildless hleaf⟩
    | false =>
      have hchild (x : Bool) : ∃ T : NodeTree, T.index = (if x then r.right else r.left) ∧ T.StandsIn t := by
        refine ih (p := p ++ [x]) ?_ ?_
        · simp [descend_append, hp, descend, hr, hleaf]
        · rw [List.length_append, List.length_singleton]
          omega
      obtain ⟨L, hL, hLstands⟩ := hchild false
      obtain ⟨R, hR, hRstands⟩ := hchild true
      exact ⟨.inner n L R, rfl, ⟨r, hr, hvalid, hleaf, hL.symm, hR.symm⟩, hLstands, hRstands⟩

/-- The tree that the paths from the root unfold fits the array (45 R114). -/
theorem StrictTree.exists_fits (h : StrictTree t nn root) : ∃ T : NodeTree, T.index = root ∧ T.Fits t nn := by
  obtain ⟨T, rfl, hstands⟩ := h.exists_standsIn nn.toNat (p := []) rfl (Nat.le_add_left ..)
  have hreached {p U} (hp : T.sub p = some U) : descend t T.index p = some U.index := by
    rw [NodeTree.descend_index hstands, hp, Option.map_some]
  have hone : T.OnePath := fun p q U V hp hq hUV => h.onePath p q U.index (hreached hp) (hUV ▸ hreached hq)
  refine ⟨T, rfl, hstands, hone.nodup, fun n hn => ?_⟩
  obtain ⟨p, U, hp, rfl⟩ := NodeTree.exists_sub_of_mem_indices hn
  exact (h.nodes p _ (hreached hp)).1

/-- The nodes of a tree that fits the array meet the conditions on nodes and paths (45 R114 conditions 3 and 4). -/
theorem NodeTree.Fits.strictTree {T : NodeTree} (h : T.Fits t nn) (hsize : 3 ≤ nn.toNat)
    (hroot : ∃ r, nodeAt t T.index = some r ∧ r.valid = true ∧ r.leaf = false) : StrictTree t nn T.index where
  size := hsize
  rootBelow := h.below _ T.index_mem_indices
  rootNode := hroot
  nodes p n hp := by
    rw [descend_index h.standsIn] at hp
    obtain ⟨U, hU, rfl⟩ := Option.map_eq_some_iff.mp hp
    refine ⟨h.below _ (sub_index_mem hU), ?_⟩
    cases U with
    | leaf n x =>
      obtain ⟨r, hr, hvalid, _, _, hchildless⟩ := h.standsIn.sub hU
      exact ⟨r, hr, hvalid, fun _ => hchildless⟩
    | inner n L R =>
      obtain ⟨⟨r, hr, hvalid, hinner, _⟩, _⟩ := h.standsIn.sub hU
      exact ⟨r, hr, hvalid, fun hleaf => nomatch hinner.symm.trans hleaf⟩
  onePath p q n hp hq := by
    rw [descend_index h.standsIn] at hp hq
    obtain ⟨U, hU, rfl⟩ := Option.map_eq_some_iff.mp hp
    obtain ⟨V, hV, hVU⟩ := Option.map_eq_some_iff.mp hq
    exact path_unique h.nodup hU hV hVU.symm

end

/-- Settles O24: either way there is a tree that fits the array, which the check walks and the paths unfold. -/
theorem treeCheckMeansStrictTree : Obligations.TreeCheckMeansStrictTree := by
  unfold Obligations.TreeCheckMeansStrictTree
  intro t nn root
  simp only [wfTree, Bool.and_eq_true, decide_eq_true_eq, rootInternal_iff, reachOk_root_iff]
  constructor
  · rintro ⟨⟨⟨hsize, _⟩, hroot⟩, T, rfl, hfits⟩
    exact hfits.strictTree hsize hroot
  · intro h
    exact ⟨⟨⟨h.size, h.rootBelow⟩, h.rootNode⟩, h.exists_fits⟩

end Sys2Proof.Machine
end

section
/-! PROOFS. The payload of a frame: the bits behind the sentinel, and what unpacking makes of the encoded stream
(45 R117, R121). -/

namespace Sys2Proof.Machine

/-- The highest set bit of a byte is its sentinel: the bits below it are the payload (45 R117). -/
theorem dropSentinel_bitsOf {w n p : Nat} {v : BitVec w} (hp : p < n) (hset : v.getLsbD p = true)
    (hclear : ∀ q, p < q → v.getLsbD q = false) : dropSentinel (bitsOf n v) = bitsOf p v := by
  induction n with
  | zero => exact absurd hp (Nat.not_lt_zero p)
  | succ n ih =>
    rcases Nat.lt_succ_iff_lt_or_eq.mp hp with hlt | rfl
    · rw [bitsOf, hclear n hlt, dropSentinel, ih hlt]
    · rw [bitsOf, hset, dropSentinel]

/-- Settles O34: a byte of 0 has no sentinel, a later byte none to drop, and any other first byte has its highest set bit. -/
theorem payloadBitsFollowTheSentinel : Obligations.PayloadBitsFollowTheSentinel := by
  unfold Obligations.PayloadBitsFollowTheSentinel
  exact ⟨by decide, fun _ => rfl, fun _ _ => dropSentinel_bitsOf⟩

/-- Behind the zeros and the sentinel of a padding the rest of the bits is the payload (30 R71, 45 R117). -/
theorem dropSentinel_prefixFor (n : Nat) (bits : BitString) : dropSentinel (prefixFor n ++ bits) = bits := by
  rw [prefixFor, List.append_assoc, List.singleton_append, dropSentinel_zeros]

/-- The zeros and the sentinel of a padding are at most a byte (30 R71). -/
theorem prefixFor_padFor_length_le (n : Nat) : (prefixFor (padFor n)).length ≤ 8 := by
  rw [prefixFor_padFor_length]
  exact padFor_le n

/-- The bytes of the encoded stream spell the padding and the payload, with no bit left over (30 R71). -/
theorem flatMap_stream (bits : BitString) : (stream bits).flatMap (bitsOf 8) = prefixFor (padFor bits.length) ++ bits := by
  have hwhole := (packBytes_prefixFor_snd_eq_nil_iff bits.length bits).mpr rfl
  have hspell := (packBytes_spec (prefixFor (padFor bits.length) ++ bits)).1
  rwa [hwhole, List.append_nil] at hspell

/-- A frame that spells a padding of at most a byte and then a payload has that payload (45 R117). -/
theorem unpack_of_flatMap {frame : List Byte} {n : Nat} {bits : BitString}
    (hframe : frame.flatMap (bitsOf 8) = prefixFor n ++ bits) (hshort : (prefixFor n).length ≤ 8) : unpack frame = bits := by
  cases frame with
  | nil =>
    have hlen := congrArg List.length hframe
    rw [List.length_append, prefixFor_length, List.flatMap_nil, List.length_nil] at hlen
    omega
  | cons b frame =>
    rw [List.flatMap_cons] at hframe
    obtain ⟨head, hhead⟩ : prefixFor n <+: bitsOf 8 b :=
      List.prefix_of_prefix_length_le ⟨bits, hframe.symm⟩ ⟨_, rfl⟩ (hshort.trans_eq (bitsOf_length 8 b).symm)
    rw [← hhead, List.append_assoc, List.append_cancel_left_eq] at hframe
    rw [unpack, payloadBits, if_pos rfl, ← hhead, dropSentinel_prefixFor, hframe]

/-- Settles O38: the bytes of the stream spell the padding and the bit string, and unpacking drops the padding. -/
theorem unpackOfTheStream : Obligations.UnpackOfTheStream := fun bits =>
  unpack_of_flatMap (flatMap_stream bits) (prefixFor_padFor_length_le _)

end Sys2Proof.Machine
end

section
/-! PROOFS. The walk of DECODE in a strict tree: along the path to a leaf it emits the leaf's symbol (45 R118, R121). -/

namespace Sys2Proof.Machine

namespace NodeTree

theorem StandsIn.recAt_leaf {t : Nodes} {n : NodeIx} {x : Sym} (h : (leaf n x).StandsIn t) :
    (recAt t n).leaf = true ∧ (recAt t n).sym = x := by
  obtain ⟨r, hr, _, hleaf, hsym, _⟩ := h
  rw [recAt, hr]
  exact ⟨hleaf, hsym⟩

theorem StandsIn.recAt_inner {t : Nodes} {n : NodeIx} {l r : NodeTree} (h : (inner n l r).StandsIn t) :
    (recAt t n).leaf = false := by
  obtain ⟨⟨rec, hrec, _, hinner, _⟩, _⟩ := h
  rw [recAt, hrec]
  exact hinner

/-- An edge leads to the root of the subtree below it. -/
theorem StandsIn.childOf_inner {t : Nodes} {n : NodeIx} {l r : NodeTree} (h : (inner n l r).StandsIn t) (x : Bool) :
    childOf t n x = (if x then r else l).index := by
  obtain ⟨⟨rec, hrec, _, _, hleft, hright⟩, _⟩ := h
  rw [childOf, recAt, hrec]
  cases x
  · exact hleft
  · exact hright

theorem StandsIn.child {t : Nodes} {n : NodeIx} {l r : NodeTree} (h : (inner n l r).StandsIn t) (x : Bool) :
    (if x then r else l).StandsIn t := by
  obtain ⟨_, hl, hr⟩ := h
  cases x
  · exact hl
  · exact hr

/-- Along the path from an internal node to a leaf the walk emits the symbol of the leaf and returns to the root (45 R118). -/
theorem walk_of_sub_leaf {t : Nodes} {root n m : NodeIx} {l r : NodeTree} {x : Sym} {p : BitString} (h : (inner n l r).StandsIn t)
    (hp : (inner n l r).sub p = some (leaf m x)) (k : Nat) : walk t root n k p = ([x.setWidth 8], root, 0) := by
  induction p generalizing n l r k with
  | nil => cases hp
  | cons y p ih =>
    have hsub : (if y then r else l).sub p = some (leaf m x) := hp
    have hchild : (if y then r else l).StandsIn t := h.child y
    rw [walk, h.childOf_inner y]
    generalize (if y then r else l) = C at hsub hchild
    cases C with
    | leaf j z =>
      cases p with
      | nil =>
        cases hsub
        obtain ⟨hleaf, hsym⟩ := hchild.recAt_leaf
        rw [index, if_pos hleaf, hsym]
        rfl
      | cons y' p => cases hsub
    | inner j l' r' =>
      rw [index, if_neg (by rw [hchild.recAt_inner]; nofun)]
      exact ih hchild hsub (k + 1)

end NodeTree

/-- Settles O39: each code is the path to a leaf of its symbol, and its walk ends at the root, where that of the next begins. -/
theorem walkOfTheCodes : Obligations.WalkOfTheCodes := by
  unfold Obligations.WalkOfTheCodes
  intro t nn root code xs hwf _ htraverse hvalid
  obtain ⟨L, R, hfits⟩ := wfTree_iff.mp hwf
  obtain rfl : (NodeTree.inner root L R).codeTable = code := Except.ok.inj (hfits.traverse_eq.symm.trans htraverse)
  induction xs with
  | nil => rfl
  | cons x xs ih =>
    obtain ⟨hx, hxs⟩ := List.forall_mem_cons.mp hvalid
    obtain ⟨p, hp, hcode⟩ := NodeTree.codeTable_of_valid hx
    obtain ⟨_, m, rfl, hsub⟩ := NodeTree.mem_leafPaths_iff.mp hp
    rw [List.flatMap_cons, hcode, entryBits_entryOf _ (hfits.leafPaths_length_le hp), walk_append, List.nil_append,
      NodeTree.walk_of_sub_leaf hfits.standsIn hsub 0, ih hxs]
    rfl

end Sys2Proof.Machine
end

section
/-! PROOFS. DECODE: its beat, its last step, and a whole run over a frame (45 R113 to R120). -/

namespace Sys2Proof.Machine

/-! ### The walk -/

/-- A path of `k` bits passes `k` nodes and as many subtrees beside it that are not in the subtree it leads to (45 R118). -/
theorem NodeTree.two_mul_length_add_indices_le {T U : NodeTree} {p : BitString} (hp : T.sub p = some U) :
    2 * p.length + U.indices.length ≤ T.indices.length := by
  induction p generalizing T with
  | nil => cases T <;> cases hp <;> simp
  | cons x p ih =>
    cases T with
    | leaf n y => cases hp
    | inner n l r =>
      have hchild := ih hp
      have := l.one_le_indices_length
      have := r.one_le_indices_length
      simp only [indices, List.length_cons, List.length_append]
      cases x <;> simp only [Bool.false_eq_true, if_false, if_true] at hchild <;> omega

/-- The walk emits at most one byte for each bit (45 R119). -/
theorem walk_length_le (t : Nodes) (root n : NodeIx) (k : Nat) (xs : BitString) :
    (walk t root n k xs).1.length ≤ xs.length := by
  induction xs generalizing n k with
  | nil => exact Nat.le_refl 0
  | cons x xs ih =>
    rw [walk]
    split_ifs
    · exact Nat.succ_le_succ (ih root 0)
    · exact (ih _ _).trans (Nat.le_succ _)

section
variable {t : Nodes} {nn root n : NodeIx} {k : Nat}

/-- An internal node of a strict tree is at most 126 deep (45 R118). -/
theorem InternalAt.depth_le (h : InternalAt t root n k) (hwf : wfTree t nn root = true) : k ≤ 126 := by
  obtain ⟨L, R, hfits⟩ := wfTree_iff.mp hwf
  obtain ⟨p, r, hp, rfl, hr, hinner⟩ := h
  rw [← show (NodeTree.inner root L R).index = root from rfl, NodeTree.descend_index hfits.standsIn] at hp
  obtain ⟨U, hU, rfl⟩ := Option.map_eq_some_iff.mp hp
  have hdeep := NodeTree.two_mul_length_add_indices_le hU
  have hnodes := hfits.length_le
  have hnn := nn.isLt
  cases U with
  | leaf m x =>
    obtain ⟨r', hr', _, hleaf, _⟩ := hfits.standsIn.sub hU
    obtain rfl : r = r' := Option.some.inj (hr.symm.trans hr')
    cases hinner.symm.trans hleaf
  | inner m l r' =>
    have := l.one_le_indices_length
    have := r'.one_le_indices_length
    rw [NodeTree.indices, List.length_cons, List.length_append] at hdeep
    omega

/-- An edge of an internal node leads to a node of the tree (45 R118). -/
theorem InternalAt.exists_child (h : InternalAt t root n k) (hwf : wfTree t nn root = true) (x : Bool) :
    ∃ r r', nodeAt t n = some r ∧ nodeAt t (if x then r.right else r.left) = some r' ∧
      childOf t n x = (if x then r.right else r.left) ∧ recAt t (childOf t n x) = r' := by
  obtain ⟨p, r, hp, _, hr, hinner⟩ := h
  have hchild : descend t root (p ++ [x]) = some (if x then r.right else r.left) := by
    rw [descend_append, hp]
    simp [descend, hr, hinner]
  obtain ⟨r', hr'⟩ := exists_nodeAt_of_descend hwf hchild
  have hedge : childOf t n x = (if x then r.right else r.left) := by rw [childOf, recAt, hr, Option.getD_some]
  exact ⟨r, r', hr, hr', hedge, by rw [hedge, recAt, hr', Option.getD_some]⟩

/-- The walk from an internal node ends at an internal node, at the depth it counts (45 R118, R119). -/
theorem InternalAt.walk (h : InternalAt t root n k) (hwf : wfTree t nn root = true) (xs : BitString) :
    InternalAt t root (walk t root n k xs).2.1 (walk t root n k xs).2.2 := by
  induction xs generalizing n k with
  | nil => exact h
  | cons x xs ih =>
    obtain ⟨r, r', hr, hr', hedge, hrec⟩ := h.exists_child hwf x
    rw [Machine.walk, hrec]
    cases hleaf : r'.leaf with
    | true => exact ih (internalAt_root hwf)
    | false =>
      rw [hedge]
      exact ih (internalAt_child hwf h hr hr' hleaf).1

end

/-! ### The beat -/

/-- The tree that `c` selects is strict, and the walker is at an internal node whose depth is the pending bits (45 R118). -/
structure Walking (nn : NodeIx) (s : State) (c : Cur) : Prop where
  tree : wfTree (treeNodes c.tsrc s) nn (treeRoot c.tsrc s) = true
  walker : InternalAt (treeNodes c.tsrc s) (treeRoot c.tsrc s) c.wnode c.pend.toNat

/-- The walk of some bits from where the walker of `c` is. -/
def walkFrom (s : State) (c : Cur) (bits : BitString) : List Byte × NodeIx × Nat :=
  walk (treeNodes c.tsrc s) (treeRoot c.tsrc s) c.wnode c.pend.toNat bits

/-- The record with its walker where a walk ends. -/
def walkedTo (c : Cur) (w : List Byte × NodeIx × Nat) : Cur := { c with wnode := w.2.1, pend := BitVec.ofNat 8 w.2.2 }

section
variable {nn : NodeIx} {s : State} {c : Cur}

/-- The walker's depth fits PEND wherever a walk ends (45 R118). -/
theorem Walking.pend_walkedTo (h : Walking nn s c) (bits : BitString) :
    (walkedTo c (walkFrom s c bits)).pend.toNat = (walkFrom s c bits).2.2 := by
  have hdepth := (h.walker.walk h.tree bits).depth_le h.tree
  exact (BitVec.toNat_ofNat ..).trans (Nat.mod_eq_of_lt (Nat.lt_of_le_of_lt hdepth (by decide)))

/-- `WalkBit` on each bit is the walk (45 R118, R119). -/
theorem Walking.walkBits_eq (h : Walking nn s c) (bits : BitString) :
    walkBits bits c s = .ok (walkedTo c (walkFrom s c bits), emitAll s (walkFrom s c bits).1) := by
  induction bits generalizing s c with
  | nil => simp [walkBits, walkedTo, walkFrom, walk, emitAll]
  | cons x xs ih =>
    obtain ⟨r, r', hr, hr', hedge, hrec⟩ := h.walker.exists_child h.tree x
    rw [walkBits, walkFrom, walk, hrec, hedge]
    cases hleaf : r'.leaf with
    | true =>
      rw [walkBit_leaf hr hr' hleaf]
      exact ih (s := emit s (r'.sym.setWidth 8)) (c := { c with wnode := treeRoot c.tsrc s, pend := 0#8 })
        ⟨h.tree, internalAt_root h.tree⟩
    | false =>
      obtain ⟨hchild, hdepth⟩ := internalAt_child h.tree h.walker hr hr' hleaf
      have hpend : (c.pend + 1#8).toNat = c.pend.toNat + 1 := BitVec.toNat_add_of_lt (Nat.lt_succ_of_lt hdepth)
      rw [walkBit_inner hr hr' hleaf]
      have hrest := ih (c := { c with wnode := if x then r.right else r.left, pend := c.pend + 1#8 })
        ⟨h.tree, hpend ▸ hchild⟩
      rw [walkFrom, hpend] at hrest
      exact hrest

end

section
variable {nn : NodeIx} {s : State} {c : Cur} {b : Byte} {frame rest : List Byte}

/-- The record of DECODE after the beat of the byte `b` (45 R119). -/
def beatCur (s : State) (c : Cur) (b : Byte) : Cur :=
  { walkedTo c (walkFrom s c (payloadBits c.first b)) with rem := c.rem - 1#32, first := false }

/-- The state after the beat of the byte `b`, `rest` being left (45 R119). -/
def beatState (s : State) (c : Cur) (b : Byte) (rest : List Byte) : State :=
  emitAll (tookByte s rest (beatCur s c b)) (walkFrom s c (payloadBits c.first b)).1

/-- A beat of DECODE takes its byte, emits the bytes of the walk and leaves the walker where the walk ends (45 R119). -/
theorem exec_decode_beat (h : AtByte s c .decode b rest) (hwalk : Walking nn s c) :
    exec .decode s = .next (beatState s c b rest) := by
  have hbeat := Walking.walkBits_eq (nn := nn) (s := (takeBeat c rest s).2)
    (c := { (takeBeat c rest s).1 with first := false }) ⟨hwalk.tree, hwalk.walker⟩ (payloadBits c.first b)
  exact ((command_running h.running h.op).trans (coreStep_beat h.rem h.offered hbeat)).trans (congrArg _ (emitAll_cur ..))

theorem Walking.beatCur_pend (h : Walking nn s c) (b : Byte) :
    (beatCur s c b).pend.toNat = (walkFrom s c (payloadBits c.first b)).2.2 :=
  h.pend_walkedTo _

/-- A walk in the state after a beat is in the tree that the command selected before it. -/
theorem walkFrom_beatState (bits : BitString) :
    walkFrom (beatState s c b rest) (beatCur s c b) bits =
      walk (treeNodes c.tsrc s) (treeRoot c.tsrc s) (beatCur s c b).wnode (beatCur s c b).pend.toNat bits := by
  rw [beatState, emitAll_eq]
  rfl

/-- After a beat the walker is again at an internal node of the strict tree (45 R118). -/
theorem Walking.beat (h : Walking nn s c) (b : Byte) (rest : List Byte) :
    Walking nn (beatState s c b rest) (beatCur s c b) := by
  rw [beatState, emitAll_eq]
  exact ⟨h.tree, h.beatCur_pend b ▸ h.walker.walk h.tree _⟩

/-- The walk goes on after a beat from where that of the beat ended (45 R119). -/
theorem Walking.walkFrom_append (h : Walking nn s c) (b : Byte) (rest : List Byte) (bits : BitString) :
    walkFrom s c (payloadBits c.first b ++ bits) =
      ((walkFrom s c (payloadBits c.first b)).1 ++ (walkFrom (beatState s c b rest) (beatCur s c b) bits).1,
        (walkFrom (beatState s c b rest) (beatCur s c b) bits).2) := by
  rw [walkFrom_beatState, h.beatCur_pend, walkFrom, walk_append]
  rfl

end

/-- Settles O35: the beat is the walk of the payload bits, of which a byte has at most 8, in a tree at most 126 deep. -/
theorem decodeBeatWalksTheBits : Obligations.DecodeBeatWalksTheBits := by
  unfold Obligations.DecodeBeatWalksTheBits
  intro s c b rest nn hbyte t r hwf hwalker w
  have hend : InternalAt t r w.2.1 w.2.2 := hwalker.walk hwf _
  refine ⟨(exec_decode_beat (nn := nn) hbyte ⟨hwf, hwalker⟩).trans (congrArg _ (emitAll_eq ..)), ?_, hend, hend.depth_le hwf⟩
  exact (walk_length_le ..).trans (payloadBits_length _ _)

/-! ### The last step -/

/-- Settles O36: the last step keeps the pending bits in TRAIL, and they are an error unless one came before. -/
theorem decodeFinishReportsTheTrail : Obligations.DecodeFinishReportsTheTrail := by
  unfold Obligations.DecodeFinishReportsTheTrail
  intro s c hend
  obtain ⟨e, hfinish, hwhole, hpending⟩ := decodeFinish_eq c s
  have he : e = if c.err = .none ∧ c.pend ≠ 0#8 then .trailing else c.err := by
    by_cases hpend : c.pend = 0#8
    · rw [hwhole hpend, if_neg fun h => h.2 hpend]
    · simp [hpending hpend, hpend]
  rw [← he]
  exact (command_running hend.running hend.op).trans (coreStep_finish hend.rem hfinish)

/-! ### A whole frame -/

/-- The payload bits of the rest of a frame, `first` telling whether none of it is taken yet (45 R117). -/
def frameBits (first : Bool) (frame : List Byte) : BitString :=
  if first then unpack frame else frame.flatMap (bitsOf 8)

theorem frameBits_nil (first : Bool) : frameBits first [] = [] := by
  cases first <;> rfl

theorem frameBits_cons (first : Bool) (b : Byte) (frame : List Byte) :
    frameBits first (b :: frame) = payloadBits first b ++ frameBits false frame := by
  cases first <;> rfl

/-- `s` after the rest of DECODE: `n` bytes consumed, `rest` left, `out` emitted, `k` bits pending (45 R119, R120; 40 R78). -/
def afterDecode (s : State) (rest : List Byte) (n : Word) (out : List Byte) (k : Nat) : State :=
  { completed s (if k = 0 then .none else .trailing) with
    inq := rest, inConsumed := s.inConsumed + n, outq := s.outq ++ out, outCount := s.outCount + BitVec.ofNat 64 out.length,
    trail := BitVec.ofNat 8 k }

/-- With no byte left to take, the rest of DECODE is its completion with the pending bits in TRAIL (45 R120). -/
theorem completed_trail_eq (s : State) (k : BitVec 8) :
    { completed s (if k.toNat = 0 then .none else .trailing) with trail := k } = afterDecode s s.inq 0#32 [] k.toNat := by
  rw [afterDecode, List.append_nil, List.length_nil, BitVec.add_zero, BitVec.add_zero, BitVec.ofNat_toNat, BitVec.setWidth_eq]
  rfl

/-- A byte taken by a beat is one of those the rest of DECODE would have taken, and what it emits comes first. -/
theorem afterDecode_tookByte (s : State) (c : Cur) (rest rest' : List Byte) (n : Word) (bs out : List Byte) (k : Nat) :
    afterDecode (emitAll (tookByte s rest' c) bs) rest (n - 1#32) out k = afterDecode s rest n (bs ++ out) k :=
  congrArg (fun u : State => { u with trail := BitVec.ofNat 8 k })
    (afterEncode_tookByte s c rest rest' n bs out (if k = 0 then .none else .trailing))

section
variable {nn : NodeIx} {s : State} {c : Cur} {frame rest : List Byte}

/-- From a strict tree DECODE walks the payload bits of the rest of its frame and reports the bits left pending (45 R113). -/
theorem turns_decode_frame (h : TakingFrame .decode s c frame rest) (hwalk : Walking nn s c) (herr : c.err = .none) :
    turns (frame.length + 1) s =
      .next (afterDecode s rest c.rem (walkFrom s c (frameBits c.first frame)).1
        (walkFrom s c (frameBits c.first frame)).2.2) := by
  induction frame generalizing s c with
  | nil =>
    have hrest : s.inq = rest := h.offered
    have hcode : (if c.err = .none ∧ c.pend ≠ 0#8 then .trailing else c.err) =
        if c.pend.toNat = 0 then ErrCode.none else .trailing := by
      by_cases hpend : c.pend = 0#8
      · simp [herr, hpend]
      · have hne : c.pend.toNat ≠ 0 := fun hzero => hpend (BitVec.eq_of_toNat_eq hzero)
        simp [herr, hpend, hne]
    rw [List.length_nil, h.turns_succ 0 (decodeFinishReportsTheTrail s c h.atEnd), hcode, h.atEnd.rem, ← hrest,
      frameBits_nil]
    exact congrArg _ (completed_trail_eq s c.pend)
  | cons b frame ih =>
    have hnext : TakingFrame .decode (tookByte s (frame ++ rest) (beatCur s c b)) (beatCur s c b) frame rest :=
      { h.tookByte c.err c.acc with running := rfl }
    rw [List.length_cons, h.turns_succ _ (exec_decode_beat h.atByte hwalk), frameBits_cons,
      hwalk.walkFrom_append b (frame ++ rest)]
    exact (ih (hnext.emitAll _) (hwalk.beat b _) herr).trans (congrArg _ (afterDecode_tookByte s _ rest _ c.rem _ _ _))

end

/-! ### The statement -/

/-- The record of DECODE at its accepted issue, the walker at the root (45 R116). -/
def decodeCur (s : State) : Cur := { freshCur s .decode s.inLen with wnode := treeRoot s.tsrc s }

/-- What the rest of DECODE leaves, seen from the state before its issue. -/
theorem afterDecode_issued (s : State) (c : Cur) (rest out : List Byte) (k : Nat) :
    afterDecode (issued s .decode c) rest s.inLen out k =
      { completed (issued s .decode (freshCur s .decode s.inLen)) (if k = 0 then .none else .trailing) with
        inq := rest, inConsumed := s.inLen, outq := s.outq ++ out, outCount := BitVec.ofNat 64 out.length,
        trail := BitVec.ofNat 8 k } := by
  simp [afterDecode, completed, issued]

/-- Settles O37: DECODE's issue leaves it taking the whole frame with the walker at the root, which is an internal node. -/
theorem decodeOfAFrame : Obligations.DecodeOfAFrame := by
  unfold Obligations.DecodeOfAFrame
  intro s frame rest nn hready hphase hwf hoffered hlength w
  obtain ⟨_, _, _, _, _, hissue⟩ := acceptedIssueStartsTheCommand s hready.idle
  have htaking : TakingFrame .decode (issued s .decode (decodeCur s)) (decodeCur s) frame rest :=
    ⟨rfl, rfl, hready.high, hready.quiet, hoffered, hlength⟩
  have hwalk : Walking nn (issued s .decode (decodeCur s)) (decodeCur s) := ⟨hwf, internalAt_root hwf⟩
  rw [← afterDecode_issued s (decodeCur s)]
  exact (runCommand_of_exec (hissue hphase) _).trans (turns_decode_frame htaking hwalk rfl)

end Sys2Proof.Machine
end

section
/-! PROOFS. Scripts of the host: no command reads the schedule, so a script of the host runs as its transactions and commands do,
one after the other (20 R57, 30 R73). -/

namespace Sys2Proof.Machine

/-! ### The commands do not read the schedule -/

/-- The state with the schedule `h` in place of its own. -/
def under (h : List HostMove) (s : State) : State := { s with host := h }

/-- A Beat or Body that has a meaning has the same one under every schedule, and leaves the schedule. -/
def IgnoresHost (f : Cur → State → Except Fault (Cur × State)) : Prop :=
  ∀ c s q, f c s = .ok q → ∀ h, f c (under h s) = .ok (q.1, under h q.2)

theorem emitAll_host (s : State) (bs : List Byte) (h : List HostMove) :
    emitAll (under h s) bs = under h (emitAll s bs) := by
  rw [emitAll_eq, emitAll_eq]
  rfl

theorem clearBody_ignoresHost : IgnoresHost clearBody := by
  rintro c s q hq h
  cases hq
  rfl

theorem noBeat_ignoresHost (b : Byte) : IgnoresHost (noBeat b) := by
  rintro c s q hq h
  cases hq
  rfl

theorem countBeat_ignoresHost (b : Byte) : IgnoresHost (countBeat b) := by
  intro c s q hq h
  unfold countBeat at hq ⊢
  split_ifs at hq ⊢ <;> cases hq <;> rfl

theorem countFinish_ignoresHost : IgnoresHost countFinish := by
  intro c s q hq h
  unfold countFinish at hq ⊢
  split_ifs at hq ⊢ <;> cases hq <;> rfl

theorem buildTreeBody_ignoresHost : IgnoresHost buildTreeBody := by
  intro c s q hq h
  obtain ⟨r, htgt, hcur, hstate⟩ := buildTreeBody_ok hq
  simp [buildTreeBody, under, htgt, hcur, hstate]

theorem buildTableBody_ignoresHost : IgnoresHost buildTableBody := by
  intro c s q hq h
  obtain ⟨code, htraverse, hcur, hstate⟩ := buildTableBody_ok hq
  simp [buildTableBody, under, htraverse, hcur, hstate]

theorem encodeBeat_ignoresHost (b : Byte) : IgnoresHost (encodeBeat b) := by
  intro c s q hq h
  have hcode : (under h s).code = s.code := rfl
  simp only [encodeBeat, packOut, emitAll_host, hcode] at hq ⊢
  split_ifs at hq ⊢ <;> cases hq <;> rfl

theorem encodeFinish_ignoresHost : IgnoresHost encodeFinish := by
  intro c s q hq h
  by_cases herr : c.err = .none
  · by_cases hnil : (packBytes c.acc).2 = []
    · simp only [encodeFinish, packOut, herr, hnil, emitAll_host, if_true, Except.ok.injEq] at hq ⊢
      subst hq
      rfl
    · simp only [encodeFinish, packOut, herr, hnil, emitAll_host, if_true, if_false, Except.ok.injEq] at hq ⊢
      subst hq
      rfl
  · simp only [encodeFinish, herr, if_false, Except.ok.injEq] at hq ⊢
    subst hq
    rfl

theorem walkBit_ignoresHost (x : Bool) : IgnoresHost (walkBit x) := by
  intro c s q hq h
  cases hr : nodeAt (treeNodes c.tsrc s) c.wnode with
  | none => simp [walkBit, hr] at hq
  | some r =>
    cases hr' : nodeAt (treeNodes c.tsrc s) (if x then r.right else r.left) with
    | none => simp [walkBit, hr, hr'] at hq
    | some r' =>
      cases hleaf : r'.leaf with
      | true =>
        cases (walkBit_leaf hr hr' hleaf).symm.trans hq
        exact walkBit_leaf (s := under h s) hr hr' hleaf
      | false =>
        cases (walkBit_inner hr hr' hleaf).symm.trans hq
        exact walkBit_inner (s := under h s) hr hr' hleaf

theorem walkBits_ignoresHost (bits : BitString) : IgnoresHost (walkBits bits) := by
  intro c s q hq h
  induction bits generalizing c s with
  | nil => cases hq; rfl
  | cons x xs ih =>
    rw [walkBits] at hq ⊢
    cases hbit : walkBit x c s with
    | error f => rw [hbit] at hq; cases hq
    | ok p =>
      rw [hbit] at hq
      rw [walkBit_ignoresHost x c s p hbit h]
      exact ih _ _ hq

theorem decodeFinish_ignoresHost : IgnoresHost decodeFinish := by
  rintro c s q hq h
  cases hq
  rfl

section
variable {i : Instr} {start : Cur → State → Cur × State} {beat : Byte → Cur → State → Except Fault (Cur × State)}
  {finish : Cur → State → Except Fault (Cur × State)} {s t : State}

/-- An issue does not read the schedule when its Start does not (40 R74). -/
theorem issue_host (hstart : ∀ c s h, start c (under h s) = ((start c s).1, under h (start c s).2))
    (h : List HostMove) : issue i start (under h s) = under h (issue i start s) := by
  have hsame : issueCheck i (beginIssue (opcode i) (under h s)) = issueCheck i (beginIssue (opcode i) s) := by
    cases i <;> rfl
  by_cases hcheck : issueCheck i (beginIssue (opcode i) s) = .none
  · have hbegin : beginIssue (opcode i) (under h s) = under h (beginIssue (opcode i) s) := rfl
    have hcur : newCur i (under h (beginIssue (opcode i) s)) = newCur i (beginIssue (opcode i) s) := rfl
    rw [issue_accepted hcheck, issue_accepted (hsame.trans hcheck), hbegin, hcur, hstart]
    rfl
  · rw [issue_rejected hcheck, issue_rejected fun hnone => hcheck (hsame.symm.trans hnone), hsame]
    rfl

/-- A command does not read the schedule when its parts do not (40 R74, R76). -/
theorem command_host (hstart : ∀ c s h, start c (under h s) = ((start c s).1, under h (start c s).2))
    (hbeat : ∀ b, IgnoresHost (beat b)) (hfinish : IgnoresHost finish) (hnext : command i start beat finish s = .next t)
    (h : List HostMove) : command i start beat finish (under h s) = .next (under h t) := by
  rcases command_cases hnext with ⟨hidle, rfl⟩ | ⟨c, hcur, hop, rfl⟩ | ⟨c, hcur, hop, hcore⟩
  · rw [command_issue (s := under h s) hidle, issue_host hstart]
  · simp [command, under, hcur, hop]
  · rw [command_running (s := under h s) hcur hop]
    rcases coreStep_cases hcore with ⟨hrem, p, hp, rfl⟩ | ⟨hrem, hnone, rfl⟩ | ⟨hrem, b, rest, q, hinq, hq, rfl⟩
    · exact coreStep_finish hrem (hfinish c s p hp h)
    · exact coreStep_wait (s := under h t) hrem hnone
    · exact coreStep_beat (s := under h s) hrem hinq (hbeat b _ _ q hq h)

end

/-- No command reads the schedule or writes it. -/
theorem exec_host {i : Instr} {s t : State} (hexec : exec i s = .next t) (h : List HostMove) :
    exec i (under h s) = .next (under h t) := by
  cases i with
  | clear => exact command_host (fun _ _ _ => rfl) noBeat_ignoresHost clearBody_ignoresHost hexec h
  | count => exact command_host (fun _ _ _ => rfl) countBeat_ignoresHost countFinish_ignoresHost hexec h
  | buildTree => exact command_host (fun _ _ _ => rfl) noBeat_ignoresHost buildTreeBody_ignoresHost hexec h
  | buildTable => exact command_host (fun _ _ _ => rfl) noBeat_ignoresHost buildTableBody_ignoresHost hexec h
  | encode => exact command_host (fun _ _ _ => rfl) encodeBeat_ignoresHost encodeFinish_ignoresHost hexec h
  | decode =>
    refine command_host (fun _ _ _ => rfl) (fun b c s q hq => ?_) decodeFinish_ignoresHost hexec h
    exact walkBits_ignoresHost (payloadBits c.first b) { c with first := false } s q hq

/-- The core's turn does not read the schedule or write it. -/
theorem coreTurn_host {s t : State} (hturn : coreTurn s = .next t) (h : List HostMove) :
    coreTurn (under h s) = .next (under h t) := by
  cases hcur : s.cur with
  | none =>
    have hidle {s : State} (hcur : s.cur = none) : coreTurn s = .next s := by rw [coreTurn, hcur]
    cases (hidle hcur).symm.trans hturn
    exact hidle (s := under h s) hcur
  | some c =>
    cases hhigh : s.rstN with
    | true =>
      rw [coreTurn_running hhigh hcur] at hturn
      exact (coreTurn_running (s := under h s) hhigh hcur).trans (exec_host hturn h)
    | false =>
      have hlow {s : State} (hcur : s.cur = some c) (hhigh : s.rstN = false) : coreTurn s = .next s := by
        rw [coreTurn, hcur]
        exact if_neg (Bool.eq_false_iff.mp hhigh)
      cases (hlow hcur hhigh).symm.trans hturn
      exact hlow (s := under h s) hcur hhigh

/-! ### Scripts -/

/-- The moves of `script` lead from `s` to `t`, whatever moves follow; the schedules of `s` and `t` do not count. -/
def Runs (script : List HostMove) (s t : State) : Prop :=
  ∀ rest, turns script.length (under (script ++ rest) s) = .next (under rest t)

theorem turns_succ {s t : State} (h : step s = .next t) (k : Nat) : turns (k + 1) s = turns k t := by
  rw [turns, h]

/-- Runs of at least one step begin with a step. -/
theorem exists_step {s t : State} {k : Nat} (h : turns (k + 1) s = .next t) : ∃ u, step s = .next u ∧ turns k u = .next t := by
  rw [turns] at h
  cases hstep : step s with
  | next u => rw [hstep] at h; exact ⟨u, rfl, h⟩
  | fault f => rw [hstep] at h; cases h
  | refused r => rw [hstep] at h; cases h

section
variable {s t u : State}

theorem Runs.nil (s : State) : Runs [] s s := fun _ => rfl

theorem Runs.append {a b : List HostMove} (ha : Runs a s t) (hb : Runs b t u) : Runs (a ++ b) s u := by
  intro rest
  rw [List.length_append, List.append_assoc, turns_add _ _ _ _ (ha (b ++ rest))]
  exact hb rest

/-- A script begins with its first move. -/
theorem Runs.cons {m : HostMove} {script : List HostMove}
    (hmove : ∀ rest, step (under (m :: rest) s) = .next (under rest t)) (hscript : Runs script t u) :
    Runs (m :: script) s u := by
  intro rest
  exact (turns_succ (hmove (script ++ rest)) script.length).trans (hscript rest)

/-- Turns left to the core do what as many turns do with no move to come. -/
theorem runs_core {k : Nat} (hquiet : s.host = []) (h : turns k s = .next t) : Runs (List.replicate k .core) s t := by
  induction k generalizing s with
  | zero => cases h; exact .nil _
  | succ k ih =>
    obtain ⟨u, hstep, hturns⟩ := exists_step h
    have hturn : coreTurn s = .next u := (step_quiet hquiet).symm.trans hstep
    have hquiet' : u.host = [] := by
      rcases coreTurn_cases hturn with rfl | ⟨c, _, _, hexec⟩
      · exact hquiet
      · exact (exec_frame hexec).host.trans hquiet
    refine .cons (fun rest => ?_) (ih hquiet' hturns)
    exact (step_move (s := under (.core :: rest) s) rfl).trans (coreTurn_host hturn rest)

/-- The state in which an accepted write to CMD issues its command, no move being left to come (40 R74). -/
def cmdWritten (s : State) : State := under [] { s with answer := some (.wrote .okay) }

/-- The host writes a command's word and leaves it its turns: the command runs (30 R73). -/
theorem runs_command {i : Instr} {n : Nat} (hidle : s.cur = none) (hhigh : s.rstN = true)
    (h : runCommand i (n + 1) (cmdWritten s) = .next t) : Runs (commandScript i n) s t := by
  rw [runCommand] at h
  cases hexec : exec i (cmdWritten s) with
  | fault f => rw [hexec] at h; cases h
  | refused r => rw [hexec] at h; cases h
  | next u =>
    rw [hexec] at h
    refine .cons (fun rest => ?_) (runs_core (exec_frame hexec).host h)
    exact (stepRunsTheWrittenCommand (under (.write 0x0008#14 .word (encode i) :: rest) s) (encode i) i rest hhigh hidle rfl
      (decode_encode i)).trans (exec_host hexec rest)

/-- A command without a frame runs in its issue and one core step (40 R74, R76). -/
theorem runs_frameless {i : Instr} {c : Cur} (hidle : s.cur = none) (hhigh : s.rstN = true) (hop : c.op = i)
    (hissue : exec i (cmdWritten s) = .next (issued (cmdWritten s) i c))
    (hcore : exec i (issued (cmdWritten s) i c) = .next t) : Runs (commandScript i 0) s t := by
  have hstep : step (issued (cmdWritten s) i c) = exec c.op (issued (cmdWritten s) i c) :=
    (stepRunsTheCommandInProgress (issued (cmdWritten s) i c) c hhigh rfl).1 rfl
  exact runs_command hidle hhigh ((runCommand_of_exec hissue 1).trans (turns_succ (hstep.trans (hop ▸ hcore)) 0))

/-- The host offers bytes: they stand in INQ (20 R54). -/
theorem runs_offer (s : State) (frame : List Byte) : Runs (frame.map .offer) s { s with inq := s.inq ++ frame } := by
  induction frame generalizing s with
  | nil => rw [List.append_nil]; exact .nil s
  | cons b frame ih =>
    have hrest := ih { s with inq := s.inq ++ [b] }
    rw [List.append_assoc] at hrest
    exact .cons (t := { s with inq := s.inq ++ [b] }) (fun rest => step_move (s := under (.offer b :: rest) s) rfl) hrest

/-- `s` with a frame announced and offered (30 R73). -/
def offered (s : State) (frame : List Byte) : State :=
  { s with answer := some (.wrote .okay), inLen := BitVec.ofNat 32 frame.length, inq := s.inq ++ frame }

/-- The host writes IN_LEN and offers the frame (30 R73). -/
theorem runs_frame (hhigh : s.rstN = true) (frame : List Byte) : Runs (frameScript frame) s (offered s frame) := by
  refine .cons (fun rest => ?_)
    (runs_offer { s with answer := some (.wrote .okay), inLen := BitVec.ofNat 32 frame.length } frame)
  obtain ⟨_, _, _, hinLen, _⟩ := legalWritesSetTheRegister
    (under (.write 0x0010#14 .word (BitVec.ofNat 32 frame.length) :: rest) s) (BitVec.ofNat 32 frame.length) rest hhigh
  exact hinLen rfl

/-- `s` with the tree source selected (10 R17). -/
def selected (s : State) (src : Bool) : State :=
  { s with answer := some (.wrote .okay), tsrc := src, irqEn := false }

/-- The host writes CTRL (20 R48). -/
theorem step_select (hhigh : s.rstN = true) (src : Bool) (rest : List HostMove) :
    step (under (.write 0x0004#14 .word (if src then 1#32 else 0#32) :: rest) s) = .next (under rest (selected s src)) := by
  obtain ⟨hctrl, _⟩ := legalWritesSetTheRegister
    (under (.write 0x0004#14 .word (if src then 1#32 else 0#32) :: rest) s) (if src then 1#32 else 0#32) rest hhigh
  rw [hctrl rfl]
  cases src <;> rfl

end

end Sys2Proof.Machine
end

section
/-! PROOFS. The round trip: the state after each command of the host's scripts, from an empty data path to the frame decoded
(45 R121, 70 R145). -/

namespace Sys2Proof.Machine

/-! ### Symbols and their bytes -/

/-- The frame of a list of symbols. -/
def bytesOf (xs : List Sym) : List Byte := xs.map fun x => x.setWidth 8

/-- Bytes below 128 are the bytes of symbols (00 R5). -/
theorem exists_bytesOf {frame : List Byte} (h : ∀ b ∈ frame, b.toNat < 128) : ∃ xs, frame = bytesOf xs := by
  refine ⟨frame.map fun b => b.setWidth 7, ?_⟩
  rw [bytesOf, List.map_map]
  exact ((List.map_congr_left fun b hb => ((setWidth_eq_iff (h b hb) _).mp rfl).symm).trans (List.map_id frame)).symm

theorem toNat_setWidth_lt (x : Sym) : (x.setWidth 8 : Byte).toNat < 128 := by
  rw [BitVec.toNat_setWidth]
  omega

/-- The byte of a symbol has the symbol in its low bits (00 R5). -/
theorem setWidth_setWidth_sym (x : Sym) : (x.setWidth 8).setWidth 7 = x :=
  ((setWidth_eq_iff (toNat_setWidth_lt x) x).mpr rfl).symm

theorem count_bytesOf (xs : List Sym) (x : Sym) : (bytesOf xs).count (x.setWidth 8) = xs.count x :=
  List.count_map_of_injective xs _ (Function.LeftInverse.injective setWidth_setWidth_sym) x

theorem lt_of_mem_bytesOf {xs : List Sym} {b : Byte} (h : b ∈ bytesOf xs) : b.toNat < 128 := by
  obtain ⟨x, _, rfl⟩ := List.mem_map.mp h
  exact toNat_setWidth_lt x

/-- The codes of a list of symbols, one after the other (44 R111's S). -/
def codesOf (code : Vector CodeEntry 128) (xs : List Sym) : BitString := xs.flatMap fun x => entryBits (codeAt code x)

theorem flatMap_codeOf (code : Vector CodeEntry 128) (xs : List Sym) : (bytesOf xs).flatMap (codeOf code) = codesOf code xs := by
  rw [bytesOf, List.flatMap_map, codesOf]
  congr 1
  funext x
  rw [codeOf, setWidth_setWidth_sym]

theorem packable_of_mem_bytesOf {code : Vector CodeEntry 128} {xs : List Sym} (h : ∀ x ∈ xs, (codeAt code x).valid = true)
    {b : Byte} (hb : b ∈ bytesOf xs) : packable code b = true := by
  have hlt := lt_of_mem_bytesOf hb
  obtain ⟨x, hx, rfl⟩ := List.mem_map.mp hb
  rw [packable, setWidth_setWidth_sym, h x hx, decide_eq_true hlt]
  rfl

/-- A sum over a list of symbols is one over all symbols, each as often as it is in the list. -/
theorem sum_map_eq_sum_symbols (xs : List Sym) (f : Sym → Nat) :
    (xs.map f).sum = (symbols.map fun x => xs.count x * f x).sum := by
  calc (xs.map f).sum = ∑ x ∈ xs.toFinset, xs.count x * f x := Finset.sum_list_map_count xs f
    _ = ∑ x ∈ symbols.toFinset, xs.count x * f x := by
      refine Finset.sum_subset (fun x _ => List.mem_toFinset.mpr (mem_symbols x)) fun x _ hx => ?_
      rw [List.count_eq_zero_of_not_mem (mt List.mem_toFinset.mpr hx), Nat.zero_mul]
    _ = (symbols.map fun x => xs.count x * f x).sum := List.sum_toFinset _ symbols_nodup

/-- Where FREQ counts the symbols, BITLEN's number is the length of their codes (43 R105). -/
theorem length_codesOf {freq : Vector Word 128} {xs : List Sym} (code : Vector CodeEntry 128)
    (h : ∀ x, (freqAt freq x).toNat = xs.count x) : (codesOf code xs).length = payloadLength freq code := by
  simp only [codesOf, List.length_flatMap, entryBits, bitsOf_length, payloadLength, h]
  exact sum_map_eq_sum_symbols xs fun x => (codeAt code x).len.toNat

/-! ### Encoding -/

/-- No command in progress, rst_n high, no byte offered. -/
structure AtRest (s : State) : Prop where
  idle : s.cur = none
  high : s.rstN = true
  noInput : s.inq = []

/-- COUNT has counted the symbols, and nothing is emitted (41 R83). -/
structure Counted (s : State) (xs : List Sym) : Prop extends AtRest s where
  noOutput : s.outq = []
  phase : s.phase = .freqDone
  total : s.total.toNat = xs.length
  counts : ∀ x, (freqAt s.freq x).toNat = xs.count x

/-- The tree of the symbols stands in NODE (42 R98, 43 R103). -/
structure HasTree (s : State) (xs : List Sym) : Prop extends AtRest s where
  ready : s.phase = .treeBuilt ∨ s.phase = .tableReady
  strict : ∃ nn, wfTree s.node nn s.root = true
  distinct : DistinctLeaves s.node s.root
  leaves : ∀ code, traverse s.node s.root = .ok code → ∀ x ∈ xs, (codeAt code x).valid = true

/-- BUILD_TREE has built the tree of the symbols counted (42 R89). -/
structure Built (s : State) (xs : List Sym) : Prop extends HasTree s xs where
  noOutput : s.outq = []
  counts : ∀ x, (freqAt s.freq x).toNat = xs.count x

/-- BUILD_TABLE has written the codes of the tree and the length of the payload (43 R101). -/
structure Tabled (s : State) (xs : List Sym) : Prop extends HasTree s xs where
  noOutput : s.outq = []
  phase : s.phase = .tableReady
  table : traverse s.node s.root = .ok s.code
  bitlen : s.bitlen.toNat = (codesOf s.code xs).length
  pad : s.pad.toNat = padFor s.bitlen.toNat

/-- ENCODE has emitted the encoded stream of the symbols without error (44 R107). -/
structure Encoded (s : State) (xs : List Sym) : Prop extends HasTree s xs where
  done : s.done = true
  errcode : s.errcode = .none
  table : traverse s.node s.root = .ok s.code
  output : s.outq = stream (codesOf s.code xs)

section
variable {s : State} {xs : List Sym} {frame : List Byte}

/-- A command finds the frame that the host offered at rest. -/
theorem AtRest.ready_offered (h : AtRest s) (frame : List Byte) : Ready (cmdWritten (offered s frame)) :=
  ⟨h.idle, h.high, rfl⟩

theorem AtRest.inq_offered (h : AtRest s) (frame : List Byte) : (cmdWritten (offered s frame)).inq = frame ++ [] := by
  rw [List.append_nil]
  exact (congrArg (· ++ frame) h.noInput).trans (List.nil_append frame)

theorem inLen_offered (s : State) (h : frame.length < 2 ^ 32) : frame.length = (cmdWritten (offered s frame)).inLen.toNat :=
  ((BitVec.toNat_ofNat ..).trans (Nat.mod_eq_of_lt h)).symm

theorem freqAt_ne_zero (h : ∀ x, (freqAt s.freq x).toNat = xs.count x) {x : Sym} (hx : x ∈ xs) : freqAt s.freq x ≠ 0#32 := by
  intro hzero
  have hcount := h x
  rw [hzero] at hcount
  exact (List.count_pos_iff.mpr hx).ne hcount

/-- The host's script of COUNT counts the symbols (41 R83). -/
theorem runs_count (h : AtRest s) (hout : s.outq = []) (hlen : (bytesOf xs).length < 2 ^ 32) :
    ∃ t, Runs (frameScript (bytesOf xs) ++ commandScript .count (bytesOf xs).length) s t ∧ Counted t xs := by
  obtain ⟨t, hrun, ht, htotal, hcounts⟩ := countOfAFrame _ (bytesOf xs) [] (h.ready_offered _) (h.inq_offered _)
    (inLen_offered s hlen)
  have hgood : ((bytesOf xs).takeWhile fun b => decide (b.toNat < 128)) = bytesOf xs :=
    List.takeWhile_eq_self_iff.mpr fun b hb => decide_eq_true (lt_of_mem_bytesOf hb)
  rw [hgood] at ht htotal hcounts
  refine ⟨t, (runs_frame h.high _).append (runs_command h.idle h.high hrun), ⟨?_, ?_, ?_⟩, ?_, ?_, ?_, fun x => ?_⟩
  · rw [ht]; rfl
  · rw [ht]; exact h.high
  · rw [ht]
  · rw [ht]; exact hout
  · rw [ht]; exact if_pos rfl
  · rw [htotal, bytesOf, List.length_map]
  · rw [hcounts, count_bytesOf]

/-- The host's script of BUILD_TREE builds the tree of the symbols (42 R89, R98). -/
theorem runs_buildTree (h : Counted s xs) (hne : xs ≠ []) : ∃ t, Runs (commandScript .buildTree 0) s t ∧ Built t xs := by
  obtain ⟨x, hx⟩ := List.exists_mem_of_ne_nil xs hne
  have hcounted : freqAt s.freq x ≠ 0#32 := freqAt_ne_zero h.counts hx
  have htotal : s.total ≠ 0#32 := by
    intro hzero
    have hlen := h.total
    rw [hzero] at hlen
    exact hne (List.length_eq_zero_iff.mp hlen.symm)
  obtain ⟨hsome, hmany⟩ := frequencyList_length hcounted
  obtain ⟨htgt, hnxt, _⟩ := twoQueue_root hsome
  obtain ⟨_, hwf, hdistinct⟩ := twoQueue_wf hsome hmany (frequencyList_fst_nodup s.freq) htgt
  obtain ⟨T, hroot, hfits, hperm⟩ := twoQueue_fits hsome hmany htgt
  obtain ⟨_, _, hissue, _⟩ := acceptedIssueStartsTheCommand (cmdWritten s) h.idle
  have hphase : s.phase ≠ .idle := by rw [h.phase]; nofun
  refine ⟨_, runs_frameless h.idle h.high rfl (hissue hphase htotal) (exec_buildTree ⟨rfl, rfl, rfl⟩ hcounted), ?_⟩
  exact {
    idle := rfl
    high := h.high
    noInput := h.noInput
    ready := .inl rfl
    strict := ⟨_, hwf⟩
    distinct := hdistinct
    leaves := fun code hcode y hy => by
      obtain rfl : T.codeTable = code := Except.ok.inj (hfits.traverse_eq.symm.trans (hroot ▸ hcode))
      have hlisted : (y, freqAt s.freq y) ∈ frequencyList s.freq :=
        mem_frequencyList.mpr (.inl ⟨rfl, freqAt_ne_zero h.counts hy⟩)
      exact NodeTree.codeTable_valid_iff.mpr (hperm.mem_iff.mpr (List.mem_map_of_mem hlisted))
    noOutput := h.noOutput
    counts := h.counts }

/-- The host's script of BUILD_TABLE writes the codes of the tree (43 R101). -/
theorem runs_buildTable (h : Built s xs) : ∃ t, Runs (commandScript .buildTable 0) s t ∧ Tabled t xs := by
  obtain ⟨nn, hwf⟩ := h.strict
  obtain ⟨code, hcode⟩ := exists_traverse hwf
  obtain ⟨_, _, _, hissue, _⟩ := acceptedIssueStartsTheCommand (cmdWritten s) h.idle
  refine ⟨_, runs_frameless h.idle h.high rfl (hissue h.ready) (exec_buildTable ⟨rfl, rfl, rfl⟩ hcode), ?_⟩
  exact {
    idle := rfl
    high := h.high
    noInput := h.noInput
    ready := .inr rfl
    strict := ⟨nn, hwf⟩
    distinct := h.distinct
    leaves := h.leaves
    noOutput := h.noOutput
    phase := rfl
    table := hcode
    bitlen := (tableBuilt_bitlen_toNat ..).trans (length_codesOf code h.counts).symm
    pad := by rw [tableBuilt_pad_toNat, tableBuilt_bitlen_toNat] }

/-- The host's script of ENCODE emits the encoded stream of the codes of the symbols (44 R107, R111). -/
theorem runs_encode (h : Tabled s xs) (hlen : (bytesOf xs).length < 2 ^ 32) :
    ∃ t, Runs (frameScript (bytesOf xs) ++ commandScript .encode (bytesOf xs).length) s t ∧ Encoded t xs := by
  have hcodes := h.leaves _ h.table
  have hgood : (bytesOf xs).takeWhile (packable s.code) = bytesOf xs :=
    List.takeWhile_eq_self_iff.mpr fun b hb => packable_of_mem_bytesOf hcodes hb
  have herr : packError s.code (bytesOf xs) = .none := by
    rw [packError, List.find?_eq_none.mpr fun b hb => by simp [packable_of_mem_bytesOf hcodes hb]]
  have hfit : ((bytesOf xs).flatMap (codeOf s.code)).length % 8 = s.bitlen.toNat % 8 := by
    rw [flatMap_codeOf, h.bitlen]
  obtain ⟨hrun, hstream, _⟩ := encodeEmitsTheStream (cmdWritten (offered s (bytesOf xs))) (bytesOf xs) []
    (h.ready_offered _) h.phase h.pad (h.inq_offered _) (inLen_offered s hlen)
  have hcode : (cmdWritten (offered s (bytesOf xs))).code = s.code := rfl
  have hbitlen : (cmdWritten (offered s (bytesOf xs))).bitlen = s.bitlen := rfl
  rw [hcode, hbitlen, hgood] at hstream
  rw [hcode, hbitlen, hgood, hstream rfl hfit, if_neg (not_not.mpr herr), if_pos hfit, flatMap_codeOf] at hrun
  refine ⟨_, (runs_frame h.high _).append (runs_command h.idle h.high hrun), ?_⟩
  exact {
    idle := rfl
    high := h.high
    noInput := rfl
    ready := h.ready
    strict := h.strict
    distinct := h.distinct
    leaves := h.leaves
    done := rfl
    errcode := rfl
    table := h.table
    output := (congrArg (· ++ stream (codesOf s.code xs)) h.noOutput).trans (List.nil_append _) }

/-- The host's scripts up to BUILD_TABLE and then ENCODE make the encode script (70 R145 item 3). -/
theorem runs_encodeScript (h : AtRest s) (hout : s.outq = []) (hne : xs ≠ []) (hlen : (bytesOf xs).length < 2 ^ 32) :
    ∃ t, Runs (encodeScript (bytesOf xs)) s t ∧ Encoded t xs := by
  obtain ⟨t, hcount, ht⟩ := runs_count h hout hlen
  obtain ⟨u, htree, hu⟩ := runs_buildTree ht hne
  obtain ⟨v, htable, hv⟩ := runs_buildTable hu
  obtain ⟨w, hencode, hw⟩ := runs_encode hv hlen
  refine ⟨w, ?_, hw⟩
  rw [encodeScript, List.append_assoc _ (frameScript _)]
  exact ((hcount.append htree).append htable).append hencode

/-! ### Decoding -/

/-- The state once the host has taken all output. -/
def outputTaken (s : State) : State := { s with outq := [] }

/-- The state in which the decode script issues DECODE, the tree source selected and the output offered back. -/
def decodeReady (s : State) (src : Bool) : State := cmdWritten (offered (selected (outputTaken s) src) s.outq)

/-- The tree of either source is the one in NODE, where the ROM equals NODE if the ROM is the source (45 R115). -/
theorem tree_of_src {src : Bool} (hsrc : src = true ∨ (s.rom.val.nodes = s.node ∧ s.rom.val.root = s.root)) :
    treeNodes src s = s.node ∧ treeRoot src s = s.root := by
  rcases hsrc with rfl | ⟨hnodes, hroot⟩
  · exact ⟨rfl, rfl⟩
  · cases src
    · exact ⟨hnodes, hroot⟩
    · exact ⟨rfl, rfl⟩

/-- The walk of the encoded stream of the symbols gives their bytes back, with no bit pending (45 R121). -/
theorem Encoded.walk_output (h : Encoded s xs) :
    walk s.node s.root s.root 0 (unpack s.outq) = (bytesOf xs, s.root, 0) := by
  obtain ⟨nn, hwf⟩ := h.strict
  rw [h.output, unpackOfTheStream]
  exact walkOfTheCodes s.node nn s.root s.code xs hwf h.distinct h.table (h.leaves _ h.table)

/-- The host's decode script on the encoded stream gives the frame back (45 R121, 70 R145 item 4). -/
theorem runs_decodeScript {src : Bool} (h : Encoded s xs) (hlen : s.outq.length < 2 ^ 32)
    (hsrc : src = true ∨ (s.rom.val.nodes = s.node ∧ s.rom.val.root = s.root)) :
    ∃ u, Runs (decodeScript src s.outq) (outputTaken s) u ∧
      u.cur = none ∧ u.done = true ∧ u.errcode = .none ∧ u.trail = 0#8 ∧ u.outq = bytesOf xs := by
  have hrest : AtRest (selected (outputTaken s) src) := ⟨h.idle, h.high, h.noInput⟩
  obtain ⟨nn, hwf⟩ := h.strict
  obtain ⟨hnodes, hroot⟩ : treeNodes src (decodeReady s src) = s.node ∧ treeRoot src (decodeReady s src) = s.root :=
    tree_of_src hsrc
  have hrun := decodeOfAFrame (decodeReady s src) s.outq [] nn (hrest.ready_offered _) (.inr h.ready)
    (by rw [← hnodes, ← hroot] at hwf; exact hwf) (hrest.inq_offered _) (inLen_offered _ hlen)
  rw [show (decodeReady s src).tsrc = src from rfl, hnodes, hroot, h.walk_output] at hrun
  have hscript : Runs (frameScript s.outq ++ commandScript .decode s.outq.length) (selected (outputTaken s) src) _ :=
    (runs_frame hrest.high s.outq).append (runs_command hrest.idle hrest.high hrun)
  exact ⟨_, .cons (step_select (s := outputTaken s) h.high src) hscript, rfl, rfl, rfl, rfl, List.nil_append _⟩

end

/-- Settles O40: the encode script leaves the encoded stream of the frame in the output, and the decode script walks it back to
the frame in the tree it was encoded with. -/
theorem roundTripOnTheMachine : Obligations.RoundTripOnTheMachine := by
  unfold Obligations.RoundTripOnTheMachine
  intro s frame hready hin hout hne hlen hbytes
  obtain ⟨xs, rfl⟩ := exists_bytesOf hbytes
  have hsome : xs ≠ [] := fun hnil => hne (by rw [hnil]; rfl)
  obtain ⟨t, hruns, ht⟩ := runs_encodeScript ⟨hready.idle, hready.high, hin⟩ hout hsome hlen
  have hturns := hruns []
  rw [List.append_nil] at hturns
  refine ⟨under [] t, hturns, ht.idle, ht.done, ht.errcode, ht.noInput, fun houtlen src hsrc => ?_⟩
  obtain ⟨u, hruns', hu⟩ := runs_decodeScript ht houtlen hsrc
  have hturns' := hruns' []
  rw [List.append_nil] at hturns'
  exact ⟨under [] u, hturns', hu⟩

end Sys2Proof.Machine
end

section
/-! PROOFS. STATUS while a command runs, the rejection at issue, waiting, the first error, and the irq level (10 R19; 40 R74 to
R76; 60 R123, R124, R127, R130, R133). -/

namespace Sys2Proof.Machine

/-! ### What the Starts and Beats leave of STATUS -/

/-- A Start or Beat that makes `q` from `c` and `s` leaves the name of the command, and DONE, ERRCODE and LASTCMD. -/
structure SameStatus (c : Cur) (s : State) (q : Cur × State) : Prop where
  op : q.1.op = c.op
  done : q.2.done = s.done
  errcode : q.2.errcode = s.errcode
  lastcmd : q.2.lastcmd = s.lastcmd

theorem noStart_sameStatus (c : Cur) (s : State) : SameStatus c s (noStart c s) := ⟨rfl, rfl, rfl, rfl⟩

/-- Emission writes the output and its count alone (40 R77). -/
theorem emitAll_sameStatus {c c' : Cur} (s : State) (bs : List Byte) (hop : c'.op = c.op) :
    SameStatus c s (c', emitAll s bs) := by
  rw [emitAll_eq]
  exact ⟨hop, rfl, rfl, rfl⟩

theorem noBeat_sameStatus {b : Byte} {c : Cur} {s : State} {q : Cur × State} (h : noBeat b c s = .ok q) :
    SameStatus c s q := by
  cases h
  exact ⟨rfl, rfl, rfl, rfl⟩

theorem countBeat_sameStatus {b : Byte} {c : Cur} {s : State} {q : Cur × State} (h : countBeat b c s = .ok q) :
    SameStatus c s q := by
  rcases countBeat_cases b c s with ⟨_, e⟩ | ⟨_, _, e⟩ | ⟨_, _, e⟩ <;> rw [e] at h <;> cases h <;>
    exact ⟨rfl, rfl, rfl, rfl⟩

theorem encodeBeat_sameStatus {b : Byte} {c : Cur} {s : State} {q : Cur × State} (h : encodeBeat b c s = .ok q) :
    SameStatus c s q := by
  rcases encodeBeat_cases b c s with ⟨_, e⟩ | ⟨_, _, _, _, e, _⟩ | ⟨_, _, e⟩ <;> rw [e] at h <;> cases h
  · exact ⟨rfl, rfl, rfl, rfl⟩
  · exact ⟨rfl, rfl, rfl, rfl⟩
  · exact emitAll_sameStatus s _ rfl

theorem decodeBeat_sameStatus {b : Byte} {c : Cur} {s : State} {q : Cur × State} (h : decodeBeat b c s = .ok q) :
    SameStatus c s q := by
  obtain ⟨bs, _, _, _, rfl⟩ := decodeBeat_ok h
  exact emitAll_sameStatus s bs rfl

/-! ### STATUS while a command runs -/

/-- With `c` in progress the invariant of STATUS is what it says of `c`. -/
theorem statusInv_of_running {s : State} {c : Cur} (hcur : s.cur = some c) (hdone : s.done = false)
    (herr : s.errcode = .none) (hname : s.lastcmd = opcode c.op) : StatusInv s where
  quiet _ _ := ⟨hdone, herr⟩
  named c' hc' := by
    obtain rfl : c = c' := Option.some.inj (hcur.symm.trans hc')
    exact hname

/-- The invariant of STATUS rests on the record of the command, ERRCODE and LASTCMD, and on DONE not being set. -/
theorem StatusInv.sameBlock {s t : State} (h : StatusInv s) (k : SameBlock s t) : StatusInv t where
  quiet c hc := by
    obtain ⟨hdone, herr⟩ := h.quiet c (k.cur ▸ hc)
    exact ⟨Bool.eq_false_iff.mpr fun ht => Bool.eq_false_iff.mp hdone (k.done ht), k.errcode.trans herr⟩
  named c hc := k.lastcmd.trans (h.named c (k.cur ▸ hc))

/-- A command keeps the invariant of STATUS when its Start and Beat leave STATUS: an issue clears DONE and ERRCODE and names the
command, or rejects it; a completion leaves no command in progress (40 R74, R76, R78). -/
theorem command_statusInv {i : Instr} {start : Cur → State → Cur × State}
    {beat : Byte → Cur → State → Except Fault (Cur × State)} {finish : Cur → State → Except Fault (Cur × State)}
    (hstart : ∀ c s, SameStatus c s (start c s)) (hbeat : ∀ b c s q, beat b c s = .ok q → SameStatus c s q)
    {s t : State} (hs : StatusInv s) (h : command i start beat finish s = .next t) : StatusInv t := by
  rcases command_cases h with ⟨hidle, rfl⟩ | ⟨_, _, _, rfl⟩ | ⟨c, hcur, _, hcore⟩
  · by_cases hcheck : issueCheck i (beginIssue (opcode i) s) = .none
    · rw [issue_accepted hcheck]
      obtain ⟨hop, hdone, herr, hname⟩ := hstart (newCur i (beginIssue (opcode i) s)) (beginIssue (opcode i) s)
      exact statusInv_of_running rfl hdone herr (hname.trans (congrArg opcode hop).symm)
    · rw [issue_rejected hcheck]
      exact statusInv_of_idle hidle
  · exact hs
  · rcases coreStep_cases hcore with ⟨_, _, _, rfl⟩ | ⟨_, _, rfl⟩ | ⟨_, b, _, q, _, hq, rfl⟩
    · exact statusInv_of_idle rfl
    · exact hs
    · obtain ⟨hop, hdone, herr, hname⟩ := hbeat b _ _ q hq
      obtain ⟨hdone', herr'⟩ := hs.quiet c hcur
      refine statusInv_of_running rfl (hdone.trans hdone') (herr.trans herr') ?_
      calc q.2.lastcmd = s.lastcmd := hname
        _ = opcode c.op := hs.named c hcur
        _ = opcode q.1.op := (congrArg opcode hop).symm

/-- Every command keeps the invariant of STATUS. -/
theorem exec_statusInv {i : Instr} {s t : State} (h : exec i s = .next t) (hs : StatusInv s) : StatusInv t := by
  cases i with
  | clear => exact command_statusInv noStart_sameStatus (fun _ _ _ _ => noBeat_sameStatus) hs h
  | count => exact command_statusInv (fun _ _ => ⟨rfl, rfl, rfl, rfl⟩) (fun _ _ _ _ => countBeat_sameStatus) hs h
  | buildTree => exact command_statusInv noStart_sameStatus (fun _ _ _ _ => noBeat_sameStatus) hs h
  | buildTable => exact command_statusInv noStart_sameStatus (fun _ _ _ _ => noBeat_sameStatus) hs h
  | encode => exact command_statusInv (fun _ _ => ⟨rfl, rfl, rfl, rfl⟩) (fun _ _ _ _ => encodeBeat_sameStatus) hs h
  | decode => exact command_statusInv (fun _ _ => ⟨rfl, rfl, rfl, rfl⟩) (fun _ _ _ _ => decodeBeat_sameStatus) hs h

/-- Settles O55: the host's moves leave the record and set no flag, reset leaves no command, a rejected word none either, and
every command keeps the invariant. -/
theorem stepKeepsStatusInvariant : Obligations.StepKeepsStatusInvariant := by
  unfold Obligations.StepKeepsStatusInvariant
  intro s t hs hstep
  cases step_effect hstep with
  | host same => exact hs.sameBlock same
  | reset _ _ next =>
    rw [next]
    exact statusInv_of_idle rfl
  | issue _ _ _ _ idle next =>
    rcases issueWord_cases next with ⟨_, _, hexec⟩ | ⟨_, _, rfl⟩
    · exact exec_statusInv hexec (hs.sameBlock (sameBlock_hostSide ..))
    · exact statusInv_of_idle idle
  | core _ _ _ _ next => exact exec_statusInv next (hs.sameBlock (sameBlock_hostSide ..))

/-! ### Waiting -/

/-- Settles O10: in progress exec is a core step, which waits without a byte; idle, the core's turn does nothing. -/
theorem waitingChangesNothing : Obligations.WaitingChangesNothing := by
  unfold Obligations.WaitingChangesNothing
  refine ⟨fun s c hcur hrem hnone => ?_, fun s hidle hquiet => ?_⟩
  · obtain ⟨_, _, hexec⟩ := exec_running hcur
    rw [hexec]
    exact coreStep_wait hrem hnone
  · rw [step_quiet hquiet, coreTurn, hidle]

/-! ### Rejection at issue -/

/-- The check of an issue reads neither the schedule nor the answer of the bus. -/
theorem issueCheck_answered (i : Instr) (s : State) (rest : List HostMove) (x : Option Answer) :
    issueCheck i { s with host := rest, answer := x } = issueCheck i s := by
  cases i <;> rfl

/-- A command that the check rejects leaves only its code, DONE, LASTCMD and the zeroed issue counters (40 R74, 60 R124). -/
theorem exec_rejected {i : Instr} {s : State} {e : ErrCode} (hidle : s.cur = none) (hcheck : issueCheck i s = e)
    (he : e ≠ .none) : exec i s = .next (rejected s (opcode i) e) := by
  obtain ⟨start, _, hexec⟩ := exec_idle i hidle
  have hbegin : issueCheck i (beginIssue (opcode i) s) = e := (issueCheck_beginIssue i (opcode i) s).trans hcheck
  rw [hexec, issue_rejected (hbegin ▸ he), hbegin]
  rfl

/-- No tree is built in IDLE and FREQ_DONE (10 R36). -/
theorem treeReady_eq_false {p : Phase} (h : p = .idle ∨ p = .freqDone) : treeReady p = false := by
  rcases h with rfl | rfl <;> rfl

/-- Settles O13: an illegal word by O3, a command's word by O8 and the rejected issue; the check of each command gives the code
named. -/
theorem issueErrorsChangeOnlyStatus : Obligations.IssueErrorsChangeOnlyStatus := by
  unfold Obligations.IssueErrorsChangeOnlyStatus
  refine ⟨fun s w rest hhigh hidle hmove => ⟨fun e hdecode => ?_, fun i hdecode hcheck => ?_⟩, fun s hidle =>
    ⟨fun hphase => ?_, fun hphase htotal => ?_, fun hphase => ?_, fun hphase => ?_, fun htsrc hphase => ?_⟩⟩
  · obtain ⟨_, _, _, hillegal⟩ := everyWordIsACommandOrIllegal
    exact hillegal s w e rest hhigh hidle hmove hdecode
  · rw [stepRunsTheWrittenCommand s w i rest hhigh hidle hmove hdecode, ← opcode_of_decode hdecode]
    exact exec_rejected hidle (issueCheck_answered i s rest _) hcheck
  · exact exec_rejected hidle (if_pos hphase) nofun
  · exact exec_rejected hidle (by simp [issueCheck, hphase, htotal]) nofun
  · exact exec_rejected hidle (by simp [issueCheck, treeReady_eq_false hphase]) nofun
  · exact exec_rejected hidle (if_neg hphase) nofun
  · exact exec_rejected hidle (by simp [issueCheck, htsrc, treeReady_eq_false hphase]) nofun

/-! ### The first error -/

/-- With an error recorded the record stays (60 R123). -/
theorem cmdError_of_err {c : Cur} (e : ErrCode) (h : c.err ≠ .none) : cmdError e c = c := if_neg h

/-- Settles O41: either the error is recorded now, or one was before; then the record stays. -/
theorem firstErrorWins : Obligations.FirstErrorWins := by
  unfold Obligations.FirstErrorWins
  intro c e e' he
  rcases cmdError_cases e c with ⟨hnone, heq⟩ | ⟨hsome, heq⟩
  · exact ⟨fun _ => by rw [heq], fun hsome => absurd hnone hsome, by rw [heq, cmdError_of_err e' he]⟩
  · exact ⟨fun hnone => absurd hnone hsome, fun _ => heq, by rw [heq, cmdError_of_err e' hsome]⟩

/-! ### The irq level -/

/-- The issue of a command that the check lets pass starts it (40 R74). -/
theorem exec_accepted_cur {i : Instr} {s t : State} (h : exec i s = .next t) (hidle : s.cur = none)
    (hcheck : issueCheck i s = .none) : ∃ c, t.cur = some c := by
  obtain ⟨start, _, hexec⟩ := exec_idle i hidle
  rw [hexec, issue_accepted ((issueCheck_beginIssue i (opcode i) s).trans hcheck)] at h
  cases h
  exact ⟨_, rfl⟩

/-- The issue of a command leaves DONE 1 if it was rejected, and 0, as the invariant of STATUS says, if it started (40 R74). -/
theorem exec_idle_done {i : Instr} {s t : State} (h : exec i s = .next t) (hidle : s.cur = none) :
    t.done = decide (t.cur = none) := by
  by_cases hcheck : issueCheck i s = .none
  · obtain ⟨c, hcur⟩ := exec_accepted_cur h hidle hcheck
    obtain ⟨hdone, _⟩ := (exec_statusInv h (statusInv_of_idle hidle)).quiet c hcur
    rw [hdone, hcur]
    rfl
  · obtain rfl := Host.Outcome.next.inj ((exec_rejected hidle rfl hcheck).symm.trans h)
    exact (decide_eq_true hidle).symm

/-- After an accepted CMD write irq is IRQ_EN if the word was rejected, and 0 if a command started (60 R130). -/
theorem issueWord_irq {w : Word} {s t : State} (h : issueWord w s = .next t) (hidle : s.cur = none) :
    irq t = (s.irqEn && decide (t.cur = none)) := by
  rcases issueWord_cases h with ⟨i, _, hexec⟩ | ⟨_, _, rfl⟩
  · rw [irq, (exec_frame hexec).irqEn, exec_idle_done hexec hidle]
  · exact congrArg (s.irqEn && ·) (decide_eq_true hidle).symm

/-- Settles O51: irq by its equation; after a write to CMD, STATUS or CTRL by O49, after a completion by O12, after the
fall of rst_n by O52. -/
theorem irqIsEnableAndDone : Obligations.IrqIsEnableAndDone := by
  unfold Obligations.IrqIsEnableAndDone
  refine ⟨fun _ => rfl, fun s t w rest hhigh hidle hmove hstep => ?_, fun s t c hcur hstep hend hfall => ?_,
    fun s t v rest hhigh hone hmove hstep => ?_, fun s t v rest hhigh hmove hstep => ?_, fun s t rest hmove hstep => ?_⟩
  · obtain ⟨_, _, _, _, hissue, _⟩ := legalWritesSetTheRegister s w rest hhigh
    have hirq := issueWord_irq ((hissue hidle hmove).symm.trans hstep) hidle
    exact hirq
  · rcases onlyCompletionOrResetEndsACommand s t c hcur hstep hend with ⟨rest, hmove⟩ | ⟨_, _, hirq⟩
    · exact absurd hmove (hfall rest)
    · exact hirq
  · obtain ⟨_, hclear, _⟩ := legalWritesSetTheRegister s v rest hhigh
    cases (hclear hmove hone).symm.trans hstep
    exact Bool.and_false _
  · obtain ⟨hctrl, _⟩ := legalWritesSetTheRegister s v rest hhigh
    cases (hctrl hmove).symm.trans hstep
    exact ⟨rfl, rfl⟩
  · obtain ⟨_, hvalues⟩ := resetSetsEveryElement s rest hmove
    obtain ⟨hirq, _⟩ := hvalues t hstep
    exact hirq

end Sys2Proof.Machine
end

section
/-! PROOFS. While rst_n is low the block stays at its reset values, and its release changes rst_n only (70 R141, R142). -/

namespace Sys2Proof.Machine

/-! ### A low rst_n -/

/-- With rst_n low the core's turn does nothing (70 R142). -/
theorem coreTurn_low {s : State} (hlow : s.rstN = false) : coreTurn s = .next s := by
  cases hcur : s.cur with
  | none => rw [coreTurn, hcur]
  | some c => simp [coreTurn, hcur, hlow]

/-- Settles O53: the core's turn by `coreTurn_low`, the bus and the release by the definition of the move. -/
theorem lowResetHoldsTheBlock : Obligations.LowResetHoldsTheBlock := by
  unfold Obligations.LowResetHoldsTheBlock
  intro s rest hlow
  refine ⟨fun hquiet => ?_, fun hmove => ?_, fun a n hmove => ?_, fun a n v hmove => ?_, fun hmove => ?_⟩
  · rw [step_quiet hquiet, coreTurn_low hlow]
  · rw [step_move hmove]
    exact coreTurn_low (s := { s with host := rest }) hlow
  · rw [step_move hmove]
    exact if_neg (Bool.eq_false_iff.mp hlow)
  · rw [step_move hmove]
    exact if_neg (Bool.eq_false_iff.mp hlow)
  · rw [step_move hmove]
    rfl

/-! ### The moves of the host at the reset values -/

/-- The schedule, INQ and the count of abandoned bytes are no values of the block. -/
theorem resetValues_hostSide {s : State} (h : s = resetBlock s) (host : List HostMove) (inq : List Byte) (abandoned : Nat) :
    { s with host := host, inq := inq, abandoned := abandoned } =
      resetBlock { s with host := host, inq := inq, abandoned := abandoned } := by
  rw [h]
  rfl

/-- A write leaves the level of rst_n (20 R48). -/
theorem busWrite_rstN {a : Addr} {n : AccessSize} {v : Word} {s t : State} (h : busWrite a n v s = .next t) :
    t.rstN = s.rstN := by
  rcases busWrite_cases h with rfl | rfl | rfl | rfl | rfl | ⟨_, _, hissue⟩
  · rfl
  · rfl
  · rfl
  · rfl
  · rfl
  · rcases issueWord_cases hissue with ⟨_, _, hexec⟩ | ⟨_, _, rfl⟩
    · exact (exec_frame hexec).rstN
    · rfl

/-- Each move of the host that leaves rst_n low leaves the reset values: a transaction is refused, OUTQ has no byte to take, the
core's turn does nothing, and the other moves write the host's side (70 R142, R143). -/
theorem hostMove_resetInv {m : HostMove} {s t : State} (hinv : ResetInv s) (h : hostMove m s = .next t) : ResetInv t := by
  intro hlow
  cases m with
  | read a n =>
    simp only [hostMove] at h
    split at h
    case isTrue hhigh =>
      obtain ⟨x, k, hread⟩ := busRead_frame a n s
      rw [hread] at h
      cases h
      cases hhigh.symm.trans hlow
    case isFalse => cases h
  | write a n v =>
    simp only [hostMove] at h
    split at h
    case isTrue hhigh => cases hhigh.symm.trans ((busWrite_rstN h).symm.trans hlow)
    case isFalse => cases h
  | offer b =>
    cases h
    exact resetValues_hostSide (hinv hlow) s.host (s.inq ++ [b]) s.abandoned
  | take =>
    cases h
    have hrstN : s.rstN = false := by
      unfold takeByte at hlow
      split at hlow <;> exact hlow
    have hreset := hinv hrstN
    have hempty : s.outq = [] := congrArg State.outq hreset
    rwa [takeByte_nil hempty]
  | withdraw =>
    simp only [hostMove] at h
    split at h <;> cases h
    cases hinq : s.inq with
    | nil =>
      rw [withdrawByte_nil hinq] at hlow ⊢
      exact hinv hlow
    | cons b rest =>
      rw [withdrawByte_cons hinq] at hlow ⊢
      exact resetValues_hostSide (hinv hlow) s.host rest (s.abandoned - 1)
  | rstFall => cases h; rfl
  | rstRise => cases h; cases hlow
  | core =>
    rcases coreTurn_cases h with rfl | ⟨c, _, hhigh, hexec⟩
    · exact hinv hlow
    · cases hhigh.symm.trans ((exec_frame hexec).rstN.symm.trans hlow)

/-- Settles O59: a step is a move of the host, with the core's turn for an empty schedule, and each move keeps the invariant. -/
theorem stepKeepsResetInvariant : Obligations.StepKeepsResetInvariant := by
  unfold Obligations.StepKeepsResetInvariant
  intro s t hinv hstep
  rcases step_cases hstep with ⟨_, hturn⟩ | ⟨m, rest, _, hmove⟩
  · exact hostMove_resetInv (m := .core) hinv hturn
  · refine hostMove_resetInv (fun hlow => ?_) hmove
    exact resetValues_hostSide (hinv hlow) rest s.inq s.abandoned

end Sys2Proof.Machine
end

section
/-! PROOFS. A command whose frame is offered completes after one more core step than it has bytes to take (40 R76; 70 R147). -/

namespace Sys2Proof.Machine

/-! ### What a beat takes -/

/-- The Beat leaves the command, its bytes to take, and INQ, from which only the core step takes (40 R76). -/
def LeavesFrame (beat : Byte → Cur → State → Except Fault (Cur × State)) : Prop :=
  ∀ b c s q, beat b c s = .ok q → q.1.op = c.op ∧ q.1.rem = c.rem ∧ q.2.inq = s.inq

theorem noBeat_leavesFrame : LeavesFrame noBeat := by
  rintro b c s q hq
  cases hq
  exact ⟨rfl, rfl, rfl⟩

theorem countBeat_leavesFrame : LeavesFrame countBeat := by
  intro b c s q hq
  rcases countBeat_cases b c s with ⟨_, e⟩ | ⟨_, _, e⟩ | ⟨_, _, e⟩ <;> rw [e] at hq <;> cases hq <;>
    exact ⟨rfl, rfl, rfl⟩

theorem encodeBeat_leavesFrame : LeavesFrame encodeBeat := by
  intro b c s q hq
  rcases encodeBeat_cases b c s with ⟨_, e⟩ | ⟨_, _, _, _, e, _⟩ | ⟨_, _, e⟩ <;> rw [e] at hq <;> cases hq
  · exact ⟨rfl, rfl, rfl⟩
  · exact ⟨rfl, rfl, rfl⟩
  · exact ⟨rfl, rfl, (SamePart.emitAll s _).inq⟩

theorem decodeBeat_leavesFrame : LeavesFrame decodeBeat := by
  intro b c s q hq
  obtain ⟨bs, _, _, _, rfl⟩ := decodeBeat_ok hq
  exact ⟨rfl, rfl, (SamePart.emitAll s bs).inq⟩

section
variable {s t : State} {c : Cur}

/-- In progress itself, exec of a command is a core step whose Beat takes nothing more (40 R76). -/
theorem exec_running_leavesFrame (h : s.cur = some c) :
    ∃ beat finish, exec c.op s = coreStep beat finish c s ∧ LeavesFrame beat := by
  cases hop : c.op
  case clear => exact ⟨noBeat, clearBody, command_running h hop, noBeat_leavesFrame⟩
  case count => exact ⟨countBeat, countFinish, command_running h hop, countBeat_leavesFrame⟩
  case buildTree => exact ⟨noBeat, buildTreeBody, command_running h hop, noBeat_leavesFrame⟩
  case buildTable => exact ⟨noBeat, buildTableBody, command_running h hop, noBeat_leavesFrame⟩
  case encode => exact ⟨encodeBeat, encodeFinish, command_running h hop, encodeBeat_leavesFrame⟩
  case decode => exact ⟨decodeBeat, decodeFinish, command_running h hop, decodeBeat_leavesFrame⟩

/-- With a byte to take and one offered, a core step takes it and leaves the command in progress (40 R76). -/
theorem exec_takes {b : Byte} {rest : List Byte} (hcur : s.cur = some c) (hrem : c.rem ≠ 0#32) (hinq : s.inq = b :: rest)
    (h : exec c.op s = .next t) : ∃ d, t.cur = some d ∧ d.op = c.op ∧ d.rem = c.rem - 1#32 ∧ t.inq = rest := by
  obtain ⟨beat, finish, hexec, hbeat⟩ := exec_running_leavesFrame hcur
  rw [hexec] at h
  rcases coreStep_cases h with ⟨hzero, _⟩ | ⟨_, hnone, _⟩ | ⟨_, b', rest', q, hinq', hq, rfl⟩
  · exact absurd hzero hrem
  · cases hinq.symm.trans hnone
  · obtain ⟨rfl, rfl⟩ := List.cons.inj (hinq.symm.trans hinq')
    exact ⟨q.1, rfl, hbeat b _ _ q hq⟩

/-- With no byte to take, a core step completes the command and takes none (40 R76, R78). -/
theorem exec_completes (hcur : s.cur = some c) (hrem : c.rem = 0#32) (h : exec c.op s = .next t) :
    t.cur = none ∧ t.done = true ∧ t.inq = s.inq := by
  have hinq : t.inq = s.inq := by
    rcases exec_inq h with hsame | ⟨c', _, hcur', _, hsome, _⟩
    · exact hsame
    · obtain rfl : c = c' := Option.some.inj (hcur.symm.trans hcur')
      exact absurd hrem hsome
  obtain ⟨beat, finish, hexec⟩ := exec_running hcur
  rw [hexec] at h
  rcases coreStep_cases h with ⟨_, _, _, rfl⟩ | ⟨hsome, _⟩ | ⟨hsome, _⟩
  · exact ⟨rfl, rfl, hinq⟩
  · exact absurd hrem hsome
  · exact absurd hrem hsome

/-! ### Progress -/

/-- A core step is never refused (40 R76). -/
theorem coreStep_ne_refused {beat : Byte → Cur → State → Except Fault (Cur × State)}
    {finish : Cur → State → Except Fault (Cur × State)} (r : Refusal) : coreStep beat finish c s ≠ .refused r := by
  have hsettle (o : Except Fault State) : settle o ≠ .refused r := by cases o <;> nofun
  unfold coreStep
  split
  · exact hsettle _
  · split
    · nofun
    · exact hsettle _

/-- Where the invariant holds the command in progress makes a core step. -/
theorem exists_exec_running (hcur : s.cur = some c) (hcount : CounterInv s) (hphase : PhaseInv s) :
    ∃ t, exec c.op s = .next t := by
  cases h : exec c.op s with
  | next t => exact ⟨t, rfl⟩
  | fault f => exact absurd h (exec_running_ne_fault f hcur hcount hphase)
  | refused r =>
    obtain ⟨_, _, hexec⟩ := exec_running hcur
    exact absurd (hexec.symm.trans h) (coreStep_ne_refused r)

end

/-! ### A whole frame -/

section
variable {i : Instr} {s : State} {c : Cur} {b : Byte} {frame rest : List Byte}

/-- With bytes of the frame left, a core step takes the next one (40 R76). -/
theorem TakingFrame.exists_beat (h : TakingFrame i s c (b :: frame) rest) (hcount : CounterInv s) (hphase : PhaseInv s) :
    ∃ t d, exec i s = .next t ∧ TakingFrame i t d frame rest ∧ CounterInv t ∧ PhaseInv t := by
  obtain ⟨t, hexec⟩ := exists_exec_running h.running hcount hphase
  obtain ⟨_, _, hrem, hinq⟩ := h.atByte
  obtain ⟨d, hcur, hop, hrem', hinq'⟩ := exec_takes h.running hrem hinq hexec
  have hlen : frame.length = d.rem.toNat := by
    have := h.length
    rw [List.length_cons] at this
    bv_omega
  have hframe := exec_frame hexec
  rw [h.op] at hexec hop
  exact ⟨t, d, hexec, ⟨hcur, hop, hframe.rstN.trans h.high, hframe.host.trans h.quiet, hinq', hlen⟩,
    exec_counterInv hexec hcount, exec_phaseInv hexec hcount hphase⟩

/-- With the frame taken, the next core step completes the command (40 R76, R78). -/
theorem TakingFrame.exists_finish (h : TakingFrame i s c [] rest) (hcount : CounterInv s) (hphase : PhaseInv s) :
    ∃ t, exec i s = .next t ∧ t.cur = none ∧ t.done = true ∧ t.inq = rest := by
  obtain ⟨t, hexec⟩ := exists_exec_running h.running hcount hphase
  obtain ⟨hcur, hdone, hinq⟩ := exec_completes h.running h.atEnd.rem hexec
  rw [h.op] at hexec
  exact ⟨t, hexec, hcur, hdone, hinq.trans h.offered⟩

/-- After `k` turns the command is still in progress, and `k` bytes of its frame are taken. -/
theorem TakingFrame.turns_beats (h : TakingFrame i s c frame rest) (hcount : CounterInv s) (hphase : PhaseInv s) {k : Nat}
    (hk : k ≤ frame.length) :
    ∃ t d, turns k s = .next t ∧ TakingFrame i t d (frame.drop k) rest ∧ CounterInv t ∧ PhaseInv t := by
  induction k generalizing s c frame with
  | zero => exact ⟨s, c, rfl, h, hcount, hphase⟩
  | succ k ih =>
    match frame with
    | b :: frame =>
      obtain ⟨u, d, hexec, hu, hcount', hphase'⟩ := h.exists_beat hcount hphase
      rw [h.turns_succ k hexec]
      exact ih hu hcount' hphase' (Nat.le_of_succ_le_succ hk)

/-- One more turn than the frame has bytes completes the command. -/
theorem TakingFrame.turns_complete (h : TakingFrame i s c frame rest) (hcount : CounterInv s) (hphase : PhaseInv s) :
    ∃ t, turns (frame.length + 1) s = .next t ∧ t.cur = none ∧ t.done = true ∧ t.inq = rest := by
  obtain ⟨u, d, hturns, hu, hcount', hphase'⟩ := h.turns_beats hcount hphase le_rfl
  rw [List.drop_length] at hu
  obtain ⟨t, hexec, hend⟩ := hu.exists_finish hcount' hphase'
  refine ⟨t, ?_, hend⟩
  rw [turns_add _ 1 _ _ hturns, hu.turns_succ 0 hexec, turns]

end

/-- Settles O45: the first `rem` bytes of INQ are the frame, each turn takes one of them, and the turn after them completes. -/
theorem commandCompletesAfterItsFrame : Obligations.CommandCompletesAfterItsFrame := by
  unfold Obligations.CommandCompletesAfterItsFrame
  intro s c hinv hcur hhigh hquiet hoffered
  have hlen : (s.inq.take c.rem.toNat).length = c.rem.toNat := List.length_take_of_le hoffered
  have hframe : TakingFrame c.op s c (s.inq.take c.rem.toNat) (s.inq.drop c.rem.toNat) :=
    ⟨hcur, rfl, hhigh, hquiet, (List.take_append_drop ..).symm, hlen⟩
  refine ⟨?_, fun k hk => ?_⟩
  · have hcomplete := hframe.turns_complete hinv.counters hinv.phase
    rwa [hlen] at hcomplete
  · obtain ⟨t, d, hturns, ht, _⟩ := hframe.turns_beats hinv.counters hinv.phase (hlen.symm ▸ hk)
    exact ⟨t, hturns, ht.running ▸ nofun⟩

end Sys2Proof.Machine
end
